-- ==== Sys2Proof/Word.lean ====
section
/-! DEFINITION. The word types (spec/00_scope.md rule R9): a word is 32 bits, bit 31 the most significant. An F value
of the machine is its 32-bit binary32 pattern, so `asF` and `bitsF` of rule R11 are both the identity on words. -/

namespace Sys2Proof

/-- A word, rule R9: 32 bits. Also a `u32`, and the pattern of an F value. -/
abbrev Word := BitVec 32

/-- An 8-bit field of the command word (rule R56) or of `FSR` (rule R27). -/
abbrev Byte := BitVec 8

end Sys2Proof
end

