-- ==== Sys2Proof/Syntax.lean ====
section
/-! DEFINITION. The commands (spec/30_encoding.md rules R58 to R60): the fourteen of rule R59, one constructor each,
with the selector already turned into a name. Every operand word is kept as its 32 bits (rule R57). -/

namespace Sys2Proof

/-- Smoother index `k` (rule R60): 0 drive, 1 tone, 2 level. -/
inductive Knob where
  | drive
  | tone
  | level
  deriving DecidableEq, Repr

/-- Filter kind of `COEF` (rule R60): 0 high-pass, 1 low-pass. -/
inductive FilterKind where
  | highPass
  | lowPass
  deriving DecidableEq, Repr

/-- Filter index `f` of a circuit (rule R60): 0 IHP, 1 TLP, 2 OHP. -/
inductive FilterIx where
  | ihp
  | tlp
  | ohp
  deriving DecidableEq, Repr

/-- The commands of rule R59. `c` is the channel field `ch`, which may hold any value 0..255 (rule R60). -/
inductive Instr where
  | cfg (fs blksz nch : Word)
  | blk (len drive tone level : Word)
  | wrs (c : Byte) (idx v : Word)
  | rds (c : Byte) (idx : Word)
  | smcfg (k : Knob) (fs win : Word)
  | smtgt (k : Knob) (v : Word)
  | smcur (k : Knob)
  | smnxt (k : Knob)
  | coef (kind : FilterKind) (fs fc : Word)
  | fapp (c : Byte) (f : FilterIx) (x : Word)
  | clip (x : Word)
  | cprep (c : Byte) (fs blksz : Word)
  | updf (c : Byte) (drive tone : Word)
  | psmp (c : Byte) (x drive tone level : Word)
  deriving DecidableEq, Repr

/-- The mnemonics of rule R59, one for each opcode. -/
inductive Op where
  | cfg
  | blk
  | wrs
  | rds
  | smcfg
  | smtgt
  | smcur
  | smnxt
  | coef
  | fapp
  | clip
  | cprep
  | updf
  | psmp
  deriving DecidableEq, Repr

/-- A command word whose opcode is defined, with its other three fields (rule R56). -/
structure Head where
  op : Op
  ch : Byte
  sel : Byte
  rsv : Byte
  deriving DecidableEq, Repr

/-- The mnemonic of a command. -/
def Instr.op : Instr → Op
  | .cfg _ _ _ => .cfg
  | .blk _ _ _ _ => .blk
  | .wrs _ _ _ => .wrs
  | .rds _ _ => .rds
  | .smcfg _ _ _ => .smcfg
  | .smtgt _ _ => .smtgt
  | .smcur _ => .smcur
  | .smnxt _ => .smnxt
  | .coef _ _ _ => .coef
  | .fapp _ _ _ => .fapp
  | .clip _ => .clip
  | .cprep _ _ _ => .cprep
  | .updf _ _ _ => .updf
  | .psmp _ _ _ _ _ => .psmp

/-- The operand words of a command, first operand first (rule R57). -/
def Instr.operands : Instr → List Word
  | .cfg fs blksz nch => [fs, blksz, nch]
  | .blk len drive tone level => [len, drive, tone, level]
  | .wrs _ idx v => [idx, v]
  | .rds _ idx => [idx]
  | .smcfg _ fs win => [fs, win]
  | .smtgt _ v => [v]
  | .smcur _ => []
  | .smnxt _ => []
  | .coef _ fs fc => [fs, fc]
  | .fapp _ _ x => [x]
  | .clip x => [x]
  | .cprep _ fs blksz => [fs, blksz]
  | .updf _ drive tone => [drive, tone]
  | .psmp _ x drive tone level => [x, drive, tone, level]

end Sys2Proof
end

