-- ==== Sys2Proof/WellFormed.lean ====
section
/-! DEFINITION. Which command words are legal once their opcode is defined: the format table of spec/30_encoding.md
rule R58 and clauses (b) to (e) of rule R61. Clause (a), an undefined opcode, is the decoder's. -/

namespace Sys2Proof

/-- The four formats of rule R58. -/
inductive Format where
  | z
  | s
  | c
  | cs
  deriving DecidableEq, Repr

/-- The format column of rule R59. -/
def Op.format : Op → Format
  | .cfg | .blk | .clip => .z
  | .smcfg | .smtgt | .smcur | .smnxt | .coef => .s
  | .wrs | .rds | .cprep | .updf | .psmp => .c
  | .fapp => .cs

/-- Whether the format gives `ch` a value; otherwise `ch` must be 0 (rule R58). -/
def Format.hasCh : Format → Bool
  | .z | .s => false
  | .c | .cs => true

/-- Whether the format gives `sel` a value; otherwise `sel` must be 0 (rule R58). -/
def Format.hasSel : Format → Bool
  | .z | .c => false
  | .s | .cs => true

/-- How many selector values are legal, counted from 0 (rule R60): 2 for `COEF`, 3 for the others that have one. -/
def Op.selCount : Op → Nat
  | .coef => 2
  | _ => 3

/-- Clause (b) of rule R61 does not hold. -/
def Head.rsvOk (h : Head) : Bool := h.rsv == 0

/-- Clause (c) of rule R61 does not hold. -/
def Head.chOk (h : Head) : Bool := h.op.format.hasCh || h.ch == 0

/-- Clause (d) of rule R61 does not hold. -/
def Head.selZeroOk (h : Head) : Bool := h.op.format.hasSel || h.sel == 0

/-- Clause (e) of rule R61 does not hold. -/
def Head.selRangeOk (h : Head) : Bool := !h.op.format.hasSel || decide (h.sel.toNat < h.op.selCount)

/-- A command word with a defined opcode is legal (rule R61). -/
def Head.wellFormed (h : Head) : Bool := h.rsvOk && h.chOk && h.selZeroOk && h.selRangeOk

/-- The selector value of a smoother index (rule R60). -/
def Knob.sel : Knob → Byte
  | .drive => 0
  | .tone => 1
  | .level => 2

/-- The selector value of a filter kind (rule R60). -/
def FilterKind.sel : FilterKind → Byte
  | .highPass => 0
  | .lowPass => 1

/-- The selector value of a filter index (rule R60). -/
def FilterIx.sel : FilterIx → Byte
  | .ihp => 0
  | .tlp => 1
  | .ohp => 2

/-- The fields of a command's command word (rules R56 to R60). -/
def Instr.head : Instr → Head
  | .cfg _ _ _ => ⟨.cfg, 0, 0, 0⟩
  | .blk _ _ _ _ => ⟨.blk, 0, 0, 0⟩
  | .wrs c _ _ => ⟨.wrs, c, 0, 0⟩
  | .rds c _ => ⟨.rds, c, 0, 0⟩
  | .smcfg k _ _ => ⟨.smcfg, 0, k.sel, 0⟩
  | .smtgt k _ => ⟨.smtgt, 0, k.sel, 0⟩
  | .smcur k => ⟨.smcur, 0, k.sel, 0⟩
  | .smnxt k => ⟨.smnxt, 0, k.sel, 0⟩
  | .coef kind _ _ => ⟨.coef, 0, kind.sel, 0⟩
  | .fapp c f _ => ⟨.fapp, c, f.sel, 0⟩
  | .clip _ => ⟨.clip, 0, 0, 0⟩
  | .cprep c _ _ => ⟨.cprep, c, 0, 0⟩
  | .updf c _ _ => ⟨.updf, c, 0, 0⟩
  | .psmp c _ _ _ _ => ⟨.psmp, c, 0, 0⟩

/-- A command is well-formed when its command word is legal. The selectors are names, so every command is; the check
itself refuses ill-formed heads (clauses (b) to (e)). -/
def Instr.wellFormed (i : Instr) : Bool := i.head.wellFormed

end Sys2Proof
end

