-- ==== Sys2Proof/Decode.lean ====
section
/-! DEFINITION. The decoder and the encoder (spec/30_encoding.md rules R55 to R63): from words to a command, an illegal
command word by name, or not yet a whole command; and back. After them the pseudo-commands of rule R65. -/

namespace Sys2Proof

/-- `w[31:24]` (rule R56). -/
def fieldOpc (w : Word) : Byte := w.extractLsb' 24 8

/-- `w[23:16]` (rule R56). -/
def fieldCh (w : Word) : Byte := w.extractLsb' 16 8

/-- `w[15:8]` (rule R56). -/
def fieldSel (w : Word) : Byte := w.extractLsb' 8 8

/-- `w[7:0]` (rule R56). -/
def fieldRsv (w : Word) : Byte := w.extractLsb' 0 8

/-- The opcode column of rule R59. -/
def Op.code : Op → Byte
  | .cfg => 0x01
  | .blk => 0x02
  | .wrs => 0x03
  | .rds => 0x04
  | .smcfg => 0x10
  | .smtgt => 0x11
  | .smcur => 0x12
  | .smnxt => 0x13
  | .coef => 0x20
  | .fapp => 0x21
  | .clip => 0x30
  | .cprep => 0x40
  | .updf => 0x41
  | .psmp => 0x42

/-- The column `k` of rule R59: how many operand words follow the command word. -/
def Op.operandCount : Op → Nat
  | .cfg => 3
  | .blk => 4
  | .wrs => 2
  | .rds => 1
  | .smcfg => 2
  | .smtgt => 1
  | .smcur => 0
  | .smnxt => 0
  | .coef => 2
  | .fapp => 1
  | .clip => 1
  | .cprep => 2
  | .updf => 2
  | .psmp => 4

/-- The fourteen opcodes of rule R59. -/
def allOps : List Op :=
  [.cfg, .blk, .wrs, .rds, .smcfg, .smtgt, .smcur, .smnxt, .coef, .fapp, .clip, .cprep, .updf, .psmp]

/-- The mnemonic of an opcode byte, if it is one of the fourteen. -/
def opOfCode (b : Byte) : Option Op := allOps.find? fun o => o.code == b

/-- The smoother index of a selector value (rule R60). -/
def knobOfSel (b : Byte) : Option Knob := [Knob.drive, Knob.tone, Knob.level].find? fun k => k.sel == b

/-- The filter kind of a selector value (rule R60). -/
def kindOfSel (b : Byte) : Option FilterKind := [FilterKind.highPass, FilterKind.lowPass].find? fun k => k.sel == b

/-- The filter index of a selector value (rule R60). -/
def filterOfSel (b : Byte) : Option FilterIx := [FilterIx.ihp, FilterIx.tlp, FilterIx.ohp].find? fun f => f.sel == b

/-- Why a command word is illegal: the clauses (a) to (e) of rule R61. -/
inductive Illegal where
  /-- (a) The opcode is not one of the fourteen. -/
  | opcode
  /-- (b) `rsv` is not 0. -/
  | rsv
  /-- (c) The format says `ch` must be 0 and it is not. -/
  | ch
  /-- (d) The format says `sel` must be 0 and it is not. -/
  | sel
  /-- (e) `sel` is outside the legal values. -/
  | selRange
  deriving DecidableEq, Repr

/-- The command word alone (rule R63): the first clause of rule R61 that holds, or the four fields. -/
def decodeHead (w : Word) : Except Illegal Head :=
  match opOfCode (fieldOpc w) with
  | none => .error .opcode
  | some op =>
    let h : Head := ⟨op, fieldCh w, fieldSel w, fieldRsv w⟩
    if !h.rsvOk then .error .rsv
    else if !h.chOk then .error .ch
    else if !h.selZeroOk then .error .sel
    else if !h.selRangeOk then .error .selRange
    else .ok h

/-- A legal command word and its operand words, as a command and the words after it. It answers `none` when words are
missing or, which `decodeHead` excludes, when the selector names nothing. -/
def assemble (h : Head) (ws : List Word) : Option (Instr × List Word) :=
  match h.op, ws with
  | .cfg, fs :: blksz :: nch :: rest => some (.cfg fs blksz nch, rest)
  | .blk, len :: drive :: tone :: level :: rest => some (.blk len drive tone level, rest)
  | .wrs, idx :: v :: rest => some (.wrs h.ch idx v, rest)
  | .rds, idx :: rest => some (.rds h.ch idx, rest)
  | .smcfg, fs :: win :: rest => (knobOfSel h.sel).map fun k => (.smcfg k fs win, rest)
  | .smtgt, v :: rest => (knobOfSel h.sel).map fun k => (.smtgt k v, rest)
  | .smcur, rest => (knobOfSel h.sel).map fun k => (.smcur k, rest)
  | .smnxt, rest => (knobOfSel h.sel).map fun k => (.smnxt k, rest)
  | .coef, fs :: fc :: rest => (kindOfSel h.sel).map fun kind => (.coef kind fs fc, rest)
  | .fapp, x :: rest => (filterOfSel h.sel).map fun f => (.fapp h.ch f x, rest)
  | .clip, x :: rest => some (.clip x, rest)
  | .cprep, fs :: blksz :: rest => some (.cprep h.ch fs blksz, rest)
  | .updf, drive :: tone :: rest => some (.updf h.ch drive tone, rest)
  | .psmp, x :: drive :: tone :: level :: rest => some (.psmp h.ch x drive tone level, rest)
  | _, _ => none

/-- What a list of received words is, oldest first (rules R55, R63). -/
inductive Decoded where
  /-- The command word `w` is illegal; no operand word is awaited. -/
  | illegal (w : Word) (why : Illegal)
  /-- Words are still to come. -/
  | incomplete
  /-- A whole command, and the words after it. -/
  | command (i : Instr) (rest : List Word)
  deriving DecidableEq, Repr

/-- The decoder, total on any words (rule R63). -/
def decodeWords : List Word → Decoded
  | [] => .incomplete
  | w :: ws =>
    match decodeHead w with
    | .error why => .illegal w why
    | .ok h =>
      match assemble h ws with
      | some (i, rest) => .command i rest
      | none => .incomplete

/-- `opc ++ ch ++ sel ++ rsv` (rule R59). -/
def headWord (h : Head) : Word := h.op.code ++ h.ch ++ h.sel ++ h.rsv

/-- The words of a command (rules R57, R59): its command word, then its operand words. -/
def encode (i : Instr) : List Word := headWord i.head :: i.operands

/-- The five words that the number `w` of `nbits` bits lays out, bit 0 the least significant bit of the first word; the
bits above `nbits` are 0. No command is longer than five words (rule R55). -/
def tableWords (nbits w : Nat) : List Word :=
  [0, 1, 2, 3, 4].map fun j => BitVec.ofNat 32 ((w % 2 ^ nbits) / 2 ^ (32 * j))

/-- The words of `tableWords` that the core takes for the first command: an illegal command word stands alone. -/
def tableCommand (nbits w : Nat) : List Word :=
  match tableWords nbits w with
  | [] => []
  | w0 :: ws =>
    match decodeHead w0 with
    | .error _ => [w0]
    | .ok h => w0 :: ws.take h.op.operandCount

/-- The command the decoder reads from a number that holds its words, the first word in the low 32 bits. -/
def decodeTableWord (nbits w : Nat) : Option Instr :=
  match decodeWords (tableCommand nbits w) with
  | .command i [] => some i
  | _ => none

/-- `FILL c, n, v` (rule R65): `WRS c, 0, v` to `WRS c, n-1, v`. -/
def fillCommands (c : Byte) (n : Nat) (v : Word) : List Instr :=
  (List.range n).map fun i => .wrs c (BitVec.ofNat 32 i) v

/-- `DUMP c, n` (rule R65): `RDS c, 0` to `RDS c, n-1`. -/
def dumpCommands (c : Byte) (n : Nat) : List Instr :=
  (List.range n).map fun i => .rds c (BitVec.ofNat 32 i)

end Sys2Proof
end

