-- ==== Sys2Proof/Config.lean ====
section
/-! DEFINITION. What one hardware instance fixes: the numerics record `NUM` (spec/00_scope.md rules R12, R14), the
parameters of rule R7, and the free values, which are opaque constants with no body: nothing can be proved of the
value of one, so a statement holds whatever it is. -/

namespace Sys2Proof

/-- The record `NUM` of rule R12 over a set `F`, with the constants of rule R14. The machine is written through it only,
in the spec's order of evaluation: every unit function for any set `F`, every command, the port and the step for any
`NUM` over the 32-bit patterns. -/
structure Num (F : Type) where
  fadd : F → F → F
  fsub : F → F → F
  fmul : F → F → F
  fdiv : F → F → F
  fneg : F → F
  /-- Quiet `<`: false when an operand is a NaN. -/
  flt : F → F → Bool
  /-- Quiet `<=`. -/
  fle : F → F → Bool
  /-- Quiet `=`; `feq(+0, -0)` is true. -/
  feq : F → F → Bool
  isfinite : F → Bool
  /-- The F value nearest an unsigned integer. -/
  u2f : Nat → F
  /-- For finite `a >= 0`, the greatest natural number `<= a`. -/
  floorN : F → Nat
  /-- A configuration function, rule R13. -/
  ftanh : F → F
  /-- A configuration function, rule R13. -/
  ftan : F → F
  /-- The F value nearest 0.8. -/
  c0_8 : F
  /-- The F value nearest 1.2. -/
  c1_2 : F
  c3 : F
  c1 : F
  c50 : F
  c500 : F
  c4500 : F
  c20 : F
  c35 : F
  chalf : F
  cpi : F
  /-- "silence", +0. -/
  zero : F

/-- A function on the 2^32 patterns as plain data: an entry `(start, v)` says that the value is `v` from the pattern
`start` on, until a later entry of the list says otherwise. Every such function has a list (`exists_pieces`). -/
abbrev Pieces := List (Nat × Word)

/-- A non-decreasing function on the magnitude patterns as plain data: an entry `(start, d)` says that the value rises by
`d` at the magnitude `start`. Every such function has a list (`exists_rises`). -/
abbrev Rises := List (Nat × Nat)

/-- A function with the named properties of `ftanh` (rule R13) as plain data, read by `tanhOf`: every one has its data
(`Obligations.NamedProperties`), and whatever the data is, the function has the properties (log 5). -/
structure TanhFn where
  /-- The magnitude of the value, for positive finite operands. -/
  pos : Rises
  /-- The magnitude of the value, for negative finite operands. -/
  neg : Rises
  /-- What the properties leave open: the NaN that a NaN gives, the sign of a zero that a nonzero operand gives. -/
  loose : Pieces
  deriving DecidableEq, Repr, Inhabited

/-- The parameters of rule R7, fixed for the life of one instance. They are carried in `State.par` because `exec` and
`step` have no other argument (log 2). Of `NUM` they hold the two configuration functions of rule R13, which the model
takes as fields of `NUM`; the rest of `NUM32` is decided. -/
structure Params where
  /-- `NCH_MAX`. -/
  nchMax : Nat
  /-- `BLK_MAX`. -/
  blkMax : Nat
  /-- `WINDOW_S`, the pattern of an F value, seconds. -/
  windowS : Word
  /-- `PDEF[0]`, drive. -/
  pdefDrive : Word
  /-- `PDEF[1]`, tone. -/
  pdefTone : Word
  /-- `PDEF[2]`, level. -/
  pdefLevel : Word
  /-- `ftanh` of this instance; `none` is the free one, `Config.tanhFn` (log 5). -/
  tanhFn : Option TanhFn
  /-- `ftan` of this instance, read by `tanOf`; `none` is the free one, `Config.tanFn` (log 6). -/
  tanFn : Option Pieces
  deriving DecidableEq, Repr

/-- The working values of rule R7's table. DESIGN CHOICE of the spec (D7, D8, D9) for its vectors; the model takes
them for `State.reset` only, with the two configuration functions free (log 2). -/
def Params.working : Params :=
  { nchMax := 8, blkMax := 8192, windowS := 0x3D4CCCCD#32,
    pdefDrive := 0x3F000000#32, pdefTone := 0x3F000000#32, pdefLevel := 0x3F000000#32,
    tanhFn := none, tanFn := none }

/-- The four operations of `NUM32` that can produce a NaN out of operands (rule R37 (d)). -/
inductive ArithOp where
  | add
  | sub
  | mul
  | div
  deriving DecidableEq, Repr

namespace Config

/-- Free value (log 4): where an operation produces a NaN, this word chooses which (rule R37 (d), U7). -/
opaque nanWord : ArithOp → Word → Word → Word

/-- Free value (log 5): the configuration function `ftanh` of an instance of which it is not given. -/
opaque tanhFn : TanhFn

/-- Free value (log 6): the configuration function `ftan` of an instance of which it is not given. -/
opaque tanFn : Pieces

/-- Free value (log 8): the power-up draw of cell `BUF[c][i]` (rule R54, U2), one for each channel and index. -/
opaque powerUpWord : Nat → Nat → Word

/-- Free value (log 9): for the `n`-th `RESET` that cuts a command short and a cell key, whether the cell keeps the
word it held before that command (rule R142, U3). -/
opaque cutKeepsOld : Nat → Nat → Bool

end Config

end Sys2Proof
end

