-- ==== Sys2Proof/Machine/State.lean ====
section
/-! DEFINITION. The state of the machine as plain data (spec/10_state.md rules R20 to R32), the reasons a step can
stop, and the state after reset (rule R34). The register groups are generic in the set `F` of the numerics record, so
that the unit functions can be read over `NUM_REAL` too (spec/00_scope.md rule R15); State holds patterns. -/

namespace Sys2Proof.Machine

/-- One smoother's registers `SM[k]` (rule R22). -/
structure Smoother (F : Type) where
  /-- The present smoothed value. -/
  cur : F
  /-- The goal of the ramp. -/
  tgt : F
  /-- The per-sample increment of the ramp in flight. -/
  step : F
  /-- Samples left until the ramp lands; 0 means no ramp in flight. -/
  cnt : Word
  /-- The length of a full ramp in samples. -/
  nsteps : Word
  /-- The sample rate last configured. -/
  fs : F
  /-- The window last configured, seconds. -/
  win : F
  deriving DecidableEq, Repr

/-- A coefficient set `(b0, b1, a1)` (rule R24). -/
structure Coefs (F : Type) where
  b0 : F
  b1 : F
  a1 : F
  deriving DecidableEq, Repr

/-- One filter `CIR[c].flt[f]`: its history (rule R23) and its coefficients (rule R24). -/
structure FilterRegs (F : Type) where
  /-- The previous input sample. -/
  x1 : F
  /-- The previous output sample. -/
  y1 : F
  coefs : Coefs F
  deriving DecidableEq, Repr

/-- One circuit `CIR[c]` (rules R23 to R25). -/
structure Circuit (F : Type) where
  /-- 0 Unprepared, 1 Ready. -/
  rdy : Bool
  /-- The sample rate it was prepared with. -/
  fs : F
  ihp : FilterRegs F
  tlp : FilterRegs F
  ohp : FilterRegs F
  deriving DecidableEq, Repr

/-- The three smoothers `SM[0..2]`, shared by all channels (rule R22). -/
structure Smoothers where
  drive : Smoother Word
  tone : Smoother Word
  level : Smoother Word
  deriving DecidableEq, Repr

/-- The result registers `RES[0..2]` (rule R21). -/
structure Res where
  r0 : Word
  r1 : Word
  r2 : Word
  deriving DecidableEq, Repr

/-- The fault status register (rule R27), field by field. -/
structure Fsr where
  /-- 0 no fault, 1 InvalidConfiguration, 2 PreconditionViolation; 3 never occurs. -/
  cls : BitVec 2
  cause : Byte
  op : Byte
  ch : Byte
  idx : Word
  deriving DecidableEq, Repr

/-- The cause codes of spec/60_exceptions.md rule R121. -/
inductive Cause where
  | icFs
  | icWindow
  | icCutoff
  | icNyquist
  | icBlocksize
  | icChannels
  | icSteps
  | icDegenerate
  | pvUnprepared
  | pvLength
  | pvChannel
  | pvNonfinite
  | pvRange
  | pvIllegal
  deriving DecidableEq, Repr

/-- The phases of the block sequencer (rule R31). -/
inductive Phase where
  | idle
  | targets
  | latch
  | refresh
  | frames
  deriving DecidableEq, Repr

/-- The sequencer position `SEQ` (rule R31). -/
structure Seq where
  phase : Phase
  n : Word
  c : Word
  deriving DecidableEq, Repr

/-- The sample buffer `BUF` (rule R29) as the list of the cells written since power-up, each with its key, keys
strictly rising (`Memory.wf`). A cell not listed was never written: it reads as its power-up draw (log 8). -/
abbrev Memory := List (Nat × Word)

/-- What the host does at the core's pins, in the order it does it (spec/70_reset_and_hazards.md rule R155). The
MODEL's own type: the pending events stand for the host (log 1). -/
inductive HostEvent where
  /-- A word is presented at the command port and accepted when the core is not busy (rule R55). -/
  | word (w : Word)
  /-- `RESET` is asserted and released between commands, or while a command is partly received (rule R142). -/
  | reset
  /-- A word is accepted and `RESET` is asserted before `busy` falls: the command the word completes, if it completes
  one, is abandoned (rule R142, U3). -/
  | wordCut (w : Word)
  deriving DecidableEq, Repr

/-- The reasons the model itself stops. No TSC fault is one of them: a TSC fault is a next state with `FSR` written. -/
inductive Fault where
  /-- `BLK` would touch a cell of `BUF` or a circuit that does not exist. Raised by `execBlk` only, in states no run
  reaches (spec/20_memory.md rule R40: "a call outside the bounds cannot occur"). Safe (log 13). -/
  | noSuchCell
  deriving DecidableEq, Repr

/-- The reasons the model gives an instruction no meaning. -/
inductive Refusal where
  /-- An arm of `exec` that has no meaning yet; none is left in this model. Safe. -/
  | notModelled (mnemonic : String)
  /-- `State.par` breaks a constraint of spec/00_scope.md rule R7, so the state is of no instance of the spec
  (spec/93_implementation_defined.md U5: refuse). Raised by `step` only. Safe (log 14). -/
  | notAnInstance
  deriving DecidableEq, Repr

/-- The machine's state (rule R20), and after it the model's own fields. -/
structure State where
  /-- `RES[0..2]`. -/
  res : Res
  /-- `SM[0..2]`. -/
  sm : Smoothers
  /-- `CIR[0..NCH_MAX-1]`, in channel order. -/
  cir : List (Circuit Word)
  /-- `PST.cfg` (rule R26). -/
  pstCfg : Bool
  /-- `NCH` (rule R26). -/
  nch : Word
  /-- `BLKSZ` (rule R26). -/
  blksz : Word
  /-- `FSR`. -/
  fsr : Fsr
  /-- `BUF`. -/
  buf : Memory
  /-- `CMDQ`, the words of the command now being received, oldest first (rule R30). -/
  cmdq : List Word
  /-- `SEQ`. -/
  seq : Seq
  /-- The frame latch `FD` (rule R32). -/
  fd : Word
  /-- The frame latch `FT` (rule R32). -/
  ft : Word
  /-- The frame latch `FL` (rule R32). -/
  fl : Word
  /-- The block latch `DF` (rule R32). -/
  df : Word
  /-- The block latch `TF` (rule R32). -/
  tf : Word
  /-- The MODEL's own: the instance's parameters (rule R7), which no step writes (log 2). -/
  par : Params
  /-- The MODEL's own: the host's pending events, oldest first (log 1). -/
  port : List HostEvent
  /-- The MODEL's own: numbers the free choices of `RESET` in mid-command (log 9). -/
  draws : Nat
  deriving DecidableEq, Repr

/-- `SM[k]` at reset (rule R34), with `PDEF[k]` given. -/
def smootherAtReset (pdef : Word) : Smoother Word :=
  { cur := pdef, tgt := pdef, step := 0#32, cnt := 0#32, nsteps := 0#32, fs := 0#32, win := 0#32 }

/-- A filter with every register `+0` (rule R34). -/
def filterAtReset : FilterRegs Word := { x1 := 0#32, y1 := 0#32, coefs := { b0 := 0#32, b1 := 0#32, a1 := 0#32 } }

/-- An Unprepared circuit with every register `+0` (rule R34; also what `CFG` leaves outside the collection). -/
def circuitAtReset : Circuit Word :=
  { rdy := false, fs := 0#32, ihp := filterAtReset, tlp := filterAtReset, ohp := filterAtReset }

/-- The state right after power-up of an instance with parameters `p` (rules R34, R141): every register at its reset
value, no cell of `BUF` written, nothing pending. -/
def State.powerUp (p : Params) : State :=
  { res := { r0 := 0#32, r1 := 0#32, r2 := 0#32 }
    sm := { drive := smootherAtReset p.pdefDrive, tone := smootherAtReset p.pdefTone,
            level := smootherAtReset p.pdefLevel }
    cir := List.replicate p.nchMax circuitAtReset
    pstCfg := false, nch := 0#32, blksz := 0#32
    fsr := { cls := 0#2, cause := 0#8, op := 0#8, ch := 0#8, idx := 0#32 }
    buf := [], cmdq := [], seq := { phase := .idle, n := 0#32, c := 0#32 }
    fd := 0#32, ft := 0#32, fl := 0#32, df := 0#32, tf := 0#32
    par := p, port := [], draws := 0 }

/-- The machine right after reset, for the instance with the working parameters (log 2). -/
def State.reset : State := State.powerUp Params.working

end Sys2Proof.Machine
end

