-- ==== Sys2Proof/Machine/Flags.lean ====
section
/-! DEFINITION. The status of the machine. TSC has no flags or condition codes (spec/10_state.md rule R28); its status is
the fault status register, `rdy` and `PST.cfg`. Here are the codes that `FSR` holds (spec/60_exceptions.md rules R120,
R121), the three machine states (rule R129), and what the host observes (spec/10_state.md rule R36). -/

namespace Sys2Proof.Machine

/-- The code column of rule R121. -/
def causeCode : Cause → Byte
  | .icFs => 0x01
  | .icWindow => 0x02
  | .icCutoff => 0x03
  | .icNyquist => 0x04
  | .icBlocksize => 0x05
  | .icChannels => 0x06
  | .icSteps => 0x07
  | .icDegenerate => 0x08
  | .pvUnprepared => 0x10
  | .pvLength => 0x11
  | .pvChannel => 0x12
  | .pvNonfinite => 0x13
  | .pvRange => 0x14
  | .pvIllegal => 0x15

/-- The class column of rule R121: 1 InvalidConfiguration, 2 PreconditionViolation. -/
def causeClass : Cause → BitVec 2
  | .icFs | .icWindow | .icCutoff | .icNyquist | .icBlocksize | .icChannels | .icSteps | .icDegenerate => 1
  | .pvUnprepared | .pvLength | .pvChannel | .pvNonfinite | .pvRange | .pvIllegal => 2

/-- The core is faulted: `FSR.class` is not 0 (rules R123 (0), R125). -/
def isFaulted (s : State) : Bool := s.fsr.cls != 0

/-- The three machine states of rule R129. -/
inductive MachineState where
  | unconfigured
  | configured
  | faulted
  deriving DecidableEq, Repr

/-- The machine state as a function of `FSR.class` and `PST.cfg` (rule R129). -/
def machineState (s : State) : MachineState :=
  if isFaulted s then .faulted else if s.pstCfg then .configured else .unconfigured

/-- The level `busy` (rules R36, R152) as a function of the sequencer: commands are atomic, so between steps it is
down (log 11). -/
def isBusy (s : State) : Bool := s.seq.phase != .idle

/-- What the host can observe at the ports (rule R36); `BUF` only through `RDS`. -/
structure HostView where
  res : Res
  fsr : Fsr
  busy : Bool
  deriving DecidableEq, Repr

/-- The ports of a state (rule R36). -/
def hostView (s : State) : HostView := { res := s.res, fsr := s.fsr, busy := isBusy s }

end Sys2Proof.Machine
end

