-- ==== Sys2Proof/Machine/Float.lean ====
section
/-! DEFINITION. The numerics instance `NUM32` (spec/00_scope.md rules R12 to R14, R37): binary32, correctly rounded to
nearest with ties to even, gradual underflow, no fused operation, no flags.

Every finite binary32 magnitude is a whole number of units of 2^-149. Operations form the exact result as a ratio of
natural numbers in that unit and round it once, by `roundMag`. -/

namespace Sys2Proof.Machine

/-- The sign bit 31 (rule R9). -/
def signBit (a : Word) : Bool := a.getLsbD 31

/-- The pattern below the sign bit: exponent and fraction, as a number. It orders magnitudes. -/
def magBits (a : Word) : Nat := a.toNat % 2 ^ 31

/-- The magnitude pattern of the infinities. -/
def infMag : Nat := 0x7F800000

def isNaN32 (a : Word) : Bool := decide (infMag < magBits a)

def isInf32 (a : Word) : Bool := decide (magBits a = infMag)

/-- Neither an infinity nor a NaN (rule R12). -/
def isFinite32 (a : Word) : Bool := decide (magBits a < infMag)

/-- The magnitude of a finite value with magnitude pattern `m`, in units of 2^-149. -/
def magUnits (m : Nat) : Nat :=
  if m < 2 ^ 23 then m else (2 ^ 23 + m % 2 ^ 23) * 2 ^ (m / 2 ^ 23 - 1)

/-- The magnitude of a finite F value in units of 2^-149. -/
def units (a : Word) : Nat := magUnits (magBits a)

/-- A finite F value in units of 2^-149, with its sign. -/
def signedUnits (a : Word) : Int := if signBit a then -(units a : Int) else units a

/-- The pattern of a sign and a magnitude pattern. -/
def packSign (neg : Bool) (mag : Nat) : Word := BitVec.ofNat 32 (mag + if neg then 2 ^ 31 else 0)

/-- `num / den` rounded to the nearest natural number, ties to even. -/
def roundHalfEven (num den : Nat) : Nat :=
  let q := num / den
  let r := num % den
  if den < 2 * r ∨ (2 * r = den ∧ q % 2 = 1) then q + 1 else q

/-- The exponent of the last place of a magnitude of `num / den` units: 0 in the subnormal range, else so that 24 bits
are kept. -/
def lastPlace (num den : Nat) : Nat := Nat.log2 (num / den) - 23

/-- The magnitude pattern nearest `num / den` units of 2^-149, ties to even; overflow gives the infinity. The kept bits
`m < 2^24 + 1` and the last place `e` make the pattern `e * 2^23 + m`, carry included. -/
def roundMag (num den : Nat) : Nat :=
  let e := lastPlace num den
  min (e * 2 ^ 23 + roundHalfEven num (den * 2 ^ e)) infMag

/-- Some NaN: which one is not specified (rule R37 (d), U7), a free value (log 4). -/
def someNaN (op : ArithOp) (a b : Word) : Word :=
  let w := Config.nanWord op a b
  if isNaN32 w then w else 0x7FC00000#32

/-- The sign bit inverted, exact (rule R12). -/
def fneg32 (a : Word) : Word := a ^^^ 0x80000000#32

/-- The sum of `a` and `b`; `op`, `x`, `y` are the operation and operands a NaN result is drawn for. -/
def addCore (op : ArithOp) (x y a b : Word) : Word :=
  if isNaN32 a || isNaN32 b then someNaN op x y
  else if isInf32 a then
    if isInf32 b && (signBit a != signBit b) then someNaN op x y else a
  else if isInf32 b then b
  else
    let z := signedUnits a + signedUnits b
    if z = 0 then packSign (signBit a && signBit b) 0
    else packSign (decide (z < 0)) (roundMag z.natAbs 1)

/-- `fadd` (rule R12); `fadd(+0, -0) = +0` (rule R37 (f)). -/
def fadd32 (a b : Word) : Word := addCore .add a b a b

/-- `fsub` (rule R12): `a + (-b)`; `fsub(+0, -0) = +0` is `fadd(+0, +0)`. -/
def fsub32 (a b : Word) : Word := addCore .sub a b a (fneg32 b)

/-- `fmul` (rule R12); a zero product has the exclusive-or of the signs (rule R37 (f)). -/
def fmul32 (a b : Word) : Word :=
  let neg := signBit a != signBit b
  if isNaN32 a || isNaN32 b then someNaN .mul a b
  else if isInf32 a then
    if magBits b = 0 then someNaN .mul a b else packSign neg infMag
  else if isInf32 b then
    if magBits a = 0 then someNaN .mul a b else packSign neg infMag
  else packSign neg (roundMag (units a * units b) (2 ^ 149))

/-- `fdiv` (rule R12). -/
def fdiv32 (a b : Word) : Word :=
  let neg := signBit a != signBit b
  if isNaN32 a || isNaN32 b then someNaN .div a b
  else if isInf32 a then
    if isInf32 b then someNaN .div a b else packSign neg infMag
  else if isInf32 b then packSign neg 0
  else if magBits b = 0 then
    if magBits a = 0 then someNaN .div a b else packSign neg infMag
  else packSign neg (roundMag (units a * 2 ^ 149) (units b))

/-- The place of a non-NaN value in the order of rule R12's comparisons: both zeros at 0, infinities at the ends. -/
def orderKey (a : Word) : Int := if signBit a then -(magBits a : Int) else magBits a

/-- `flt` (rule R12): quiet, false when an operand is a NaN. -/
def flt32 (a b : Word) : Bool := !isNaN32 a && !isNaN32 b && decide (orderKey a < orderKey b)

/-- `fle` (rule R12). -/
def fle32 (a b : Word) : Bool := !isNaN32 a && !isNaN32 b && decide (orderKey a ≤ orderKey b)

/-- `feq` (rule R12): `feq(+0, -0)` is true. -/
def feq32 (a b : Word) : Bool := !isNaN32 a && !isNaN32 b && decide (orderKey a = orderKey b)

/-- `u2f` (rule R12): the F value nearest an unsigned integer, ties to even. -/
def u2f32 (n : Nat) : Word := packSign false (roundMag (n * 2 ^ 149) 1)

/-- `floorN` (rule R12), for finite `a >= 0`. Outside that domain, where no rule applies it, it is the floor of the
magnitude pattern read as if finite (log 12). -/
def floorN32 (a : Word) : Nat := units a / 2 ^ 149

/-- Binary32 1.0 as a magnitude pattern. -/
def oneMag : Nat := 0x3F800000

/-- The value of a function given by pieces at the pattern `n`. -/
def valueAt (f : Pieces) (n : Nat) : Word := f.foldl (fun v p => if p.1 ≤ n then p.2 else v) 0#32

/-- The value of a non-decreasing function given by its rises at the magnitude pattern `m`. -/
def risesAt (f : Rises) (m : Nat) : Nat := f.foldl (fun v p => if p.1 ≤ m then v + p.2 else v) 0

/-- The function that `T` is the data of. It has the named properties of rule R13: `TANH_NAN`, `TANH_INF`, `TANH_ZERO`,
`TANH_SIGN`, `TANH_BOUND` by its cases, `TANH_MONO` because magnitudes are sums of rises (log 5). -/
def tanhOf (T : TanhFn) (a : Word) : Word :=
  let w := valueAt T.loose a.toNat
  if isNaN32 a then (if isNaN32 w then w else 0x7FC00000#32)
  else if isInf32 a then packSign (signBit a) oneMag
  else if magBits a = 0 then a
  else
    let m := min (risesAt (if signBit a then T.neg else T.pos) (magBits a)) oneMag
    packSign (if m = 0 then signBit w else signBit a) m

/-- `ftanh` (rule R13) of an instance: the one it is given, or else the free one (log 5). -/
def ftanh32 (p : Params) (a : Word) : Word := tanhOf (p.tanhFn.getD Config.tanhFn) a

/-- The greatest F value below the real number pi/2, as a magnitude pattern: the domain of `TAN_POS` (rule R13). -/
def halfPiMag : Nat := 0x3FC90FDA

/-- The function that the pieces `T` are the data of, with `TAN_POS` (rule R13): on its domain a value that is not
finite and positive is replaced by 1; a function that has the property is kept as it is (log 6). -/
def tanOf (T : Pieces) (a : Word) : Word :=
  let r := valueAt T a.toNat
  if signBit a || magBits a == 0 || decide (halfPiMag < magBits a) then r
  else if isFinite32 r && flt32 0#32 r then r
  else 0x3F800000#32

/-- `ftan` (rule R13) of an instance: the one it is given, or else the free one (log 6). -/
def ftan32 (p : Params) (a : Word) : Word := tanOf (p.tanFn.getD Config.tanFn) a

/-- The decided instance `NUM32` (rule R12) with the constants of rule R14 and the configuration functions of the
instance with parameters `p`. -/
def num32 (p : Params) : Num Word :=
  { fadd := fadd32, fsub := fsub32, fmul := fmul32, fdiv := fdiv32, fneg := fneg32
    flt := flt32, fle := fle32, feq := feq32, isfinite := isFinite32
    u2f := u2f32, floorN := floorN32, ftanh := ftanh32 p, ftan := ftan32 p
    c0_8 := 0x3F4CCCCD#32, c1_2 := 0x3F99999A#32, c3 := 0x40400000#32, c1 := 0x3F800000#32
    c50 := 0x42480000#32, c500 := 0x43FA0000#32, c4500 := 0x458CA000#32, c20 := 0x41A00000#32
    c35 := 0x420C0000#32, chalf := 0x3F000000#32, cpi := 0x40490FDB#32, zero := 0#32 }

end Sys2Proof.Machine
end

