-- ==== Sys2Proof/Machine/Operands.lean ====
section
/-! DEFINITION. How operand words are read (spec/00_scope.md rule R11, spec/30_encoding.md rule R57) and judged: the
checks that the commands' rules list, each a condition with the cause it raises, taken in order. -/

namespace Sys2Proof.Machine

/-- `asF` of rule R11: the F value whose pattern is the word. -/
def asF (w : Word) : Word := w

/-- `bitsF` of rule R11: the pattern of the F value. -/
def bitsF (v : Word) : Word := v

/-- The first check of a list that does not pass, as its cause (spec/60_exceptions.md rule R123). -/
def firstFailure : List (Bool × Cause) → Option Cause
  | [] => none
  | (ok, e) :: rest => if ok then firstFailure rest else some e

/-- A sample rate operand: finite and `> 0`. -/
def rateOk {F : Type} (N : Num F) (fs : F) : Bool := N.isfinite fs && N.flt N.zero fs

/-- A window operand: finite and not `< 0` (spec/40_smoother.md rule R72 check (2)). -/
def windowOk {F : Type} (N : Num F) (win : F) : Bool := N.isfinite win && !N.flt win N.zero

/-- A ramp of `fs * win` samples fits the counter (spec/40_smoother.md rule R72 check (3)). -/
def stepsOk {F : Type} (N : Num F) (fs win : F) : Bool :=
  N.isfinite (N.fmul fs win) && decide (N.floorN (N.fmul fs win) < 2 ^ 32)

/-- A block target is in [0, 1] (spec/44_block.md rule R107 check (4)). -/
def unitRange {F : Type} (N : Num F) (v : F) : Bool := N.fle N.zero v && N.fle v N.c1

/-- The constraints of spec/00_scope.md rule R7's table, for an instance that computes with `N`. The two configuration
functions have their named properties whatever their data is. -/
def paramsOkIn (N : Num Word) (p : Params) : Bool :=
  decide (1 ≤ p.nchMax) && decide (p.nchMax ≤ 256) && decide (1 ≤ p.blkMax) && decide (p.blkMax ≤ 2 ^ 32 - 1)
    && (N.isfinite p.windowS && N.fle N.zero p.windowS)
    && (N.isfinite p.pdefDrive && unitRange N p.pdefDrive)
    && (N.isfinite p.pdefTone && unitRange N p.pdefTone)
    && (N.isfinite p.pdefLevel && unitRange N p.pdefLevel)

/-- The constraints of rule R7's table in `NUM32`. -/
def paramsOk (p : Params) : Bool := paramsOkIn (num32 p) p

end Sys2Proof.Machine
end

