-- ==== Sys2Proof/Machine/Ops.lean ====
section
/-! DEFINITION. The named operations over the state: raising a fault (spec/60_exceptions.md rules R122, R124), the way
back by `RESET` (spec/70_reset_and_hazards.md rules R141, R142), the sample buffer (spec/20_memory.md rules R40, R41),
and the register groups. -/

namespace Sys2Proof.Machine

/-- What a meaning answers. -/
abbrev Result := Host.Outcome State Fault Refusal

/-! ### Faults -/

/-- `raise Class(cause)` (rule R124): `FSR` records the fault as rule R122 says, `CMDQ` is emptied, `SEQ` goes idle, and
nothing else changes. `op` is bits 31:24 of the command word. -/
def raise (cause : Cause) (op ch : Byte) (idx : Word) (s : State) : State :=
  { s with
    fsr := { cls := causeClass cause, cause := causeCode cause, op := op, ch := ch, idx := idx }
    cmdq := []
    seq := { phase := .idle, n := 0#32, c := 0#32 } }

/-- A command of kind `o` faults before any effect: `FSR.ch` is `ch`, `FSR.idx` is 0 (rules R122, R126). -/
def fail (cause : Cause) (o : Op) (ch : Byte) (s : State) : Result := .next (raise cause o.code ch 0#32 s)

/-- A command runs only on a core that is not faulted; on a faulted core nothing happens (rules R123 (0), R125). -/
def unlessFaulted (s : State) (body : Result) : Result := if isFaulted s then .next s else body

/-! ### The sample buffer -/

/-- The key of cell `(c, i)`: indices are below 2^32 (rule R7), so different cells have different keys. -/
def cellKey (c i : Nat) : Nat := c * 2 ^ 32 + i

/-- The word listed for a key. -/
def Memory.find : Memory → Nat → Option Word
  | [], _ => none
  | (a, v) :: rest, k => if a = k then some v else Memory.find rest k

/-- The list with key `k` holding `v`, keys kept in rising order. -/
def Memory.insert : Memory → Nat → Word → Memory
  | [], k, v => [(k, v)]
  | (a, u) :: rest, k, v =>
    if k < a then (k, v) :: (a, u) :: rest
    else if k = a then (k, v) :: rest
    else (a, u) :: Memory.insert rest k v

/-- The canonical form: keys strictly rising. A cell that is not listed holds no word of the list, so no entry can
equal what an unlisted cell has there (log 8). -/
def Memory.wf : Memory → Bool
  | [] => true
  | [_] => true
  | (a, _) :: (b, w) :: rest => decide (a < b) && Memory.wf ((b, w) :: rest)

/-- `MemRead((c, i), 4)` (rule R40): the word of the cell; a cell never written since power-up holds its draw
(rule R54). -/
def memRead (m : Memory) (c i : Nat) : Word := (m.find (cellKey c i)).getD (Config.powerUpWord c i)

/-- `MemWrite((c, i), 4, v)` (rule R41). -/
def memWrite (m : Memory) (c i : Nat) (v : Word) : Memory := m.insert (cellKey c i) v

/-- The buffer after `RESET` cut short a command that turned `old` into `new`: each cell holds its word of before or its
word of after, as the free choice numbered `draw` says (rule R142, U3). -/
def memCut (draw : Nat) (old new : Memory) : Memory :=
  new.filterMap fun kv =>
    if Config.cutKeepsOld draw kv.1 then (old.find kv.1).map fun v => (kv.1, v) else some kv

/-! ### RESET -/

/-- The effect of `RESET` (rule R141): every register to its reset value; `BUF` and the parameters are not touched, nor
are the model's own fields. -/
def applyReset (s : State) : State :=
  { State.powerUp s.par with buf := s.buf, port := s.port, draws := s.draws }

/-- The effect of `RESET` asserted while a command that leads from `old` to `new` runs (rule R142). -/
def applyResetCut (old new : State) : State :=
  { applyReset old with buf := memCut old.draws old.buf new.buf, draws := old.draws + 1 }

/-! ### Register groups -/

/-- `SM[k]`. -/
def getSm (s : State) : Knob → Smoother Word
  | .drive => s.sm.drive
  | .tone => s.sm.tone
  | .level => s.sm.level

/-- `SM[k] <- q`; the other two groups are other storage (spec/40_smoother.md rule R79). -/
def setSm (s : State) (k : Knob) (q : Smoother Word) : State :=
  match k with
  | .drive => { s with sm := { s.sm with drive := q } }
  | .tone => { s with sm := { s.sm with tone := q } }
  | .level => { s with sm := { s.sm with level := q } }

/-- `CIR[c]`; there are `NCH_MAX` of them, and a number with no circuit reads as an Unprepared one. -/
def getCircuit (s : State) (c : Nat) : Circuit Word := s.cir.getD c circuitAtReset

/-- `CIR[c] <- q`. -/
def setCircuit (s : State) (c : Nat) (q : Circuit Word) : State := { s with cir := s.cir.set c q }

/-- `CIR[c].flt[f]`. -/
def getFilter {F : Type} (q : Circuit F) : FilterIx → FilterRegs F
  | .ihp => q.ihp
  | .tlp => q.tlp
  | .ohp => q.ohp

/-- `CIR[c].flt[f] <- p`. -/
def setFilter {F : Type} (q : Circuit F) (f : FilterIx) (p : FilterRegs F) : Circuit F :=
  match f with
  | .ihp => { q with ihp := p }
  | .tlp => { q with tlp := p }
  | .ohp => { q with ohp := p }

/-- `RES[0] <- v`; `RES[1]` and `RES[2]` are unchanged (spec/10_state.md rule R21). -/
def setRes0 (s : State) (v : Word) : State := { s with res := { s.res with r0 := v } }

/-- `RES[0] <- b0; RES[1] <- b1; RES[2] <- a1`, for `COEF` (spec/41_filter.md rule R83). -/
def setRes (s : State) (k : Coefs Word) : State :=
  { s with res := { r0 := bitsF k.b0, r1 := bitsF k.b1, r2 := bitsF k.a1 } }

/-- `SEQ <- (phase, n, c)` (spec/00_scope.md rule R10). -/
def setSeq (s : State) (phase : Phase) (n c : Nat) : State :=
  { s with seq := { phase := phase, n := BitVec.ofNat 32 n, c := BitVec.ofNat 32 c } }

end Sys2Proof.Machine
end

