-- ==== Sys2Proof/Machine/Clip.lean ====
section
/-! DEFINITION. The clipping stage (spec/42_clip.md): the unit function `clip` (rule R90) and the command CLIP. -/

namespace Sys2Proof.Machine

/-- `clip(x)` (rule R90): `tanh x` from 0 up, `tanh(0.8 x) * 1.2` below, for a NaN the second branch. -/
def clip {F : Type} (N : Num F) (x : F) : F :=
  if N.fle N.zero x then N.ftanh x else N.fmul (N.ftanh (N.fmul N.c0_8 x)) N.c1_2

/-- `CLIP x` (rule R91) in any `NUM`. -/
def clipIn (N : Num Word) (x : Word) (s : State) : Result :=
  unlessFaulted s <|
    match firstFailure [(N.isfinite (asF x), .pvNonfinite)] with
    | some e => fail e .clip 0#8 s
    | none => .next (setRes0 s (bitsF (clip N (asF x))))

/-- `CLIP x` in `NUM32`. -/
def execClip (x : Word) (s : State) : Result := clipIn (num32 s.par) x s

end Sys2Proof.Machine
end

