-- ==== Sys2Proof/Machine/Filter.lean ====
section
/-! DEFINITION. The filter stage (spec/41_filter.md): the coefficient design `coef` (rule R81), one filter step (rule
R82), and the commands COEF and FAPP. -/

namespace Sys2Proof.Machine

/-- The angle `w = pi * fc / fs` of rule R81. -/
def coefAngle {F : Type} (N : Num F) (fs fc : F) : F := N.fdiv (N.fmul N.cpi fc) fs

/-- The feedback coefficient `a1` of rule R81 from `n`, the tangent of the angle. -/
def coefFeedback {F : Type} (N : Num F) (n : F) : F := N.fdiv (N.fsub n N.c1) (N.fadd n N.c1)

/-- The coefficient set of rule R81 from `n`: `b1 = -b0` for a high-pass, `b1 = b0` for a low-pass. -/
def coefSet {F : Type} (N : Num F) (kind : FilterKind) (n : F) : Coefs F :=
  let d := N.fadd n N.c1
  let a1 := coefFeedback N n
  match kind with
  | .highPass => { b0 := N.fdiv N.c1 d, b1 := N.fneg (N.fdiv N.c1 d), a1 := a1 }
  | .lowPass => { b0 := N.fdiv n d, b1 := N.fdiv n d, a1 := a1 }

/-- `a` is strictly inside (-1, 1): check (5) of rule R81. -/
def insideUnit {F : Type} (N : Num F) (a : F) : Bool := N.flt (N.fneg N.c1) a && N.flt a N.c1

/-- `coef(kind, fs, fc)` (rule R81): the coefficient set, or the cause of the first check that fails, in the order (1)
to (5). It reads and writes no state. -/
def coef {F : Type} (N : Num F) (kind : FilterKind) (fs fc : F) : Except Cause (Coefs F) :=
  let n := N.ftan (coefAngle N fs fc)
  match firstFailure [(rateOk N fs, .icFs), (N.isfinite fc && N.flt N.zero fc, .icCutoff),
      (N.flt fc (N.fmul fs N.chalf), .icNyquist), (N.isfinite n && N.flt N.zero n, .icDegenerate),
      (insideUnit N (coefFeedback N n), .icDegenerate)] with
  | some e => .error e
  | none => .ok (coefSet N kind n)

/-- The output of one filter step (rule R82): `y[n] = b0 x[n] + b1 x[n-1] - a1 y[n-1]`, three rounded products, then
the sum, then the difference. -/
def filtOut {F : Type} (N : Num F) (q : FilterRegs F) (x : F) : F :=
  let t0 := N.fmul q.coefs.b0 x
  let t1 := N.fmul q.coefs.b1 q.x1
  let t2 := N.fmul q.coefs.a1 q.y1
  N.fsub (N.fadd t0 t1) t2

/-- `filt_step` (rule R82): the filter after one sample; the output is its new `y1`. -/
def filtStep {F : Type} (N : Num F) (q : FilterRegs F) (x : F) : FilterRegs F :=
  { q with x1 := x, y1 := filtOut N q x }

/-- `COEF.kind fs, fc` (rule R83) in any `NUM`. -/
def coefIn (N : Num Word) (kind : FilterKind) (fs fc : Word) (s : State) : Result :=
  unlessFaulted s <|
    match coef N kind (asF fs) (asF fc) with
    | .error e => fail e .coef 0#8 s
    | .ok k => .next (setRes s k)

/-- `COEF.kind fs, fc` in `NUM32`. -/
def execCoef (kind : FilterKind) (fs fc : Word) (s : State) : Result := coefIn (num32 s.par) kind fs fc s

/-- `FAPP.f c, x` (rule R84) in any `NUM`: one filter advances, the other two do not. -/
def fappIn (N : Num Word) (c : Byte) (f : FilterIx) (x : Word) (s : State) : Result :=
  unlessFaulted s <|
    let q := getCircuit s c.toNat
    match firstFailure [(decide (c.toNat < s.par.nchMax), .pvChannel), (q.rdy, .pvUnprepared),
        (N.isfinite (asF x), .pvNonfinite)] with
    | some e => fail e .fapp c s
    | none =>
      let p := filtStep N (getFilter q f) (asF x)
      .next (setRes0 (setCircuit s c.toNat (setFilter q f p)) (bitsF p.y1))

/-- `FAPP.f c, x` in `NUM32`. -/
def execFapp (c : Byte) (f : FilterIx) (x : Word) (s : State) : Result := fappIn (num32 s.par) c f x s

end Sys2Proof.Machine
end

