-- ==== Sys2Proof/Machine/Circuit.lean ====
section
/-! DEFINITION. The per-channel circuit (spec/43_circuit.md): the unit functions of rules R96, R97, R99, R101 over any
numerics record, and the commands CPREP, UPDF, PSMP. -/

namespace Sys2Proof.Machine

/-- The three coefficient sets of a circuit. -/
structure CoefBank (F : Type) where
  ihp : Coefs F
  tlp : Coefs F
  ohp : Coefs F
  deriving DecidableEq, Repr

/-- The cutoff of the tone low-pass, `500 + tone * 4500` Hz, not clamped (rule R96). -/
def toneCutoff {F : Type} (N : Num F) (tone : F) : F := N.fadd N.c500 (N.fmul tone N.c4500)

/-- `circuit_coefs(fs, tone)` (rule R96): IHP, then TLP, then OHP; the first that raises ends it. -/
def circuitCoefs {F : Type} (N : Num F) (fs tone : F) : Except Cause (CoefBank F) :=
  match coef N .highPass fs N.c20 with
  | .error e => .error e
  | .ok k0 =>
    match coef N .lowPass fs (toneCutoff N tone) with
    | .error e => .error e
    | .ok k1 =>
      match coef N .highPass fs N.c35 with
      | .error e => .error e
      | .ok k2 => .ok { ihp := k0, tlp := k1, ohp := k2 }

/-- A filter with silent history and coefficients `k` (rule R97). -/
def silentFilter {F : Type} (N : Num F) (k : Coefs F) : FilterRegs F := { x1 := N.zero, y1 := N.zero, coefs := k }

/-- The circuit that the writes of `circuit_prepare` leave (rule R97): Ready, silent, prepared at `fs`. -/
def preparedCircuit {F : Type} (N : Num F) (fs : F) (k : CoefBank F) : Circuit F :=
  { rdy := true, fs := fs, ihp := silentFilter N k.ihp, tlp := silentFilter N k.tlp, ohp := silentFilter N k.ohp }

/-- `circuit_prepare(c, fs, blksz)` (rule R97) with the tone default `pdefTone`: the prepared circuit, or the cause of
the first check that fails. `blksz` is checked and dropped. -/
def circuitPrepare {F : Type} (N : Num F) (pdefTone fs : F) (blksz : Word) : Except Cause (Circuit F) :=
  match firstFailure [(rateOk N fs, .icFs), (blksz != 0#32, .icBlocksize)] with
  | some e => .error e
  | none =>
    match circuitCoefs N fs pdefTone with
    | .error e => .error e
    | .ok k => .ok (preparedCircuit N fs k)

/-- The nine coefficient registers of a circuit written, nothing else. -/
def withCoefs {F : Type} (q : Circuit F) (k : CoefBank F) : Circuit F :=
  { q with ihp := { q.ihp with coefs := k.ihp }, tlp := { q.tlp with coefs := k.tlp },
           ohp := { q.ohp with coefs := k.ohp } }

/-- `circuit_update(c, drive, tone)` (rule R99): the circuit with the coefficients of `tone` at its own sample rate;
`drive` is not read (rule R104). -/
def circuitUpdate {F : Type} (N : Num F) (q : Circuit F) (_drive tone : F) : Except Cause (Circuit F) :=
  match circuitCoefs N q.fs tone with
  | .error e => .error e
  | .ok k => .ok (withCoefs q k)

/-- The drive gain `1 + drive * 50` (rule R101 step 3). -/
def driveGain {F : Type} (N : Num F) (drive : F) : F := N.fadd N.c1 (N.fmul drive N.c50)

/-- The signal `s4` that enters the tone low-pass (rule R101 steps 2 to 4) from the input high-pass's output `s1`. -/
def clippedSignal {F : Type} (N : Num F) (s1 drive : F) : F :=
  clip N (N.fmul (N.fmul s1 N.c3) (driveGain N drive))

/-- `circuit_process(c, x, drive, tone, level)` (rule R101): the circuit after one sample, each filter advanced once, and
the output. `tone` is not read (rule R104). -/
def circuitProcess {F : Type} (N : Num F) (q : Circuit F) (x drive _tone level : F) : Circuit F × F :=
  let p0 := filtStep N q.ihp x
  let p1 := filtStep N q.tlp (clippedSignal N p0.y1 drive)
  let p2 := filtStep N q.ohp p1.y1
  ({ q with ihp := p0, tlp := p1, ohp := p2 }, N.fmul p2.y1 level)

/-- `CPREP c, fs, blksz` (rule R98) in any `NUM`: only an existing circuit, `c < NCH`, is re-prepared. -/
def cprepIn (N : Num Word) (c : Byte) (fs blksz : Word) (s : State) : Result :=
  unlessFaulted s <|
    match firstFailure [(decide (c.toNat < s.nch.toNat), .pvChannel)] with
    | some e => fail e .cprep c s
    | none =>
      match circuitPrepare N s.par.pdefTone (asF fs) blksz with
      | .error e => fail e .cprep c s
      | .ok q => .next (setCircuit s c.toNat q)

/-- `CPREP c, fs, blksz` in `NUM32`. -/
def execCprep (c : Byte) (fs blksz : Word) (s : State) : Result := cprepIn (num32 s.par) c fs blksz s

/-- `UPDF c, drive, tone` (rule R100) in any `NUM`: `drive` must be finite though it is not used. -/
def updfIn (N : Num Word) (c : Byte) (drive tone : Word) (s : State) : Result :=
  unlessFaulted s <|
    let q := getCircuit s c.toNat
    match firstFailure [(decide (c.toNat < s.par.nchMax), .pvChannel), (q.rdy, .pvUnprepared),
        (N.isfinite (asF drive), .pvNonfinite), (N.isfinite (asF tone), .pvNonfinite)] with
    | some e => fail e .updf c s
    | none =>
      match circuitUpdate N q (asF drive) (asF tone) with
      | .error e => fail e .updf c s
      | .ok q' => .next (setCircuit s c.toNat q')

/-- `UPDF c, drive, tone` in `NUM32`. -/
def execUpdf (c : Byte) (drive tone : Word) (s : State) : Result := updfIn (num32 s.par) c drive tone s

/-- `PSMP c, x, drive, tone, level` (rule R102) in any `NUM`: `tone` must be finite though it is not used. -/
def psmpIn (N : Num Word) (c : Byte) (x drive tone level : Word) (s : State) : Result :=
  unlessFaulted s <|
    let q := getCircuit s c.toNat
    match firstFailure [(decide (c.toNat < s.par.nchMax), .pvChannel), (q.rdy, .pvUnprepared),
        (N.isfinite (asF x), .pvNonfinite), (N.isfinite (asF drive), .pvNonfinite),
        (N.isfinite (asF tone), .pvNonfinite), (N.isfinite (asF level), .pvNonfinite)] with
    | some e => fail e .psmp c s
    | none =>
      let (q', y) := circuitProcess N q (asF x) (asF drive) (asF tone) (asF level)
      .next (setRes0 (setCircuit s c.toNat q') (bitsF y))

/-- `PSMP c, x, drive, tone, level` in `NUM32`. -/
def execPsmp (c : Byte) (x drive tone level : Word) (s : State) : Result := psmpIn (num32 s.par) c x drive tone level s

end Sys2Proof.Machine
end

