-- ==== Sys2Proof/Machine/Smoother.lean ====
section
/-! DEFINITION. The parameter smoother (spec/40_smoother.md): the unit functions of rules R71, R72, R73, R75 over any
numerics record, and the commands SMCFG, SMTGT, SMCUR, SMNXT. -/

namespace Sys2Proof.Machine

/-- `smooth_ramp` (rule R71): the ramp (re)starts from the present `cur` toward the present `tgt`. -/
def smoothRamp {F : Type} (N : Num F) (q : Smoother F) : Smoother F :=
  if q.nsteps == 0#32 || N.feq q.cur q.tgt then { q with cnt := 0#32, step := N.zero }
  else { q with cnt := q.nsteps, step := N.fdiv (N.fsub q.tgt q.cur) (N.u2f q.nsteps.toNat) }

/-- `smooth_configure` (rule R72) after its checks: `cur` and `tgt` stay. -/
def smoothConfigure {F : Type} (N : Num F) (fs win : F) (q : Smoother F) : Smoother F :=
  smoothRamp N { q with fs := fs, win := win, nsteps := BitVec.ofNat 32 (N.floorN (N.fmul fs win)) }

/-- `smooth_set_target` (rule R73): a target equal to the present one changes nothing. -/
def smoothSetTarget {F : Type} (N : Num F) (v : F) (q : Smoother F) : Smoother F :=
  if N.feq v q.tgt then q else smoothRamp N { q with tgt := v }

/-- The increment from `cur` to `v` would pass the target (rule R75). -/
def passesTarget {F : Type} (N : Num F) (q : Smoother F) (v : F) : Bool :=
  (N.flt N.zero q.step && N.flt q.tgt v) || (N.flt q.step N.zero && N.flt v q.tgt)

/-- `smooth_next` (rule R75): one sample of the ramp. The value it returns is the new `cur`. -/
def smoothNext {F : Type} (N : Num F) (q : Smoother F) : Smoother F :=
  if q.cnt == 0#32 then { q with cur := q.tgt }
  else if q.cnt - 1#32 == 0#32 then { q with cur := q.tgt, cnt := 0#32, step := N.zero }
  else
    let v := N.fadd q.cur q.step
    if passesTarget N q v then { q with cur := q.tgt, cnt := 0#32, step := N.zero }
    else { q with cur := v, cnt := q.cnt - 1#32 }

/-- `SMCFG.k fs, win` (rule R72) in any `NUM`. -/
def smcfgIn (N : Num Word) (k : Knob) (fs win : Word) (s : State) : Result :=
  unlessFaulted s <|
    match firstFailure [(rateOk N (asF fs), .icFs), (windowOk N (asF win), .icWindow),
        (stepsOk N (asF fs) (asF win), .icSteps)] with
    | some e => fail e .smcfg 0#8 s
    | none => .next (setSm s k (smoothConfigure N (asF fs) (asF win) (getSm s k)))

/-- `SMCFG.k fs, win` in `NUM32`. -/
def execSmcfg (k : Knob) (fs win : Word) (s : State) : Result := smcfgIn (num32 s.par) k fs win s

/-- `SMTGT.k v` (rule R73) in any `NUM`: any finite target, in [0, 1] or not. -/
def smtgtIn (N : Num Word) (k : Knob) (v : Word) (s : State) : Result :=
  unlessFaulted s <|
    match firstFailure [(N.isfinite (asF v), .pvNonfinite)] with
    | some e => fail e .smtgt 0#8 s
    | none => .next (setSm s k (smoothSetTarget N (asF v) (getSm s k)))

/-- `SMTGT.k v` in `NUM32`. -/
def execSmtgt (k : Knob) (v : Word) (s : State) : Result := smtgtIn (num32 s.par) k v s

/-- `SMCUR.k` (rule R74). -/
def execSmcur (k : Knob) (s : State) : Result :=
  unlessFaulted s <| .next (setRes0 s (bitsF (getSm s k).cur))

/-- `SMNXT.k` (rule R75) in any `NUM`. -/
def smnxtIn (N : Num Word) (k : Knob) (s : State) : Result :=
  unlessFaulted s <|
    let q := smoothNext N (getSm s k)
    .next (setRes0 (setSm s k q) (bitsF q.cur))

/-- `SMNXT.k` in `NUM32`. -/
def execSmnxt (k : Knob) (s : State) : Result := smnxtIn (num32 s.par) k s

end Sys2Proof.Machine
end

