-- ==== Sys2Proof/Machine/Block.lean ====
section
/-! DEFINITION. The block processor (spec/44_block.md): the commands CFG, BLK, WRS, RDS. `BLK` is written as its four
steps (rule R107); a step that raises answers `.error` with the state the raise leaves, partial effects included
(spec/60_exceptions.md rule R126). -/

namespace Sys2Proof.Machine

/-- The circuits after `CFG` (rule R106): those below `nch` prepared, the others Unprepared with every register +0. -/
def configuredCircuits (nchMax nch : Nat) (q : Circuit Word) : List (Circuit Word) :=
  (List.range nchMax).map fun c => if c < nch then q else circuitAtReset

/-- The three smoothers configured at `fs`, `win`, their `cur` and `tgt` preserved (rule R106). -/
def configuredSmoothers (N : Num Word) (fs win : Word) (m : Smoothers) : Smoothers :=
  { drive := smoothConfigure N fs win m.drive
    tone := smoothConfigure N fs win m.tone
    level := smoothConfigure N fs win m.level }

/-- The writes of `CFG` after its checks (rule R106). -/
def configure (N : Num Word) (fs blksz nch : Word) (k : CoefBank Word) (s : State) : State :=
  { s with
    nch := nch
    blksz := blksz
    cir := configuredCircuits s.par.nchMax nch.toNat (preparedCircuit N fs k)
    sm := configuredSmoothers N fs s.par.windowS s.sm
    pstCfg := true }

/-- `CFG fs, blksz, nch` (rule R106) in any `NUM`: checks (1) to (3), then (4) the coefficients, then (5) the step count. -/
def cfgIn (N : Num Word) (fs blksz nch : Word) (s : State) : Result :=
  unlessFaulted s <|
    match firstFailure [(rateOk N (asF fs), .icFs),
        (blksz != 0#32 && decide (blksz.toNat ≤ s.par.blkMax), .icBlocksize),
        (nch != 0#32 && decide (nch.toNat ≤ s.par.nchMax), .icChannels)] with
    | some e => fail e .cfg 0#8 s
    | none =>
      match circuitCoefs N (asF fs) s.par.pdefTone with
      | .error e => fail e .cfg 0#8 s
      | .ok k =>
        match firstFailure [(stepsOk N (asF fs) s.par.windowS, .icSteps)] with
        | some e => fail e .cfg 0#8 s
        | none => .next (configure N (asF fs) blksz nch k s)

/-- `CFG fs, blksz, nch` in `NUM32`. -/
def execCfg (fs blksz nch : Word) (s : State) : Result := cfgIn (num32 s.par) fs blksz nch s

/-- `BLK` step 1 (rule R107): the three targets. -/
def blkTargets (N : Num Word) (drive tone level : Word) (s : State) : State :=
  let s := setSeq s .targets 0 0
  { s with
    sm := { drive := smoothSetTarget N drive s.sm.drive
            tone := smoothSetTarget N tone s.sm.tone
            level := smoothSetTarget N level s.sm.level } }

/-- `BLK` step 2 (rule R107): `DF`, `TF` latch the present smoothed drive and tone. -/
def blkLatch (s : State) : State :=
  let s := setSeq s .latch 0 0
  { s with df := s.sm.drive.cur, tf := s.sm.tone.cur }

/-- `BLK` step 3 (rule R107) for `count` circuits from `c` on. -/
def blkRefresh (N : Num Word) : (count c : Nat) → State → Except State State
  | 0, _, s => .ok s
  | count + 1, c, s =>
    let s := setSeq s .refresh 0 c
    match circuitUpdate N (getCircuit s c) s.df s.tf with
    | .error e => .error (raise e Op.blk.code (BitVec.ofNat 8 c) 0#32 s)
    | .ok q => blkRefresh N count (c + 1) (setCircuit s c q)

/-- The start of frame `n` (rule R107 step 4): each smoother advances once, and the latches take the values. -/
def blkFrameStart (N : Num Word) (n : Nat) (s : State) : State :=
  let s := setSeq s .frames n 0
  let m : Smoothers := { drive := smoothNext N s.sm.drive, tone := smoothNext N s.sm.tone,
                         level := smoothNext N s.sm.level }
  { s with sm := m, fd := m.drive.cur, ft := m.tone.cur, fl := m.level.cur }

/-- Channel `c` of frame `n` (rule R107 step 4): the cell is read, judged, processed and written back. -/
def blkSample (N : Num Word) (n c : Nat) (s : State) : Except State State :=
  let s := setSeq s .frames n c
  let x := asF (memRead s.buf c n)
  if N.isfinite x then
    let (q, y) := circuitProcess N (getCircuit s c) x s.fd s.ft s.fl
    let s := setCircuit s c q
    .ok { s with buf := memWrite s.buf c n (bitsF y) }
  else .error (raise .pvNonfinite Op.blk.code (BitVec.ofNat 8 c) (BitVec.ofNat 32 n) s)

/-- `count` channels of frame `n` from `c` on. -/
def blkChannels (N : Num Word) (n : Nat) : (count c : Nat) → State → Except State State
  | 0, _, s => .ok s
  | count + 1, c, s =>
    match blkSample N n c s with
    | .error s' => .error s'
    | .ok s' => blkChannels N n count (c + 1) s'

/-- `count` frames from `n` on, each over `nch` channels: sample-major, channel-minor (rule R107 step 4). -/
def blkFrames (N : Num Word) (nch : Nat) : (count n : Nat) → State → Except State State
  | 0, _, s => .ok s
  | count + 1, n, s =>
    match blkChannels N n nch 0 (blkFrameStart N n s) with
    | .error s' => .error s'
    | .ok s' => blkFrames N nch count (n + 1) s'

/-- The four steps of `BLK` after its checks (rule R107): `.ok` when it completes, `.error` when it faults on the way. -/
def runBlock (N : Num Word) (len drive tone level : Word) (s : State) : Except State State :=
  match blkRefresh N s.nch.toNat 0 (blkLatch (blkTargets N drive tone level s)) with
  | .error s' => .error s'
  | .ok s1 =>
    match blkFrames N s.nch.toNat len.toNat 0 s1 with
    | .error s' => .error s'
    | .ok s2 => .ok (setSeq s2 .idle 0 0)

/-- The circuits and cells that a block of `len` frames names exist (spec/20_memory.md rule R40). -/
def blockInBounds (len : Word) (s : State) : Bool :=
  decide (s.nch.toNat ≤ s.par.nchMax) && decide (s.cir.length = s.par.nchMax) && decide (len.toNat ≤ s.par.blkMax)

/-- `BLK len, drive, tone, level` (rule R107) in any `NUM`. -/
def blkIn (N : Num Word) (len drive tone level : Word) (s : State) : Result :=
  unlessFaulted s <|
    match firstFailure [(s.pstCfg, .pvUnprepared), (decide (len.toNat ≤ s.blksz.toNat), .pvLength),
        (N.isfinite (asF drive), .pvNonfinite), (N.isfinite (asF tone), .pvNonfinite),
        (N.isfinite (asF level), .pvNonfinite), (unitRange N (asF drive), .pvRange),
        (unitRange N (asF tone), .pvRange), (unitRange N (asF level), .pvRange)] with
    | some e => fail e .blk 0#8 s
    | none =>
      if blockInBounds len s then
        match runBlock N len (asF drive) (asF tone) (asF level) s with
        | .error s' => .next s'
        | .ok s' => .next s'
      else .fault .noSuchCell

/-- `BLK len, drive, tone, level` in `NUM32`. -/
def execBlk (len drive tone level : Word) (s : State) : Result := blkIn (num32 s.par) len drive tone level s

/-- `WRS c, idx, v` (rule R108): the word is not inspected, and the bounds are the physical ones. -/
def execWrs (c : Byte) (idx v : Word) (s : State) : Result :=
  unlessFaulted s <|
    match firstFailure [(decide (c.toNat < s.par.nchMax), .pvChannel),
        (decide (idx.toNat < s.par.blkMax), .pvLength)] with
    | some e => fail e .wrs c s
    | none => .next { s with buf := memWrite s.buf c.toNat idx.toNat v }

/-- `RDS c, idx` (rule R109). -/
def execRds (c : Byte) (idx : Word) (s : State) : Result :=
  unlessFaulted s <|
    match firstFailure [(decide (c.toNat < s.par.nchMax), .pvChannel),
        (decide (idx.toNat < s.par.blkMax), .pvLength)] with
    | some e => fail e .rds c s
    | none => .next (setRes0 s (memRead s.buf c.toNat idx.toNat))

end Sys2Proof.Machine
end

