-- ==== Sys2Proof/Machine/Dispatch.lean ====
section
/-! DEFINITION. One arm per command of Instr, each one direct call of its meaning (spec/30_encoding.md rule R59). -/

namespace Sys2Proof.Machine

def exec (i : Instr) (s : State) : Host.Outcome State Fault Refusal :=
  match i with
  | .cfg fs blksz nch => Sys2Proof.Machine.execCfg fs blksz nch s
  | .blk len drive tone level => Sys2Proof.Machine.execBlk len drive tone level s
  | .wrs c idx v => Sys2Proof.Machine.execWrs c idx v s
  | .rds c idx => Sys2Proof.Machine.execRds c idx s
  | .smcfg k fs win => Sys2Proof.Machine.execSmcfg k fs win s
  | .smtgt k v => Sys2Proof.Machine.execSmtgt k v s
  | .smcur k => Sys2Proof.Machine.execSmcur k s
  | .smnxt k => Sys2Proof.Machine.execSmnxt k s
  | .coef kind fs fc => Sys2Proof.Machine.execCoef kind fs fc s
  | .fapp c f x => Sys2Proof.Machine.execFapp c f x s
  | .clip x => Sys2Proof.Machine.execClip x s
  | .cprep c fs blksz => Sys2Proof.Machine.execCprep c fs blksz s
  | .updf c drive tone => Sys2Proof.Machine.execUpdf c drive tone s
  | .psmp c x drive tone level => Sys2Proof.Machine.execPsmp c x drive tone level s

end Sys2Proof.Machine
end

