-- ==== Sys2Proof/Machine/Port.lean ====
section
/-! DEFINITION. The command port (spec/30_encoding.md rule R55) and the host's events (spec/70_reset_and_hazards.md rules
R140 to R142, R155): one event is one step. The port is written for any way to execute a command, so that it serves the
machine over any `NUM`. -/

namespace Sys2Proof.Machine

/-- A word is accepted at the command port (spec/60_exceptions.md rule R123): discarded by a faulted core; an illegal
command word faults at once; the last word of a command executes it, as `run` says; another word waits in `CMDQ`. -/
def acceptWord (run : Instr → State → Result) (w : Word) (s : State) : Result :=
  if isFaulted s then .next s
  else
    match decodeWords (s.cmdq ++ [w]) with
    | .illegal w0 _ => .next (raise .pvIllegal (fieldOpc w0) 0#8 0#32 s)
    | .incomplete => .next { s with cmdq := s.cmdq ++ [w] }
    | .command i _ => run i { s with cmdq := [] }

/-- A word is accepted and `RESET` cuts what it starts (rule R142, U3). -/
def acceptWordCut (run : Instr → State → Result) (w : Word) (s : State) : Result :=
  match acceptWord run w s with
  | .next s' => .next (applyResetCut s s')
  | .fault f => .fault f
  | .refused r => .refused r

/-- One event of the host. -/
def hostStep (run : Instr → State → Result) (e : HostEvent) (s : State) : Result :=
  match e with
  | .word w => acceptWord run w s
  | .reset => .next (applyReset s)
  | .wordCut w => acceptWordCut run w s

/-- The core takes the oldest pending event; with none it is idle with all state held (spec/60_exceptions.md rule
R134). -/
def portStep (run : Instr → State → Result) (s : State) : Result :=
  match s.port with
  | [] => .next s
  | e :: rest => hostStep run e { s with port := rest }

/-- The state in which the words of a command have been presented: all but the last stand in `CMDQ`, the last is the
oldest pending event. -/
def presentWords (ws : List Word) (s : State) : State :=
  match ws.getLast? with
  | none => s
  | some w => { s with cmdq := ws.dropLast, port := .word w :: s.port }

end Sys2Proof.Machine
end

