-- ==== Sys2Proof/Machine/Step.lean ====
section
/-! DEFINITION. One step of the machine. -/

namespace Sys2Proof.Machine

/-- One step: a state whose parameters break rule R7 of spec/00_scope.md is of no instance of the spec and is refused
(spec/93_implementation_defined.md U5); otherwise the core takes one event of the host. -/
def step (s : State) : Host.Outcome State Fault Refusal :=
  if paramsOk s.par then portStep exec s else .refused .notAnInstance

/-- `s` with the instruction whose bits are `w` presented at the command port, its last word next (log 1). -/
def State.withFetchWord (s : State) (nbits w : Nat) : State := presentWords (tableCommand nbits w) s

end Sys2Proof.Machine
end

