-- ==== Sys2Proof/Machine/AnyNum.lean ====
section
/-! DEFINITION. The machine with `NUM` as an argument (spec/00_scope.md rule R7, spec/92_eei_decisions.md D1): the commands
and the step for any numerics record over the 32-bit patterns. `exec` and `step` are these in `NUM32` with the
configuration functions of the instance (`exec_eq_execIn`, `step_eq_stepIn`). -/

namespace Sys2Proof.Machine

/-- A command executed by the machine that computes with `N`. -/
def execIn (N : Num Word) (i : Instr) (s : State) : Result :=
  match i with
  | .cfg fs blksz nch => cfgIn N fs blksz nch s
  | .blk len drive tone level => blkIn N len drive tone level s
  | .wrs c idx v => execWrs c idx v s
  | .rds c idx => execRds c idx s
  | .smcfg k fs win => smcfgIn N k fs win s
  | .smtgt k v => smtgtIn N k v s
  | .smcur k => execSmcur k s
  | .smnxt k => smnxtIn N k s
  | .coef kind fs fc => coefIn N kind fs fc s
  | .fapp c f x => fappIn N c f x s
  | .clip x => clipIn N x s
  | .cprep c fs blksz => cprepIn N c fs blksz s
  | .updf c drive tone => updfIn N c drive tone s
  | .psmp c x drive tone level => psmpIn N c x drive tone level s

/-- One step of the machine that computes with `N`. -/
def stepIn (N : Num Word) (s : State) : Result :=
  if paramsOkIn N s.par then portStep (execIn N) s else .refused .notAnInstance

end Sys2Proof.Machine
end

