-- ==== Sys2Proof/Safety.lean ====
section
/-! DEFINITION. The terms statements use: the invariant of spec/10_state.md rule R35, what a faulted and a normal end of a
run are (spec/70_reset_and_hazards.md rule R154), and the pure functions that a block is compared with
(spec/44_block.md rules R107, R110). -/

namespace Sys2Proof.Machine

/-- A ramp in flight leads toward its target: the increment is not a NaN, and a positive (negative) one means that the
target is not below (above) `cur`. DEDUCED from rules R71, R75, R76. -/
def rampTowardTarget (q : Smoother Word) : Prop :=
  isNaN32 q.step = false ∧
    (flt32 0#32 q.step = true → fle32 q.cur q.tgt = true) ∧ (flt32 q.step 0#32 = true → fle32 q.tgt q.cur = true)

/-- What rule R35 (d), (e), (f) and the ramp law say of one smoother. -/
structure SmootherInv (q : Smoother Word) : Prop where
  /-- (d) -/
  cnt_le : q.cnt.toNat ≤ q.nsteps.toNat
  /-- (e) -/
  landed : q.cnt = 0#32 → q.step = 0#32
  /-- (f), the target. -/
  tgt_finite : isFinite32 q.tgt = true
  /-- (f), the value. -/
  cur_finite : isFinite32 q.cur = true
  /-- Rules R22, R72: the ramp length is that of the rate and window last configured. -/
  length_eq : q.nsteps = BitVec.ofNat 32 (floorN32 (fmul32 q.fs q.win))
  toward : rampTowardTarget q

/-- The coefficient registers of a circuit. -/
def coefsOf (q : Circuit Word) : CoefBank Word := { ihp := q.ihp.coefs, tlp := q.tlp.coefs, ohp := q.ohp.coefs }

/-- Rule R35 (c): a Ready circuit's rate is finite and positive, and its coefficients are values of `coef` there, in the
`NUM32` of the instance with parameters `p`. -/
def PreparedCircuit (p : Params) (q : Circuit Word) : Prop :=
  rateOk (num32 p) q.fs = true ∧ ∃ tone, circuitCoefs (num32 p) q.fs tone = .ok (coefsOf q)

/-- What `FSR` may hold: nothing, or a fault's class and cause (rules R27, R121). -/
def FsrLegal (f : Fsr) : Prop :=
  f = { cls := 0#2, cause := 0#8, op := 0#8, ch := 0#8, idx := 0#32 } ∨
    ∃ e : Cause, f.cls = causeClass e ∧ f.cause = causeCode e

/-- The invariant of rule R35, with what it rests on. -/
structure Inv (s : State) : Prop where
  /-- Rule R7. -/
  params : paramsOk s.par = true
  /-- Rule R20: there are `NCH_MAX` circuits. -/
  circuits : s.cir.length = s.par.nchMax
  /-- Rule R35 (a). -/
  unconfigured : (s.pstCfg = false ↔ s.nch = 0#32) ∧ (s.nch = 0#32 ↔ s.blksz = 0#32)
  /-- Rule R26. -/
  nch_le : s.nch.toNat ≤ s.par.nchMax
  /-- Rule R26. -/
  blksz_le : s.blksz.toNat ≤ s.par.blkMax
  /-- Rule R35 (b). -/
  ready : ∀ c, c < s.par.nchMax → ((getCircuit s c).rdy = true ↔ c < s.nch.toNat)
  /-- Rule R35 (c). -/
  prepared : ∀ c, c < s.nch.toNat → PreparedCircuit s.par (getCircuit s c)
  /-- Rule R35 (d), (e), (f). -/
  smoothers : ∀ k, SmootherInv (getSm s k)
  /-- Rule R35 (g). -/
  sequencer : s.seq = { phase := .idle, n := 0#32, c := 0#32 }
  /-- Rules R30, R35 (g): `CMDQ` never holds a whole command or an illegal word. -/
  assembling : decodeWords s.cmdq = .incomplete
  /-- Rules R27, R121. -/
  status : FsrLegal s.fsr
  /-- The buffer's list is in its canonical form. -/
  canonical : s.buf.wf = true
  /-- Rule R46: every listed cell exists. -/
  inRange : ∀ kv ∈ s.buf, ∃ c i, c < s.par.nchMax ∧ i < s.par.blkMax ∧ kv.1 = cellKey c i

/-- A run ended normally (rule R154): its last state is not faulted. -/
def endsNormally (s : State) : Prop := isFaulted s = false

/-- The control registers that only `CFG` writes (rules R26, R135) are unchanged. -/
def sameControl (s t : State) : Prop := t.pstCfg = s.pstCfg ∧ t.nch = s.nch ∧ t.blksz = s.blksz

/-- The model's own fields, which no command writes, are unchanged. -/
def sameModelFields (s t : State) : Prop := t.par = s.par ∧ t.port = s.port ∧ t.draws = s.draws

/-- The latches of rule R32 are unchanged. -/
def sameLatches (s t : State) : Prop :=
  t.fd = s.fd ∧ t.ft = s.ft ∧ t.fl = s.fl ∧ t.df = s.df ∧ t.tf = s.tf

/-- The word of cell `BUF[c][i]` in a state. -/
def cell (s : State) (c i : Nat) : Word := memRead s.buf c i

/-- One channel's samples processed in order by one circuit: `circuit_process` (rule R101) at each triple of smoothed
values `(drive, tone, level)` with the sample beside it; the circuit at the end and the outputs. -/
def channelRun (N : Num Word) (q : Circuit Word) : List ((Word × Word × Word) × Word) → Circuit Word × List Word
  | [] => (q, [])
  | (v, x) :: rest =>
    let r := circuitProcess N q x v.1 v.2.1 v.2.2
    let r' := channelRun N r.1 rest
    (r'.1, r.2 :: r'.2)

/-- The smoothed values of frame `n` of a block that starts with smoother `q`, its target already set: `n + 1` advances
(rule R110). -/
def smoothedAt (N : Num Word) (q : Smoother Word) (n : Nat) : Word := ((smoothNext N)^[n + 1] q).cur

/-- The first `m` inputs of channel `c` in a block with these targets: the smoothed triple of each frame and the word
the cell holds when the block begins (rules R53, R110). -/
def frameInputs (s : State) (drive tone level : Word) (c m : Nat) : List ((Word × Word × Word) × Word) :=
  let N := num32 s.par
  (List.range m).map fun n =>
    ((smoothedAt N (smoothSetTarget N drive s.sm.drive) n, smoothedAt N (smoothSetTarget N tone s.sm.tone) n,
      smoothedAt N (smoothSetTarget N level s.sm.level) n), cell s c n)

/-- The value is in [0, 1] in `NUM32` (rule R107 check (4)). -/
def inUnit (v : Word) : Bool := fle32 0#32 v && fle32 v 0x3F800000#32

/-- The checks of `BLK` pass on a core that is not faulted (rule R107), and the cells and circuits it names exist. -/
structure BlockAccepted (s : State) (len drive tone level : Word) : Prop where
  running : isFaulted s = false
  configured : s.pstCfg = true
  length : len.toNat ≤ s.blksz.toNat
  finite : isFinite32 drive = true ∧ isFinite32 tone = true ∧ isFinite32 level = true
  range : inUnit drive = true ∧ inUnit tone = true ∧ inUnit level = true
  bounds : blockInBounds len s = true

/-- The checks of rule R81 in its order, each with the cause it raises, written out in the operations of `NUM32`. -/
def coefChecks (p : Params) (fs fc : Word) : List (Bool × Cause) :=
  let w := fdiv32 (fmul32 0x40490FDB#32 fc) fs
  let n := ftan32 p w
  let a1 := fdiv32 (fsub32 n 0x3F800000#32) (fadd32 n 0x3F800000#32)
  [(isFinite32 fs && flt32 0#32 fs, .icFs), (isFinite32 fc && flt32 0#32 fc, .icCutoff),
    (flt32 fc (fmul32 fs 0x3F000000#32), .icNyquist), (isFinite32 n && flt32 0#32 n, .icDegenerate),
    (flt32 0xBF800000#32 a1 && flt32 a1 0x3F800000#32, .icDegenerate)]

/-- The coefficient set rule R81 returns, written out in the operations of `NUM32`. -/
def coefValue (p : Params) (kind : FilterKind) (fs fc : Word) : Coefs Word :=
  let n := ftan32 p (fdiv32 (fmul32 0x40490FDB#32 fc) fs)
  let d := fadd32 n 0x3F800000#32
  let a1 := fdiv32 (fsub32 n 0x3F800000#32) d
  match kind with
  | .highPass => { b0 := fdiv32 0x3F800000#32 d, b1 := fneg32 (fdiv32 0x3F800000#32 d), a1 := a1 }
  | .lowPass => { b0 := fdiv32 n d, b1 := fdiv32 n d, a1 := a1 }

/-- The cutoff `500 + tone * 4500` Hz of rule R96. -/
def toneHz (tone : Word) : Word := fadd32 0x43FA0000#32 (fmul32 tone 0x458CA000#32)

/-- The checks of a circuit's three coefficient sets, IHP before TLP before OHP (rules R96, R123). -/
def circuitChecks (p : Params) (fs tone : Word) : List (Bool × Cause) :=
  coefChecks p fs 0x41A00000#32 ++ coefChecks p fs (toneHz tone) ++ coefChecks p fs 0x420C0000#32

/-- The three coefficient sets of a circuit (rule R96). -/
def bankOf (p : Params) (fs tone : Word) : CoefBank Word :=
  { ihp := coefValue p .highPass fs 0x41A00000#32, tlp := coefValue p .lowPass fs (toneHz tone)
    ohp := coefValue p .highPass fs 0x420C0000#32 }

/-- A circuit's three coefficient sets at `fs` and `tone` exist: no check of rule R81 fails. -/
def CoefsExist (p : Params) (fs tone : Word) : Prop := firstFailure (circuitChecks p fs tone) = none

/-- The angle `pi * 20 / 1e6` as rule R81 computes it, as a magnitude pattern: the least angle of a circuit's cutoffs at
sample rates from 10001 Hz to 1e6 Hz. -/
def circuitAngleLo : Nat := 0x3883C499

/-- The angle `pi * 5000 / 10001` as rule R81 computes it, as a magnitude pattern: the greatest of them. -/
def circuitAngleHi : Nat := 0x3FC90AB6

/-- A value of `ftan` passes checks (4) and (5) of rule R81. -/
def tanAccepted (n : Word) : Bool :=
  let a1 := fdiv32 (fsub32 n 0x3F800000#32) (fadd32 n 0x3F800000#32)
  isFinite32 n && flt32 0#32 n && flt32 0xBF800000#32 a1 && flt32 a1 0x3F800000#32

/-- What the last sentence of rule R81 says of its `ftan`, for a function `T` in its place: at the angles of a circuit's
cutoffs at sample rates from 10001 Hz to 1e6 Hz neither check (4) nor check (5) fires. It is no named property of rule
R13 and is not imposed on `ftan`: a statement that needs it has it as a premise (log 7). -/
def TanSteady (T : Word → Word) : Prop :=
  ∀ a, signBit a = false → circuitAngleLo ≤ magBits a → magBits a ≤ circuitAngleHi → tanAccepted (T a) = true

/-- The value of a finite F value as a real number. -/
noncomputable def realOf (a : Word) : ℝ := (signedUnits a : ℝ) / 2 ^ 149

/-- `TAN_CR` of rule R13 on the domain of `TAN_POS`, for a function `T` in the place of `ftan`: the finite F value nearest
the real tangent. -/
def TanCr (T : Word → Word) : Prop :=
  ∀ a, isFinite32 a = true → 0 < realOf a → realOf a < Real.pi / 2 → isFinite32 (T a) = true ∧
    ∀ w, isFinite32 w = true → |realOf (T a) - Real.tan (realOf a)| ≤ |realOf w - Real.tan (realOf a)|

/-- Circuit `c` after step 3 of a block that starts in `s`: its coefficients are those of the present smoothed tone at
its own rate, its history is kept (rules R99, R107). -/
def refreshed (s : State) (c : Nat) : Circuit Word :=
  withCoefs (getCircuit s c) (bankOf s.par (getCircuit s c).fs s.sm.tone.cur)

/-- Step 3 of `BLK` succeeds for every circuit below `m` (rules R99, R107). -/
def RefreshSucceeds (s : State) (m : Nat) : Prop := ∀ c, c < m → CoefsExist s.par (getCircuit s c).fs s.sm.tone.cur

/-- Every cell the block reads is finite (rule R107 step 4). -/
def SamplesFinite (s : State) (len : Word) : Prop :=
  ∀ c n, c < s.nch.toNat → n < len.toNat → isFinite32 (cell s c n) = true

/-- A circuit with all six history registers +0. -/
def silentHistory (q : Circuit Word) : Prop :=
  q.ihp.x1 = 0#32 ∧ q.ihp.y1 = 0#32 ∧ q.tlp.x1 = 0#32 ∧ q.tlp.y1 = 0#32 ∧ q.ohp.x1 = 0#32 ∧ q.ohp.y1 = 0#32

/-- The smoother that `smooth_configure` leaves (rules R71, R72): a restart of the ramp from the present `cur`. -/
def reconfigured (fs win : Word) (q : Smoother Word) : Smoother Word :=
  let n := floorN32 (fmul32 fs win)
  if n = 0 ∨ feq32 q.cur q.tgt = true then
    { cur := q.cur, tgt := q.tgt, step := 0#32, cnt := 0#32, nsteps := BitVec.ofNat 32 n, fs := fs, win := win }
  else
    { cur := q.cur, tgt := q.tgt, step := fdiv32 (fsub32 q.tgt q.cur) (u2f32 n), cnt := BitVec.ofNat 32 n,
      nsteps := BitVec.ofNat 32 n, fs := fs, win := win }

/-- `PDEF[k]` (rule R7). -/
def pdefOf (p : Params) : Knob → Word
  | .drive => p.pdefDrive
  | .tone => p.pdefTone
  | .level => p.pdefLevel

/-- The registers after `RESET` (rules R34, R141), for an instance with parameters `p`. -/
structure ResetRegisters (p : Params) (t : State) : Prop where
  res : t.res = { r0 := 0#32, r1 := 0#32, r2 := 0#32 }
  sm : ∀ k, getSm t k =
    { cur := pdefOf p k, tgt := pdefOf p k, step := 0#32, cnt := 0#32, nsteps := 0#32, fs := 0#32, win := 0#32 }
  circuits : t.cir.length = p.nchMax
  cir : ∀ c, c < p.nchMax → (getCircuit t c).rdy = false ∧ (getCircuit t c).fs = 0#32 ∧
    silentHistory (getCircuit t c) ∧ ∀ f, (getFilter (getCircuit t c) f).coefs = { b0 := 0#32, b1 := 0#32, a1 := 0#32 }
  pstCfg : t.pstCfg = false
  nch : t.nch = 0#32
  blksz : t.blksz = 0#32
  fsr : t.fsr = { cls := 0#2, cause := 0#8, op := 0#8, ch := 0#8, idx := 0#32 }
  cmdq : t.cmdq = []
  seq : t.seq = { phase := .idle, n := 0#32, c := 0#32 }

/-- The five clauses (a) to (e) of rule R61, over the fields of rule R56 and the rows of rules R58 to R60. -/
def IllegalWord (w : Word) : Prop :=
  let opc := (w.extractLsb' 24 8).toNat
  let ch := (w.extractLsb' 16 8).toNat
  let sel := (w.extractLsb' 8 8).toNat
  let rsv := (w.extractLsb' 0 8).toNat
  opc ∉ [0x01, 0x02, 0x03, 0x04, 0x10, 0x11, 0x12, 0x13, 0x20, 0x21, 0x30, 0x40, 0x41, 0x42] ∨
    rsv ≠ 0 ∨
    (opc ∈ [0x01, 0x02, 0x30, 0x10, 0x11, 0x12, 0x13, 0x20] ∧ ch ≠ 0) ∨
    (opc ∈ [0x01, 0x02, 0x30, 0x03, 0x04, 0x40, 0x41, 0x42] ∧ sel ≠ 0) ∨
    (opc ∈ [0x10, 0x11, 0x12, 0x13, 0x21] ∧ 3 ≤ sel) ∨ (opc = 0x20 ∧ 2 ≤ sel)

/-- The checks each command's rule lists, in its order (rule R123 (2)), for a command executed in `s`. -/
def checksOf (i : Instr) (s : State) : List (Bool × Cause) :=
  let known (c : Byte) : List (Bool × Cause) := [(decide (c.toNat < s.par.nchMax), .pvChannel)]
  let ready (c : Byte) : List (Bool × Cause) := [((getCircuit s c.toNat).rdy, .pvUnprepared)]
  let finite (v : Word) : List (Bool × Cause) := [(isFinite32 v, .pvNonfinite)]
  let unit (v : Word) : List (Bool × Cause) := [(inUnit v, .pvRange)]
  let rate (fs : Word) : List (Bool × Cause) := [(isFinite32 fs && flt32 0#32 fs, .icFs)]
  let steps (fs win : Word) : List (Bool × Cause) :=
    [(isFinite32 (fmul32 fs win) && decide (floorN32 (fmul32 fs win) < 2 ^ 32), .icSteps)]
  match i with
  | .cfg fs blksz nch =>
    rate fs ++ [(decide (1 ≤ blksz.toNat ∧ blksz.toNat ≤ s.par.blkMax), .icBlocksize),
      (decide (1 ≤ nch.toNat ∧ nch.toNat ≤ s.par.nchMax), .icChannels)] ++
      circuitChecks s.par fs s.par.pdefTone ++ steps fs s.par.windowS
  | .blk len drive tone level =>
    [(s.pstCfg, .pvUnprepared), (decide (len.toNat ≤ s.blksz.toNat), .pvLength)] ++
      finite drive ++ finite tone ++ finite level ++ unit drive ++ unit tone ++ unit level
  | .wrs c idx _ => known c ++ [(decide (idx.toNat < s.par.blkMax), .pvLength)]
  | .rds c idx => known c ++ [(decide (idx.toNat < s.par.blkMax), .pvLength)]
  | .smcfg _ fs win => rate fs ++ [(isFinite32 win && !flt32 win 0#32, .icWindow)] ++ steps fs win
  | .smtgt _ v => finite v
  | .smcur _ => []
  | .smnxt _ => []
  | .coef _ fs fc => coefChecks s.par fs fc
  | .fapp c _ x => known c ++ ready c ++ finite x
  | .clip x => finite x
  | .cprep c fs blksz =>
    [(decide (c.toNat < s.nch.toNat), .pvChannel)] ++ rate fs ++ [(decide (1 ≤ blksz.toNat), .icBlocksize)] ++
      circuitChecks s.par fs s.par.pdefTone
  | .updf c drive tone =>
    known c ++ ready c ++ finite drive ++ finite tone ++ circuitChecks s.par (getCircuit s c.toNat).fs tone
  | .psmp c x drive tone level =>
    known c ++ ready c ++ finite x ++ finite drive ++ finite tone ++ finite level

/-- The causes each command may raise by its own rule: the column "raised by" of spec/60_exceptions.md rule R121
(`PV_ILLEGAL` is raised by the port, before a command exists). -/
def causesOf : Op → List Cause
  | .cfg => [.icFs, .icBlocksize, .icChannels, .icCutoff, .icNyquist, .icDegenerate, .icSteps]
  | .blk => [.pvUnprepared, .pvLength, .pvNonfinite, .pvRange, .icCutoff, .icNyquist, .icDegenerate]
  | .wrs => [.pvChannel, .pvLength]
  | .rds => [.pvChannel, .pvLength]
  | .smcfg => [.icFs, .icWindow, .icSteps]
  | .smtgt => [.pvNonfinite]
  | .smcur => []
  | .smnxt => []
  | .coef => [.icFs, .icCutoff, .icNyquist, .icDegenerate]
  | .fapp => [.pvChannel, .pvUnprepared, .pvNonfinite]
  | .clip => [.pvNonfinite]
  | .cprep => [.pvChannel, .icFs, .icBlocksize, .icCutoff, .icNyquist, .icDegenerate]
  | .updf => [.pvChannel, .pvUnprepared, .pvNonfinite, .icCutoff, .icNyquist, .icDegenerate]
  | .psmp => [.pvChannel, .pvUnprepared, .pvNonfinite]

/-- The channel field of a command that has one (rule R58). -/
def channelOf : Instr → Option Nat
  | .wrs c _ _ => some c.toNat
  | .rds c _ => some c.toNat
  | .fapp c _ _ => some c.toNat
  | .cprep c _ _ => some c.toNat
  | .updf c _ _ => some c.toNat
  | .psmp c _ _ _ _ => some c.toNat
  | _ => none

/-- Two states that differ at most in the circuits and the buffer cells of channels other than `c`. -/
structure AgreeOnChannel (c : Nat) (s t : State) : Prop where
  rest : t = { s with cir := t.cir, buf := t.buf }
  circuits : t.cir.length = s.cir.length
  circuit : getCircuit t c = getCircuit s c
  cells : ∀ n, n < 2 ^ 32 → cell t c n = cell s c n

/-- Commands executed one after another, as long as each answers a next state. -/
def execAll : List Instr → State → Result
  | [], s => .next s
  | i :: rest, s =>
    match exec i s with
    | .next t => execAll rest t
    | .fault f => .fault f
    | .refused r => .refused r

/-- The least magnitude, in units of 2^-149, that rounds to an infinity: half a last place above the greatest finite
value (rule R12, round to nearest, ties to even). -/
def overflowUnits : Nat := (2 ^ 25 - 1) * 2 ^ 252

/-- `r` is `num / den` units of 2^-149 correctly rounded to nearest, ties to even, overflow to an infinity (rule R12). -/
structure NearestEven (num : Int) (den : Nat) (r : Word) : Prop where
  /-- Below the overflow threshold the result is finite, no finite value is nearer, -/
  nearest : num.natAbs < overflowUnits * den → isFinite32 r = true ∧
    ∀ w, isFinite32 w = true → (signedUnits r * den - num).natAbs ≤ (signedUnits w * den - num).natAbs
  /-- and of two values equally near it is the one whose last fraction bit is 0. -/
  even : num.natAbs < overflowUnits * den → ∀ w, isFinite32 w = true →
    (signedUnits w * den - num).natAbs = (signedUnits r * den - num).natAbs →
      signedUnits w = signedUnits r ∨ magBits r % 2 = 0
  overflow : overflowUnits * den ≤ num.natAbs → isInf32 r = true
  positive : 0 < num → signBit r = false
  negative : num < 0 → signBit r = true

/-- The named properties of `ftanh` (rule R13) that the order of `clip` rests on, for a function `T` in its place. -/
structure TanhOrder (T : Word → Word) : Prop where
  /-- `TANH_ZERO`. -/
  zero : T 0x00000000#32 = 0x00000000#32 ∧ T 0x80000000#32 = 0x80000000#32
  /-- `TANH_SIGN`. -/
  sign : ∀ a, isFinite32 a = true → magBits a ≠ 0 →
    isFinite32 (T a) = true ∧ (magBits (T a) = 0 ∨ signBit (T a) = signBit a)
  /-- `TANH_MONO`. -/
  mono : ∀ a b, fle32 a b = true → fle32 (T a) (T b) = true

/-- All the named properties of `ftanh` (rule R13) but `TANH_CR`, for a function `T` in its place. -/
structure TanhLaws (T : Word → Word) : Prop extends TanhOrder T where
  /-- `TANH_BOUND`. -/
  bound : ∀ a, isNaN32 a = false → fle32 0xBF800000#32 (T a) = true ∧ fle32 (T a) 0x3F800000#32 = true
  /-- `TANH_INF`. -/
  inf : T 0x7F800000#32 = 0x3F800000#32 ∧ T 0xFF800000#32 = 0xBF800000#32
  /-- `TANH_NAN`. -/
  nan : ∀ a, isNaN32 a = true → isNaN32 (T a) = true

/-- `TAN_POS` (rule R13), for a function `T` in the place of `ftan`. -/
def TanPos (T : Word → Word) : Prop :=
  ∀ a, isFinite32 a = true → 0 < realOf a → realOf a < Real.pi / 2 →
    isFinite32 (T a) = true ∧ flt32 0#32 (T a) = true

end Sys2Proof.Machine
end

