-- ==== Sys2Proof/NumReal.lean ====
section
/-! DEFINITION. The second numerics instance, `NUM_REAL` (spec/00_scope.md rule R15): the real numbers, every function
exact. The machine does not use it; statements about the unit functions under exact arithmetic do. -/

namespace Sys2Proof.Machine

open Classical in
/-- `NUM_REAL` (rule R15): no infinities, no NaNs, every literal its exact decimal value, `CPI` the number pi.
DESIGN CHOICE (log 20), where rules R12 and R15 give the total functions no value: `fdiv a 0` is 0, `ftan` at odd multiples
of pi/2 is 0, `floorN` of a negative number is 0. No rule applies a function there with the checks before it passed. -/
noncomputable def numReal : Num ℝ :=
  { fadd := fun a b => a + b, fsub := fun a b => a - b, fmul := fun a b => a * b, fdiv := fun a b => a / b
    fneg := fun a => -a
    flt := fun a b => decide (a < b), fle := fun a b => decide (a ≤ b), feq := fun a b => decide (a = b)
    isfinite := fun _ => true
    u2f := fun n => n, floorN := fun a => ⌊a⌋₊
    ftanh := Real.tanh, ftan := Real.tan
    c0_8 := 0.8, c1_2 := 1.2, c3 := 3, c1 := 1, c50 := 50, c500 := 500, c4500 := 4500, c20 := 20, c35 := 35
    chalf := 0.5, cpi := Real.pi, zero := 0 }

end Sys2Proof.Machine
end

