-- ==== Sys2Proof/Certificates/Slice0/Obligations.lean ====
section
/-! DEFINITION. The statements for the provers. Each says which rules of spec/ it is about; where a clause rests on a
choice of the model, its docstring names the log entry. Two notes hold for all of them.

Frames. A conclusion `exec i s = .next { s with … }` names every field the command writes: all the others, the whole
buffer among them where `buf` is not named, are those of `s`.

Faults. A fault of the spec is a next state with `FSR` written (spec/60_exceptions.md rule R124), so "completes" is
said as the next state of the command's own effect. -/

section Statements

open Sys2Proof Sys2Proof.Machine

/-! ### The command port -/

/-- Rules R57, R59, R63: the words of a command decode to that command, every operand at every value, whatever words
follow; and no command is longer than five words. -/
def Obligations.DecodeOfEncode : Prop :=
  ∀ (i : Instr) (rest : List Word), i.wellFormed = true ∧ decodeWords (encode i ++ rest) = .command i rest ∧
    (encode i).length ≤ 5

/-- Rules R59, R63: words that decode to a command are that command's words. -/
def Obligations.EncodeOfDecode : Prop :=
  ∀ (ws rest : List Word) (i : Instr), decodeWords ws = .command i rest → ws = encode i ++ rest

/-- Rule R61: a command word is illegal exactly when one of its five clauses holds; a core that receives one at a
command boundary records `PV_ILLEGAL` at once and changes nothing else; the all-zero and the all-ones word are such. -/
def Obligations.IllegalCommandWords : Prop :=
  (∀ w : Word, (∃ why, decodeHead w = .error why) ↔ IllegalWord w) ∧
    (∀ (s : State) (w : Word) (rest : List HostEvent), paramsOk s.par = true → isFaulted s = false →
      s.port = .word w :: rest → s.cmdq = [] → s.seq = { phase := .idle, n := 0#32, c := 0#32 } → IllegalWord w →
        step s = .next { s with
          port := rest
          fsr := { cls := 2#2, cause := 0x15#8, op := w.extractLsb' 24 8, ch := 0#8, idx := 0#32 } }) ∧
    IllegalWord 0x00000000#32 ∧ IllegalWord 0xFFFFFFFF#32

/-- Words written out in spec/30_encoding.md rules R59, R64 and in the rules' examples decode to the commands they stand
for. -/
def Obligations.TableWordsDecode : Prop :=
  decodeWords [0x42010000#32, 0x3E800000#32, 0x3F800000#32, 0x3F000000#32, 0x3F800000#32] =
      .command (.psmp 1#8 0x3E800000#32 0x3F800000#32 0x3F000000#32 0x3F800000#32) [] ∧
    decodeWords [0x13000200#32] = .command (.smnxt .level) [] ∧
    decodeWords [0x21000200#32, 0#32] = .command (.fapp 0#8 .ohp 0#32) [] ∧
    decodeWords [0x20000000#32, 0x472C4400#32, 0x41A00000#32] =
      .command (.coef .highPass 0x472C4400#32 0x41A00000#32) [] ∧
    decodeWords [0x01000000#32, 0x472C4400#32, 0x00000200#32, 0x00000001#32] =
      .command (.cfg 0x472C4400#32 512#32 1#32) []

/-- Rule R55: while operand words are still to come the core keeps the words in `CMDQ` and does nothing else. -/
def Obligations.PartialCommandsWait : Prop :=
  ∀ (s : State) (i : Instr) (n : Nat) (w : Word) (rest : List HostEvent), paramsOk s.par = true →
    isFaulted s = false → n + 1 < (encode i).length → s.cmdq = (encode i).take n → (encode i)[n]? = some w →
      s.port = .word w :: rest → step s = .next { s with port := rest, cmdq := (encode i).take (n + 1) }

/-- Rules R55, R123: when the word that comes completes a command, the step is that command, executed with `CMDQ` empty
and the word taken from the port. -/
def Obligations.StepRunsDecodedCommand : Prop :=
  ∀ (s : State) (w : Word) (rest : List HostEvent) (i : Instr), paramsOk s.par = true → isFaulted s = false →
    s.port = .word w :: rest → decodeWords (s.cmdq ++ [w]) = .command i [] →
      step s = exec i { s with port := rest, cmdq := [] }

/-- Rules R55, R123: presenting the words of a command one by one at a command boundary executes it once, and the next
word after it is the command word of the next command. -/
def Obligations.WholeCommandRuns : Prop :=
  ∀ (s : State) (i : Instr) (rest : List HostEvent), paramsOk s.par = true → isFaulted s = false → s.cmdq = [] →
    s.port = (encode i).map HostEvent.word ++ rest →
      Host.Core.run Sys2Proof.core (encode i).length s = exec i { s with port := rest }

/-- Rule R125: a faulted core takes every word and discards it; no command has an effect on it. -/
def Obligations.FaultedCoreDiscards : Prop :=
  (∀ (s : State) (w : Word) (rest : List HostEvent), paramsOk s.par = true → isFaulted s = true →
    s.port = .word w :: rest → step s = .next { s with port := rest }) ∧
    ∀ (s : State) (i : Instr), isFaulted s = true → exec i s = .next s

/-- Every step takes exactly one of the host's events and leaves the parameters of rule R7 alone. That events are held in
`State.port` is the model's choice (log 1), that the parameters are held in `State.par` is too (log 2). -/
def Obligations.StepConsumesOneEvent : Prop :=
  ∀ s t : State, step s = .next t → t.port = s.port.tail ∧ t.par = s.par

/-- Rule R134: between commands, with no event pending, the core is idle with all state held; and a state whose
parameters break rule R7 is refused, which is the model's choice (log 14). -/
def Obligations.IdleAndForeignStates : Prop :=
  (∀ s : State, paramsOk s.par = true → s.port = [] → step s = .next s) ∧
    ∀ s : State, paramsOk s.par = false → step s = .refused .notAnInstance

/-! ### Reset -/

/-- Rule R141: `RESET` gives every register its reset value and keeps `BUF` and the parameters; power-up gives the
registers the same values. The latches of rule R32 have no reset value in the spec and are not spoken of. -/
def Obligations.ResetSetsEveryRegister : Prop :=
  (∀ (s : State) (rest : List HostEvent), paramsOk s.par = true → s.port = .reset :: rest →
    ∃ t, step s = .next t ∧ ResetRegisters s.par t ∧ t.buf = s.buf ∧ t.par = s.par) ∧
    ∀ p : Params, ResetRegisters p (State.powerUp p)

/-- Rules R45, R142: a `RESET` while a command runs resets the registers whatever the command had done, and every cell of
`BUF` holds the word it held before the command or the word the command gave it. Rule R142 says the latter of `BLK`;
that a cut `WRS` is treated alike is the model's choice (log 9). `t` is what the same step would answer without the
`RESET`. -/
def Obligations.ResetInMidCommand : Prop :=
  ∀ (s t : State) (w : Word) (rest : List HostEvent), paramsOk s.par = true → s.port = .wordCut w :: rest →
    step { s with port := .word w :: rest } = .next t →
      ∃ u, step s = .next u ∧ ResetRegisters s.par u ∧ u.par = s.par ∧
        ∀ c i : Nat, cell u c i = cell s c i ∨ cell u c i = cell t c i

/-! ### Faults -/

/-- Rules R121, R124: what a fault records, and that it changes nothing else; the classes and codes of the fourteen
causes. -/
def Obligations.RaiseRecords : Prop :=
  (∀ (e : Cause) (op ch : Byte) (idx : Word) (s : State), raise e op ch idx s =
    { s with
      fsr := { cls := causeClass e, cause := causeCode e, op := op, ch := ch, idx := idx }
      cmdq := []
      seq := { phase := .idle, n := 0#32, c := 0#32 } }) ∧
    [Cause.icFs, .icWindow, .icCutoff, .icNyquist, .icBlocksize, .icChannels, .icSteps, .icDegenerate, .pvUnprepared,
      .pvLength, .pvChannel, .pvNonfinite, .pvRange, .pvIllegal].map (fun e => ((causeClass e).toNat, (causeCode e).toNat)) =
      [(1, 0x01), (1, 0x02), (1, 0x03), (1, 0x04), (1, 0x05), (1, 0x06), (1, 0x07), (1, 0x08), (2, 0x10), (2, 0x11),
        (2, 0x12), (2, 0x13), (2, 0x14), (2, 0x15)]

/-- Rules R122, R123 (2), R126: the first check of a command's own list that fails is the fault reported, and the state
after it is the state before but for `FSR`, `CMDQ` and `SEQ`. `checksOf` lists the checks as the commands' rules do. -/
def Obligations.FirstFailingCheckReported : Prop :=
  ∀ (i : Instr) (s : State) (e : Cause), isFaulted s = false → firstFailure (checksOf i s) = some e →
    exec i s = .next { s with
      fsr := { cls := causeClass e, cause := causeCode e, op := i.op.code, ch := i.head.ch, idx := 0#32 }
      cmdq := []
      seq := { phase := .idle, n := 0#32, c := 0#32 } }

/-- Rules R123, R126: a command other than `BLK` whose checks all pass completes without a fault. -/
def Obligations.PassedChecksComplete : Prop :=
  ∀ (i : Instr) (s : State), isFaulted s = false → i.op ≠ .blk → firstFailure (checksOf i s) = none →
    ∃ t, exec i s = .next t ∧ endsNormally t ∧ t.fsr = s.fsr ∧ t.cmdq = s.cmdq ∧ t.seq = s.seq

/-- Rule R121, the column "raised by", and the last sentence of rule R126: the faults a command can raise. The invariant
excludes states in which a Ready circuit holds a rate that is not a sample rate. -/
def Obligations.CausesOfEachCommand : Prop :=
  ∀ (i : Instr) (s t : State), Inv s → isFaulted s = false → exec i s = .next t → isFaulted t = true →
    ∃ e ∈ causesOf i.op, t.fsr.cls = causeClass e ∧ t.fsr.cause = causeCode e ∧ t.fsr.op = i.op.code

/-- Rules R125, R129, R140: the only step that ends the faulted state is a `RESET`. -/
def Obligations.FaultedLeftOnlyByReset : Prop :=
  ∀ s t : State, isFaulted s = true → step s = .next t → isFaulted t = false →
    ∃ rest, s.port = .reset :: rest ∨ ∃ w, s.port = .wordCut w :: rest

/-! ### What each command does -/

/-- Rule R74: the command is one word of format S; it shows the present smoothed value in `RES[0]` and changes nothing
else. -/
def Obligations.SmcurResult : Prop :=
  ∀ (k : Knob) (s : State), encode (.smcur k) = [0x12#8 ++ 0#8 ++ k.sel ++ 0#8] ∧
    (isFaulted s = false →
      exec (.smcur k) s = .next { s with res := { r0 := (getSm s k).cur, r1 := s.res.r1, r2 := s.res.r2 } })

/-- Rule R75: one sample of the ramp of smoother `k`; the other smoothers and all but `RES[0]` are kept. -/
def Obligations.SmnxtResult : Prop :=
  ∀ (k : Knob) (s : State), isFaulted s = false →
    ∃ t, exec (.smnxt k) s = .next t ∧ t = { s with sm := t.sm, res := t.res } ∧
      t.res = { r0 := (getSm t k).cur, r1 := s.res.r1, r2 := s.res.r2 } ∧
      (∀ k', k' ≠ k → getSm t k' = getSm s k') ∧
      let q := getSm s k
      let v := fadd32 q.cur q.step
      getSm t k =
        if q.cnt.toNat = 0 then { q with cur := q.tgt }
        else if q.cnt.toNat = 1 then { q with cur := q.tgt, cnt := 0#32, step := 0#32 }
        else if (flt32 0#32 q.step = true ∧ flt32 q.tgt v = true) ∨
            (flt32 q.step 0#32 = true ∧ flt32 v q.tgt = true) then
          { q with cur := q.tgt, cnt := 0#32, step := 0#32 }
        else { q with cur := v, cnt := BitVec.ofNat 32 (q.cnt.toNat - 1) }

/-- Rule R73 with rule R71: a finite target, in [0, 1] or not; one equal to the present target changes nothing. -/
def Obligations.SmtgtResult : Prop :=
  ∀ (k : Knob) (v : Word) (s : State), isFaulted s = false → isFinite32 v = true →
    ∃ t, exec (.smtgt k v) s = .next t ∧ t = { s with sm := t.sm } ∧ (∀ k', k' ≠ k → getSm t k' = getSm s k') ∧
      let q := getSm s k
      getSm t k =
        if feq32 v q.tgt = true then q
        else if q.nsteps.toNat = 0 ∨ feq32 q.cur v = true then { q with tgt := v, cnt := 0#32, step := 0#32 }
        else { q with tgt := v, cnt := q.nsteps, step := fdiv32 (fsub32 v q.cur) (u2f32 q.nsteps.toNat) }

/-- Rule R72 with rule R71: for a finite positive rate, a finite window not below 0 and a length that fits, rate, window
and length are recorded, and the ramp restarts from the present value over the full length; only smoother `k` changes. -/
def Obligations.SmcfgResult : Prop :=
  ∀ (k : Knob) (fs win : Word) (s : State), isFaulted s = false →
    isFinite32 fs = true → flt32 0#32 fs = true → isFinite32 win = true → flt32 win 0#32 = false →
    isFinite32 (fmul32 fs win) = true → floorN32 (fmul32 fs win) < 2 ^ 32 →
      ∃ t, exec (.smcfg k fs win) s = .next t ∧ t = { s with sm := t.sm } ∧
        (∀ k', k' ≠ k → getSm t k' = getSm s k') ∧ getSm t k = reconfigured fs win (getSm s k)

/-- Rule R83 with rule R81: the three words of the set, and nothing else. -/
def Obligations.CoefResult : Prop :=
  ∀ (kind : FilterKind) (fs fc : Word) (s : State), isFaulted s = false → firstFailure (coefChecks s.par fs fc) = none →
    exec (.coef kind fs fc) s = .next { s with
      res := { r0 := (coefValue s.par kind fs fc).b0, r1 := (coefValue s.par kind fs fc).b1
               r2 := (coefValue s.par kind fs fc).a1 } }

/-- Rule R84 with rule R82: one filter of one circuit advances by one sample. -/
def Obligations.FappResult : Prop :=
  ∀ (c : Byte) (f : FilterIx) (x : Word) (s : State), isFaulted s = false → c.toNat < s.par.nchMax →
    (getCircuit s c.toNat).rdy = true → isFinite32 x = true →
      let q := getFilter (getCircuit s c.toNat) f
      let y := fsub32 (fadd32 (fmul32 q.coefs.b0 x) (fmul32 q.coefs.b1 q.x1)) (fmul32 q.coefs.a1 q.y1)
      ∃ t, exec (.fapp c f x) s = .next t ∧ t = { s with cir := t.cir, res := t.res } ∧
        t.res = { r0 := y, r1 := s.res.r1, r2 := s.res.r2 } ∧
        getFilter (getCircuit t c.toNat) f = { x1 := x, y1 := y, coefs := q.coefs } ∧
        (∀ f', f' ≠ f → getFilter (getCircuit t c.toNat) f' = getFilter (getCircuit s c.toNat) f') ∧
        (getCircuit t c.toNat).rdy = true ∧ (getCircuit t c.toNat).fs = (getCircuit s c.toNat).fs ∧
        ∀ c', c' ≠ c.toNat → getCircuit t c' = getCircuit s c'

/-- Rule R91 with rule R90: a finite operand; `tanh x` from 0 up, `tanh(0.8 x) * 1.2` below. -/
def Obligations.ClipResult : Prop :=
  ∀ (x : Word) (s : State), isFaulted s = false → isFinite32 x = true →
    exec (.clip x) s = .next { s with
      res :=
        { r0 := if fle32 0#32 x then ftanh32 s.par x else fmul32 (ftanh32 s.par (fmul32 0x3F4CCCCD#32 x)) 0x3F99999A#32
          r1 := s.res.r1, r2 := s.res.r2 } }

/-- Rule R98 with rules R96, R97: circuit `c` is prepared at `fs`, silent, with the coefficients of the tone default. -/
def Obligations.CprepResult : Prop :=
  ∀ (c : Byte) (fs blksz : Word) (s : State), isFaulted s = false → c.toNat < s.nch.toNat →
    isFinite32 fs = true → flt32 0#32 fs = true → blksz ≠ 0#32 → CoefsExist s.par fs s.par.pdefTone →
      exec (.cprep c fs blksz) s = .next { s with
        cir := s.cir.set c.toNat
          { rdy := true, fs := fs
            ihp := { x1 := 0#32, y1 := 0#32, coefs := (bankOf s.par fs s.par.pdefTone).ihp }
            tlp := { x1 := 0#32, y1 := 0#32, coefs := (bankOf s.par fs s.par.pdefTone).tlp }
            ohp := { x1 := 0#32, y1 := 0#32, coefs := (bankOf s.par fs s.par.pdefTone).ohp } } }

/-- Rule R100 with rules R96, R99: the nine coefficient registers of one Ready circuit, at its own rate; history, rate and
everything else are kept. -/
def Obligations.UpdfResult : Prop :=
  ∀ (c : Byte) (drive tone : Word) (s : State), isFaulted s = false → c.toNat < s.par.nchMax →
    (getCircuit s c.toNat).rdy = true → isFinite32 drive = true → isFinite32 tone = true →
    CoefsExist s.par (getCircuit s c.toNat).fs tone →
      let q := getCircuit s c.toNat
      exec (.updf c drive tone) s = .next { s with
        cir := s.cir.set c.toNat
          { rdy := true, fs := q.fs
            ihp := { x1 := q.ihp.x1, y1 := q.ihp.y1, coefs := (bankOf s.par q.fs tone).ihp }
            tlp := { x1 := q.tlp.x1, y1 := q.tlp.y1, coefs := (bankOf s.par q.fs tone).tlp }
            ohp := { x1 := q.ohp.x1, y1 := q.ohp.y1, coefs := (bankOf s.par q.fs tone).ohp } } }

/-- Rule R102 with rule R101: the seven steps of one sample on one Ready circuit; six history registers and `RES[0]` are
written, nothing else. -/
def Obligations.PsmpResult : Prop :=
  ∀ (c : Byte) (x drive tone level : Word) (s : State), isFaulted s = false → c.toNat < s.par.nchMax →
    (getCircuit s c.toNat).rdy = true → isFinite32 x = true → isFinite32 drive = true → isFinite32 tone = true →
    isFinite32 level = true →
      let q := getCircuit s c.toNat
      let out (p : FilterRegs Word) (u : Word) : Word :=
        fsub32 (fadd32 (fmul32 p.coefs.b0 u) (fmul32 p.coefs.b1 p.x1)) (fmul32 p.coefs.a1 p.y1)
      let s1 := out q.ihp x
      let s3 := fmul32 (fmul32 s1 0x40400000#32) (fadd32 0x3F800000#32 (fmul32 drive 0x42480000#32))
      let s4 := if fle32 0#32 s3 then ftanh32 s.par s3 else fmul32 (ftanh32 s.par (fmul32 0x3F4CCCCD#32 s3)) 0x3F99999A#32
      let s5 := out q.tlp s4
      let s6 := out q.ohp s5
      exec (.psmp c x drive tone level) s = .next { s with
        res := { r0 := fmul32 s6 level, r1 := s.res.r1, r2 := s.res.r2 }
        cir := s.cir.set c.toNat
          { rdy := true, fs := q.fs
            ihp := { x1 := x, y1 := s1, coefs := q.ihp.coefs }
            tlp := { x1 := s4, y1 := s5, coefs := q.tlp.coefs }
            ohp := { x1 := s5, y1 := s6, coefs := q.ohp.coefs } } }

/-- Rule R106: the block processor configured, circuits below `nch` prepared, the others destroyed, the smoothers
reconfigured with their values kept. -/
def Obligations.CfgResult : Prop :=
  ∀ (fs blksz nch : Word) (s : State), isFaulted s = false → isFinite32 fs = true → flt32 0#32 fs = true →
    1 ≤ blksz.toNat → blksz.toNat ≤ s.par.blkMax → 1 ≤ nch.toNat → nch.toNat ≤ s.par.nchMax →
    CoefsExist s.par fs s.par.pdefTone → isFinite32 (fmul32 fs s.par.windowS) = true →
    floorN32 (fmul32 fs s.par.windowS) < 2 ^ 32 →
      ∃ t, exec (.cfg fs blksz nch) s = .next t ∧
        t = { s with pstCfg := true, nch := nch, blksz := blksz, cir := t.cir, sm := t.sm } ∧
        t.cir.length = s.par.nchMax ∧
        (∀ c, c < nch.toNat → getCircuit t c =
          { rdy := true, fs := fs
            ihp := { x1 := 0#32, y1 := 0#32, coefs := (bankOf s.par fs s.par.pdefTone).ihp }
            tlp := { x1 := 0#32, y1 := 0#32, coefs := (bankOf s.par fs s.par.pdefTone).tlp }
            ohp := { x1 := 0#32, y1 := 0#32, coefs := (bankOf s.par fs s.par.pdefTone).ohp } }) ∧
        (∀ c, nch.toNat ≤ c → c < s.par.nchMax → (getCircuit t c).rdy = false ∧ (getCircuit t c).fs = 0#32 ∧
          silentHistory (getCircuit t c) ∧
          ∀ f, (getFilter (getCircuit t c) f).coefs = { b0 := 0#32, b1 := 0#32, a1 := 0#32 }) ∧
        ∀ k, getSm t k = reconfigured fs s.par.windowS (getSm s k)

/-- Rules R41, R108: one cell is written, whatever the word; every other cell reads as before. -/
def Obligations.WrsResult : Prop :=
  ∀ (c : Byte) (idx v : Word) (s : State), isFaulted s = false → c.toNat < s.par.nchMax →
    idx.toNat < s.par.blkMax →
      ∃ t, exec (.wrs c idx v) s = .next t ∧ t = { s with buf := t.buf } ∧ cell t c.toNat idx.toNat = v ∧
        ∀ c' i : Nat, i < 2 ^ 32 → ¬(c' = c.toNat ∧ i = idx.toNat) → cell t c' i = cell s c' i

/-- Rules R40, R109: the word of the cell, the draw of a cell never written. -/
def Obligations.RdsResult : Prop :=
  ∀ (c : Byte) (idx : Word) (s : State), isFaulted s = false → c.toNat < s.par.nchMax → idx.toNat < s.par.blkMax →
    exec (.rds c idx) s = .next { s with
      res := { r0 := cell s c.toNat idx.toNat, r1 := s.res.r1, r2 := s.res.r2 } }

/-! ### The block -/

/-- Rules R53, R107, R110, R111: a block that meets no fault gives each channel what a run of that channel alone gives,
sample by sample at the smoothed values of the frames, with coefficients computed once, before the first sample; each
smoother advances once per frame; no other cell, circuit or register changes. -/
def Obligations.BlockIsPerChannelRuns : Prop :=
  ∀ (len drive tone level : Word) (s : State), BlockAccepted s len drive tone level →
    RefreshSucceeds s s.nch.toNat → SamplesFinite s len →
      let N := num32 s.par
      ∃ t, exec (.blk len drive tone level) s = .next t ∧ endsNormally t ∧
        t = { s with sm := t.sm, cir := t.cir, buf := t.buf, seq := { phase := .idle, n := 0#32, c := 0#32 }
                     df := s.sm.drive.cur, tf := s.sm.tone.cur, fd := t.fd, ft := t.ft, fl := t.fl } ∧
        t.sm = { drive := (smoothNext N)^[len.toNat] (smoothSetTarget N drive s.sm.drive)
                 tone := (smoothNext N)^[len.toNat] (smoothSetTarget N tone s.sm.tone)
                 level := (smoothNext N)^[len.toNat] (smoothSetTarget N level s.sm.level) } ∧
        (len.toNat = 0 → t.fd = s.fd ∧ t.ft = s.ft ∧ t.fl = s.fl) ∧
        (∀ n, len.toNat = n + 1 → t.fd = smoothedAt N (smoothSetTarget N drive s.sm.drive) n ∧
          t.ft = smoothedAt N (smoothSetTarget N tone s.sm.tone) n ∧
          t.fl = smoothedAt N (smoothSetTarget N level s.sm.level) n) ∧
        (∀ c, c < s.nch.toNat →
          getCircuit t c = (channelRun N (refreshed s c) (frameInputs s drive tone level c len.toNat)).1 ∧
            ∀ n, n < len.toNat →
              (channelRun N (refreshed s c) (frameInputs s drive tone level c len.toNat)).2[n]? = some (cell t c n)) ∧
        (∀ c, s.nch.toNat ≤ c → getCircuit t c = getCircuit s c) ∧
        ∀ c i : Nat, i < 2 ^ 32 → ¬(c < s.nch.toNat ∧ i < len.toNat) → cell t c i = cell s c i

/-- Rule R110, the consequence: two channels with equal circuits and equal input words stay equal through a block. The
circuits' sample rates are among what is equal here: the refresh of step 3 reads them. -/
def Obligations.TwoEqualChannelsStayEqual : Prop :=
  ∀ (len drive tone level : Word) (s t : State) (c c' : Nat), BlockAccepted s len drive tone level →
    c < s.nch.toNat → c' < s.nch.toNat → getCircuit s c = getCircuit s c' →
    (∀ n, n < len.toNat → cell s c n = cell s c' n) → exec (.blk len drive tone level) s = .next t → endsNormally t →
      getCircuit t c = getCircuit t c' ∧ ∀ n, n < len.toNat → cell t c n = cell t c' n

/-- Rule R112, where no frame's drive gain is negative or not finite, and no frame's level is negative, `-0` or not finite;
that holds of all smoothed values from +0 to 1, and of larger ones. The rule says "whatever the smoothers do"; a `SMTGT`
outside [0, 1] before the block can make a frame's gain or level negative, and then a cell becomes `-0` (log 19). -/
def Obligations.SilentBlockStaysSilent : Prop :=
  ∀ (len drive tone level : Word) (s : State), BlockAccepted s len drive tone level →
    (∀ c, c < s.nch.toNat → silentHistory (getCircuit s c)) →
    (∀ c n, c < s.nch.toNat → n < len.toNat → cell s c n = 0#32) →
    (∀ n, n < len.toNat →
      let d := smoothedAt (num32 s.par) (smoothSetTarget (num32 s.par) drive s.sm.drive) n
      let l := smoothedAt (num32 s.par) (smoothSetTarget (num32 s.par) level s.sm.level) n
      let gain := fadd32 0x3F800000#32 (fmul32 d 0x42480000#32)
      (isFinite32 gain = true ∧ signBit gain = false) ∧ isFinite32 l = true ∧ signBit l = false) →
    RefreshSucceeds s s.nch.toNat →
      ∃ t, exec (.blk len drive tone level) s = .next t ∧ endsNormally t ∧
        (∀ c, c < s.nch.toNat → silentHistory (getCircuit t c)) ∧
        ∀ c n, c < s.nch.toNat → n < len.toNat → cell t c n = 0#32

/-- Rules R33, R46, R107: whatever becomes of a block, it leaves these alone: the results, the control registers, the
`rdy` and rate of every circuit, the circuits outside the collection, the cells outside the block. -/
def Obligations.BlockFrame : Prop :=
  ∀ (len drive tone level : Word) (s t : State), exec (.blk len drive tone level) s = .next t →
    t.res = s.res ∧ sameControl s t ∧ sameModelFields s t ∧ t.cir.length = s.cir.length ∧
      (∀ c, (getCircuit t c).rdy = (getCircuit s c).rdy ∧ (getCircuit t c).fs = (getCircuit s c).fs) ∧
      (∀ c, s.nch.toNat ≤ c → getCircuit t c = getCircuit s c) ∧
      ∀ c i : Nat, i < 2 ^ 32 → ¬(c < s.nch.toNat ∧ i < len.toNat) → cell t c i = cell s c i

/-- Rule R126, a fault in step 4: channel `c0` of frame `n0` is the first cell, frame by frame, that is not finite.
Everything before it is done, it and everything after is not. -/
def Obligations.BlockStepFourFault : Prop :=
  ∀ (len drive tone level : Word) (s : State) (c0 n0 : Nat), BlockAccepted s len drive tone level →
    RefreshSucceeds s s.nch.toNat → c0 < s.nch.toNat → n0 < len.toNat → isFinite32 (cell s c0 n0) = false →
    (∀ c n, c < s.nch.toNat → n < n0 ∨ (n = n0 ∧ c < c0) → isFinite32 (cell s c n) = true) →
      let N := num32 s.par
      ∃ t, exec (.blk len drive tone level) s = .next t ∧
        t = { s with
          sm := { drive := (smoothNext N)^[n0 + 1] (smoothSetTarget N drive s.sm.drive)
                  tone := (smoothNext N)^[n0 + 1] (smoothSetTarget N tone s.sm.tone)
                  level := (smoothNext N)^[n0 + 1] (smoothSetTarget N level s.sm.level) }
          fsr := { cls := 2#2, cause := 0x13#8, op := 0x02#8, ch := BitVec.ofNat 8 c0, idx := BitVec.ofNat 32 n0 }
          cmdq := [], seq := { phase := .idle, n := 0#32, c := 0#32 }
          df := s.sm.drive.cur, tf := s.sm.tone.cur
          fd := smoothedAt N (smoothSetTarget N drive s.sm.drive) n0
          ft := smoothedAt N (smoothSetTarget N tone s.sm.tone) n0
          fl := smoothedAt N (smoothSetTarget N level s.sm.level) n0
          cir := t.cir, buf := t.buf } ∧
        (∀ c, c < s.nch.toNat →
          let done := if c < c0 then n0 + 1 else n0
          getCircuit t c = (channelRun N (refreshed s c) (frameInputs s drive tone level c done)).1 ∧
            (∀ n, n < done →
              (channelRun N (refreshed s c) (frameInputs s drive tone level c done)).2[n]? = some (cell t c n)) ∧
            ∀ n, done ≤ n → n < 2 ^ 32 → cell t c n = cell s c n) ∧
        (∀ c, s.nch.toNat ≤ c → getCircuit t c = getCircuit s c) ∧
        ∀ c i : Nat, s.nch.toNat ≤ c → i < 2 ^ 32 → cell t c i = cell s c i

/-- Rule R126, a fault in step 3: circuit `c0` is the first whose coefficients do not exist at the smoothed tone. -/
def Obligations.BlockStepThreeFault : Prop :=
  ∀ (len drive tone level : Word) (s : State) (c0 : Nat) (e : Cause), BlockAccepted s len drive tone level →
    c0 < s.nch.toNat → RefreshSucceeds s c0 →
    firstFailure (circuitChecks s.par (getCircuit s c0).fs s.sm.tone.cur) = some e →
      let N := num32 s.par
      ∃ t, exec (.blk len drive tone level) s = .next t ∧
        t = { s with
          sm := { drive := smoothSetTarget N drive s.sm.drive, tone := smoothSetTarget N tone s.sm.tone
                  level := smoothSetTarget N level s.sm.level }
          fsr := { cls := causeClass e, cause := causeCode e, op := 0x02#8, ch := BitVec.ofNat 8 c0, idx := 0#32 }
          cmdq := [], seq := { phase := .idle, n := 0#32, c := 0#32 }
          df := s.sm.drive.cur, tf := s.sm.tone.cur, cir := t.cir } ∧
        (∀ c, c < c0 → getCircuit t c = refreshed s c) ∧ ∀ c, c0 ≤ c → getCircuit t c = getCircuit s c

/-- Rules R111, R147: the tone operand of a block does not reach the coefficients that block uses. -/
def Obligations.ToneActsOneBlockLate : Prop :=
  ∀ (len drive drive' tone tone' level level' : Word) (s t t' : State), BlockAccepted s len drive tone level →
    BlockAccepted s len drive' tone' level' → exec (.blk len drive tone level) s = .next t →
    exec (.blk len drive' tone' level') s = .next t' →
      ∀ c, coefsOf (getCircuit t c) = coefsOf (getCircuit t' c)

/-- Rules R80, R81, R107, R129: on a reachable Configured core whose circuits run at audio rates, a block of finite samples
with targets in [0, 1] completes. That the coefficient design does not degenerate at these rates is what rule R81 says of
them; of the instance's `ftan` it is the premise `TanSteady`, no named property of rule R13 (log 7). -/
def Obligations.AudioRateBlocksComplete : Prop :=
  ∀ (len drive tone level : Word) (s : State), TanSteady (ftan32 s.par) → Inv s → machineState s = .configured →
    (∀ c, c < s.nch.toNat → fle32 0x461C4400#32 (getCircuit s c).fs = true ∧
      fle32 (getCircuit s c).fs 0x49742400#32 = true) →
    inUnit s.sm.tone.cur = true → len.toNat ≤ s.blksz.toNat → inUnit drive = true →
    inUnit tone = true → inUnit level = true → SamplesFinite s len →
      ∃ t, exec (.blk len drive tone level) s = .next t ∧ machineState t = .configured

/-! ### The whole machine -/

/-- Rule R35 with rules R7, R20, R26, R27, R30 and the buffer's canonical form (log 8): the invariant holds at power-up,
for every legal set of parameters, `State.reset` among them. -/
def Obligations.PowerUpKeepsInv : Prop :=
  Inv State.reset ∧ ∀ p : Params, paramsOk p = true → Inv (State.powerUp p)

/-- Rule R35: every step keeps the invariant, `RESET` and its cutting short of a command included. -/
def Obligations.StepKeepsInv : Prop := ∀ s t : State, Inv s → step s = .next t → Inv t

/-- Rules R25, R26, R129, R135: outside `RESET` only `CFG` changes the control registers and which circuits are Ready. -/
def Obligations.OnlyCfgChangesControl : Prop :=
  ∀ (i : Instr) (s t : State), Inv s → exec i s = .next t → i.op ≠ .cfg →
    sameControl s t ∧ ∀ c, (getCircuit t c).rdy = (getCircuit s c).rdy

/-- Rule R33, last paragraph: a command with channel field `c` writes no other channel's circuit or cells, and what it
does depends on none of them. -/
def Obligations.ChannelCommandsSeeOneChannel : Prop :=
  ∀ (i : Instr) (c : Nat) (s s' t t' : State), channelOf i = some c → AgreeOnChannel c s s' → exec i s = .next t →
    exec i s' = .next t' → AgreeOnChannel c t t' ∧ (∀ c', c' ≠ c → getCircuit t c' = getCircuit s c') ∧
      ∀ c' n : Nat, c' ≠ c → n < 2 ^ 32 → cell t c' n = cell s c' n

/-- Rule R33, the table: which groups of registers each command leaves alone, faulting or not; in the machine over any `NUM`
(rule R7) as in `NUM32`. -/
def Obligations.AccessMatrix : Prop :=
  ∀ (N : Num Word) (i : Instr) (s t : State), exec i s = .next t ∨ execIn N i s = .next t →
    sameModelFields s t ∧
    (i.op ∉ [.rds, .smcur, .smnxt, .coef, .fapp, .clip, .psmp] → t.res = s.res) ∧
    (i.op ≠ .coef → t.res.r1 = s.res.r1 ∧ t.res.r2 = s.res.r2) ∧
    (i.op ∉ [.cfg, .blk, .smcfg, .smtgt, .smnxt] → t.sm = s.sm) ∧
    (i.op ∉ [.cfg, .blk, .fapp, .cprep, .updf, .psmp] → t.cir = s.cir) ∧
    (i.op ∉ [.cfg, .blk, .fapp, .cprep, .psmp] →
      ∀ c f, (getFilter (getCircuit t c) f).x1 = (getFilter (getCircuit s c) f).x1 ∧
      (getFilter (getCircuit t c) f).y1 = (getFilter (getCircuit s c) f).y1) ∧
    (i.op ∉ [.cfg, .blk, .cprep, .updf] → ∀ c, coefsOf (getCircuit t c) = coefsOf (getCircuit s c)) ∧
    (i.op ∉ [.cfg, .cprep] → ∀ c, (getCircuit t c).rdy = (getCircuit s c).rdy ∧
      (getCircuit t c).fs = (getCircuit s c).fs) ∧
    (i.op ≠ .cfg → sameControl s t) ∧ (i.op ∉ [.blk, .wrs] → t.buf = s.buf) ∧ (i.op ≠ .blk → sameLatches s t)

/-- Rule R79: a command with selector `k` neither writes another smoother nor depends on one; so the order of the three
advances of a frame does not matter. -/
def Obligations.SelectorsAreIndependent : Prop :=
  (∀ (i : Instr) (k : Knob) (s s' t t' : State),
    ((∃ fs win, i = .smcfg k fs win) ∨ (∃ v, i = .smtgt k v) ∨ i = .smcur k ∨ i = .smnxt k) →
    getSm s' k = getSm s k → s' = { s with sm := s'.sm } → exec i s = .next t → exec i s' = .next t' →
      (∀ k', k' ≠ k → getSm t k' = getSm s k') ∧ getSm t' k = getSm t k ∧ t' = { t with sm := t'.sm }) ∧
    ∀ (N : Num Word) (n : Nat) (s : State) (a b c : Knob), [a, b, c].Perm [.drive, .tone, .level] →
      ([a, b, c].foldl (fun u k => setSm u k (smoothNext N (getSm u k))) s).sm = (blkFrameStart N n s).sm

/-- Rule R104: the drive of `UPDF` and the tone of `PSMP` must be finite and are not used. -/
def Obligations.UnusedOperands : Prop :=
  (∀ (c : Byte) (drive drive' tone : Word) (s : State), isFinite32 drive = true → isFinite32 drive' = true →
    exec (.updf c drive tone) s = exec (.updf c drive' tone) s) ∧
    ∀ (c : Byte) (x drive tone tone' level : Word) (s : State), isFinite32 tone = true → isFinite32 tone' = true →
      exec (.psmp c x drive tone level) s = exec (.psmp c x drive tone' level) s

/-- Rule R99: `UPDF` is idempotent, and on a reachable state it rewrites the two high-passes with what they hold. -/
def Obligations.UpdateIsIdempotent : Prop :=
  ∀ (c : Byte) (drive tone : Word) (s t : State), Inv s → exec (.updf c drive tone) s = .next t → endsNormally t →
    exec (.updf c drive tone) t = .next t ∧ (getCircuit t c.toNat).ihp = (getCircuit s c.toNat).ihp ∧
      (getCircuit t c.toNat).ohp = (getCircuit s c.toNat).ohp

/-- Rules R48, R65, R108: the expansion of `FILL c, n, v` writes the first `n` cells of a channel and no other. -/
def Obligations.FillWritesCells : Prop :=
  ∀ (c : Byte) (n : Nat) (v : Word) (s : State), isFaulted s = false → c.toNat < s.par.nchMax → n ≤ s.par.blkMax →
    n ≤ 2 ^ 32 →
      ∃ t, execAll (fillCommands c n v) s = .next t ∧ t = { s with buf := t.buf } ∧
        ∀ c' i : Nat, i < 2 ^ 32 → cell t c' i = if c' = c.toNat ∧ i < n then v else cell s c' i

/-! ### Numerics and signal path -/

/-- Rules R12, R37: the four operations and `u2f` of `NUM32` are correctly rounded, to nearest with ties to even, with
gradual underflow; the signs of zeros, the infinities, division by zero and the NaNs are those of IEEE 754. Values are
counted in units of 2^-149. -/
def Obligations.CorrectRounding : Prop :=
  (∀ a b : Word, isFinite32 a = true → isFinite32 b = true →
    NearestEven (signedUnits a + signedUnits b) 1 (fadd32 a b) ∧
    NearestEven (signedUnits a - signedUnits b) 1 (fsub32 a b) ∧
    NearestEven (signedUnits a * signedUnits b) (2 ^ 149) (fmul32 a b) ∧
    (magBits b ≠ 0 →
      NearestEven (signedUnits a * 2 ^ 149 * (if signBit b then -1 else 1)) (units b) (fdiv32 a b)) ∧
    (signedUnits a + signedUnits b = 0 → fadd32 a b = if signBit a && signBit b then 0x80000000#32 else 0#32) ∧
    (signedUnits a = signedUnits b → fsub32 a b = if signBit a && !signBit b then 0x80000000#32 else 0#32) ∧
    (magBits b = 0 → if magBits a = 0 then isNaN32 (fdiv32 a b) = true else isInf32 (fdiv32 a b) = true)) ∧
  (∀ n : Nat, NearestEven (n * 2 ^ 149) 1 (u2f32 n)) ∧
  (∀ a b : Word, (isNaN32 (fmul32 a b) = false → signBit (fmul32 a b) = (signBit a != signBit b)) ∧
    (isNaN32 (fdiv32 a b) = false → signBit (fdiv32 a b) = (signBit a != signBit b)) ∧
    (isNaN32 a = true ∨ isNaN32 b = true → isNaN32 (fadd32 a b) = true ∧ isNaN32 (fsub32 a b) = true ∧
      isNaN32 (fmul32 a b) = true ∧ isNaN32 (fdiv32 a b) = true)) ∧
  (∀ a b : Word, isInf32 a = true → isFinite32 b = true →
    fadd32 a b = a ∧ fadd32 b a = a ∧ fsub32 a b = a ∧ fsub32 b a = fneg32 a ∧ isInf32 (fdiv32 a b) = true ∧
      magBits (fdiv32 b a) = 0 ∧
      if magBits b = 0 then isNaN32 (fmul32 a b) = true ∧ isNaN32 (fmul32 b a) = true
      else isInf32 (fmul32 a b) = true ∧ isInf32 (fmul32 b a) = true) ∧
  ∀ a b : Word, isInf32 a = true → isInf32 b = true →
    isInf32 (fmul32 a b) = true ∧ isNaN32 (fdiv32 a b) = true ∧
      if signBit a = signBit b then fadd32 a b = a ∧ isNaN32 (fsub32 a b) = true
      else isNaN32 (fadd32 a b) = true ∧ fsub32 a b = a

/-- Rule R13: the functions `ftanh` that an instance can have are exactly those with `TANH_ZERO`, `TANH_SIGN`, `TANH_BOUND`,
`TANH_MONO`, `TANH_INF` and `TANH_NAN`, the functions `ftan` exactly those with `TAN_POS`. How a function is held as
plain data is the model's choice (log 5, 6). -/
def Obligations.NamedProperties : Prop :=
  (∀ p : Params, TanhLaws (ftanh32 p) ∧ TanPos (ftan32 p)) ∧
    (∀ T : Word → Word, TanhLaws T → ∃ F : TanhFn, ∀ p : Params, p.tanhFn = some F → ftanh32 p = T) ∧
    ∀ T : Word → Word, TanPos T → ∃ F : Pieces, ∀ p : Params, p.tanFn = some F → ftan32 p = T

/-- Rule R92 (a), (b), (c) under `NUM32`, in every instance: for every `x` that is not a NaN (rule R103 (b))
`-C1_2 <= clip(x) <= C1`, the sign kept, both zeros kept; and `clip` is non-decreasing. The last clause: of `ftanh`, the
order needs `TANH_MONO` with `TANH_ZERO` and `TANH_SIGN` only. -/
def Obligations.ClipBoundAndOrder : Prop :=
  (∀ (p : Params) (x : Word), isNaN32 x = false →
    fle32 0xBF99999A#32 (clip (num32 p) x) = true ∧ fle32 (clip (num32 p) x) 0x3F800000#32 = true ∧
      (fle32 0#32 x = true → fle32 0#32 (clip (num32 p) x) = true) ∧
      (flt32 x 0#32 = true → fle32 (clip (num32 p) x) 0#32 = true)) ∧
    (∀ p : Params, clip (num32 p) 0x00000000#32 = 0x00000000#32 ∧ clip (num32 p) 0x80000000#32 = 0x80000000#32) ∧
    (∀ (p : Params) (x y : Word), fle32 x y = true → fle32 (clip (num32 p) x) (clip (num32 p) y) = true) ∧
    ∀ (p : Params) (T : Word → Word), TanhOrder T → ∀ x y : Word, fle32 x y = true →
      fle32 (clip { num32 p with ftanh := T } x) (clip { num32 p with ftanh := T } y) = true

/-- Rules R85, R88: the shape of every set that `coef` returns. -/
def Obligations.CoefShape : Prop :=
  ∀ (p : Params) (kind : FilterKind) (fs fc : Word) (k : Coefs Word), coef (num32 p) kind fs fc = .ok k →
    flt32 0xBF800000#32 k.a1 = true ∧ flt32 k.a1 0x3F800000#32 = true ∧ isFinite32 k.b0 = true ∧
      flt32 0#32 k.b0 = true ∧ k.b1 = (match kind with | .highPass => fneg32 k.b0 | .lowPass => k.b0)

/-- Rule R86: a filter with finite coefficients is zero-preserving; with coefficients from `coef` and an all-`+0` history
the input `+0` changes nothing. -/
def Obligations.FilterZeroPreservation : Prop :=
  (∀ (p : Params) (q : FilterRegs Word) (x : Word), isFinite32 q.coefs.b0 = true → isFinite32 q.coefs.b1 = true →
    isFinite32 q.coefs.a1 = true → magBits q.x1 = 0 → magBits q.y1 = 0 → magBits x = 0 →
      magBits (filtOut (num32 p) q x) = 0 ∧ magBits (filtStep (num32 p) q x).x1 = 0 ∧
        magBits (filtStep (num32 p) q x).y1 = 0) ∧
    ∀ (p : Params) (q : FilterRegs Word) (kind : FilterKind) (fs fc : Word),
      coef (num32 p) kind fs fc = .ok q.coefs → q.x1 = 0#32 → q.y1 = 0#32 → filtStep (num32 p) q 0#32 = q

/-- Rule R103 (a): a prepared circuit with silent history turns the input `+0` into a zero, `+0` unless the level is
`-0`, and keeps its history silent. -/
def Obligations.CircuitZeroPreservation : Prop :=
  ∀ (p : Params) (q : Circuit Word) (drive tone level : Word), PreparedCircuit p q → silentHistory q →
    inUnit drive = true → isFinite32 tone = true → inUnit level = true →
      circuitProcess (num32 p) q 0#32 drive tone level = (q, if signBit level then 0x80000000#32 else 0#32)

/-- Rules R80, R81: at sample rates from 10001 Hz to 1e6 Hz and tones in [0, 1] the three coefficient sets of a circuit
exist, in every instance whose `ftan` is as the last sentence of rule R81 takes it to be (`TanSteady`, log 7): the angles
of these rates are its angles, and checks (1) to (3) pass. And `TAN_CR` is enough for it. -/
def Obligations.CircuitRatesNeverDegenerate : Prop :=
  (∀ (p : Params) (fs tone : Word), TanSteady (ftan32 p) → fle32 0x461C4400#32 fs = true →
    fle32 fs 0x49742400#32 = true → inUnit tone = true → CoefsExist p fs tone) ∧
    ∀ T : Word → Word, TanCr T → TanSteady T

/-- Rule R76 (b), (d) under `NUM32`: a ramp moves monotonically from `cur` to `tgt`, is there from call `nsteps` on, and once
there stays; where the difference of the two overflows, the first call lands. -/
def Obligations.SmootherMonotone : Prop :=
  ∀ (p : Params) (q : Smoother Word), isFinite32 q.cur = true → isFinite32 q.tgt = true → feq32 q.cur q.tgt = false →
    1 ≤ q.nsteps.toNat →
      let v (j : Nat) : Word := ((smoothNext (num32 p))^[j] (smoothRamp (num32 p) q)).cur
      v 0 = q.cur ∧
        (flt32 q.cur q.tgt = true → ∀ j, fle32 (v j) (v (j + 1)) = true ∧ fle32 (v j) q.tgt = true) ∧
        (flt32 q.tgt q.cur = true → ∀ j, fle32 (v (j + 1)) (v j) = true ∧ fle32 q.tgt (v j) = true) ∧
        (∀ j, q.nsteps.toNat ≤ j → v j = q.tgt) ∧ (∀ i j, j ≤ i → v j = q.tgt → v i = q.tgt) ∧
        (isFinite32 (fsub32 q.tgt q.cur) = false → v 1 = q.tgt)

/-- Rule R77, on smoothers of reachable states: with no ramp in flight and `cur` and `tgt` the same pattern, the three
operations leave every register of the smoother unchanged. -/
def Obligations.SmootherFixedPoint : Prop :=
  ∀ (p : Params) (q : Smoother Word), SmootherInv q → q.cnt = 0#32 → q.cur = q.tgt →
    smoothNext (num32 p) q = q ∧ smoothSetTarget (num32 p) q.tgt q = q ∧ smoothConfigure (num32 p) q.fs q.win q = q

/-- Rule R78 (c): neither `SMCFG` nor `CFG` moves a smoothed value or a target. -/
def Obligations.NoJumpAcrossReconfiguration : Prop :=
  ∀ (i : Instr) (s t : State), i.op = .smcfg ∨ i.op = .cfg → exec i s = .next t →
    ∀ k, (getSm t k).cur = (getSm s k).cur ∧ (getSm t k).tgt = (getSm s k).tgt

/-- Rules R76 (a), R78 (a), (b) under `NUM_REAL`: the ramp is the straight line, and lands at call `nsteps`. -/
def Obligations.RealRampIsLinear : Prop :=
  ∀ q : Smoother ℝ, q.cur ≠ q.tgt → 1 ≤ q.nsteps.toNat →
    let v (j : Nat) : ℝ := ((smoothNext numReal)^[j] (smoothRamp numReal q)).cur
    (∀ j, j < q.nsteps.toNat → v j = q.cur + j * (q.tgt - q.cur) / q.nsteps.toNat) ∧
      ∀ j, q.nsteps.toNat ≤ j → v j = q.tgt

/-- Rules R90, R92 under `NUM_REAL`: `clip` is strictly inside (-1.2, 1), zero at zero, non-decreasing and continuous. -/
def Obligations.RealClipRangeAndOrder : Prop :=
  (∀ x : ℝ, -1.2 < clip numReal x ∧ clip numReal x < 1) ∧ clip numReal 0 = 0 ∧ Monotone (clip numReal) ∧
    Continuous (clip numReal)

/-- Rules R81, R85, R87 under `NUM_REAL`: for every cutoff between 0 and half the rate `coef` answers, its feedback
coefficient is inside (-1, 1), and the gain is 1 and 0 at the ends of the band and `1/sqrt 2` at the cutoff. -/
def Obligations.RealDesignHalfPower : Prop :=
  ∀ (kind : FilterKind) (fs fc : ℝ), 0 < fs → 0 < fc → fc < fs / 2 →
    ∃ k : Coefs ℝ, coef numReal kind fs fc = .ok k ∧ |k.a1| < 1 ∧
      (match kind with
        | .highPass => k.b0 + k.b1 = 0 ∧ k.b0 - k.b1 = 1 - k.a1
        | .lowPass => k.b0 + k.b1 = 1 + k.a1 ∧ k.b0 - k.b1 = 0) ∧
      let w := 2 * Real.pi * fc / fs
      2 * ((k.b0 + k.b1 * Real.cos w) ^ 2 + (k.b1 * Real.sin w) ^ 2) =
        (1 + k.a1 * Real.cos w) ^ 2 + (k.a1 * Real.sin w) ^ 2

end Statements
end

