-- ==== Sys2Proof/Laws/Float.lean ====
section
/-! SUPPORT. Rounding in `NUM32` (spec/00_scope.md rule R12): `roundHalfEven` is within half a unit, exact on whole
numbers and monotone; `roundMag` is exact on the magnitudes of finite F values and monotone. Then the fields of a packed
pattern and the order of finite values. -/

namespace Sys2Proof.Machine

/-! ### Rounding to a natural number -/

/-- The rounded quotient is within half a unit of the exact one. -/
theorem roundHalfEven_within (num : Nat) {den : Nat} (hpos : 0 < den) :
    2 * (roundHalfEven num den * den) ≤ 2 * num + den ∧ 2 * num ≤ 2 * (roundHalfEven num den * den) + den := by
  have h := Nat.div_add_mod num den
  simp only [roundHalfEven]
  have hr := Nat.mod_lt num hpos
  have hm : num / den * den = den * (num / den) := Nat.mul_comm _ _
  split
  · rw [Nat.add_mul]
    omega
  · omega

/-- A whole quotient is not changed. -/
theorem roundHalfEven_exact (k : Nat) {den : Nat} (h : 0 < den) : roundHalfEven (k * den) den = k := by
  simp only [roundHalfEven, Nat.mul_div_cancel _ h, Nat.mul_mod_left]
  rw [if_neg]
  omega

/-- The rounded quotient is at least the floor and at most one above it. -/
theorem roundHalfEven_floor (num den : Nat) :
    num / den ≤ roundHalfEven num den ∧ roundHalfEven num den ≤ num / den + 1 := by
  simp only [roundHalfEven]
  split <;> omega

/-- Rounding is monotone in the exact quotient. -/
theorem roundHalfEven_mono {num den num' den' : Nat} (hd : 0 < den) (hd' : 0 < den')
    (h : num * den' ≤ num' * den) : roundHalfEven num den ≤ roundHalfEven num' den' := by
  have hq : num / den ≤ num' / den' := by
    rw [Nat.le_div_iff_mul_le hd']
    have h1 : num / den * den ≤ num := Nat.div_mul_le_self num den
    have h2 : num / den * den * den' ≤ num * den' := Nat.mul_le_mul_right _ h1
    have h3 : num / den * den' * den ≤ num' * den := by
      calc num / den * den' * den = num / den * den * den' := by ring
        _ ≤ num * den' := h2
        _ ≤ num' * den := h
    exact Nat.le_of_mul_le_mul_right h3 hd
  rcases Nat.lt_or_eq_of_le hq with hlt | heq
  · have h1 := (roundHalfEven_floor num den).2
    have h2 := (roundHalfEven_floor num' den').1
    omega
  · -- equal floors: the remainders compare
    have e1 := Nat.div_add_mod num den
    have e2 := Nat.div_add_mod num' den'
    have hr : num % den * den' ≤ num' % den' * den := by
      rw [heq] at e1
      have : (den * (num' / den') + num % den) * den' ≤ (den' * (num' / den') + num' % den') * den := by
        rw [e1, e2]; exact h
      nlinarith
    simp only [roundHalfEven, heq]
    split
    · rename_i hup
      rw [if_pos]
      rcases hup with hup | ⟨hup, hodd⟩
      · left
        by_contra hc
        have hc : 2 * (num' % den') ≤ den' := by omega
        have : den * den' < 2 * (num % den) * den' := Nat.mul_lt_mul_of_pos_right hup hd'
        have : 2 * (num' % den') * den ≤ den' * den := Nat.mul_le_mul_right _ hc
        nlinarith
      · by_cases h2 : den' < 2 * (num' % den')
        · exact .inl h2
        · right
          refine ⟨?_, hodd⟩
          have h2 : 2 * (num' % den') ≤ den' := by omega
          by_contra hne
          have hlt : 2 * (num' % den') < den' := by omega
          have : 2 * (num' % den') * den < den' * den := Nat.mul_lt_mul_of_pos_right hlt hd
          have : 2 * (num % den) * den' = den * den' := by rw [hup]
          nlinarith
    · split <;> omega

/-! ### Magnitudes -/

/-- A magnitude pattern `e * 2^23 + m` with `2^23 <= m < 2^24` has `m * 2^e` units. -/
theorem magUnits_pack {e m : Nat} (hlo : 2 ^ 23 ≤ m) (hhi : m < 2 ^ 24) :
    magUnits (e * 2 ^ 23 + m) = m * 2 ^ e := by
  have h1 : ¬ e * 2 ^ 23 + m < 2 ^ 23 := by omega
  have h2 : (e * 2 ^ 23 + m) % 2 ^ 23 = m - 2 ^ 23 := by omega
  have h3 : (e * 2 ^ 23 + m) / 2 ^ 23 - 1 = e := by omega
  rw [magUnits, if_neg h1, h2, h3, Nat.add_sub_cancel' hlo]

/-- Every magnitude pattern is a small one, or `e * 2^23 + m` with `2^23 <= m < 2^24`. -/
theorem magBits_cases (m : Nat) :
    m < 2 ^ 23 ∨ ∃ e k, 2 ^ 23 ≤ k ∧ k < 2 ^ 24 ∧ m = e * 2 ^ 23 + k := by
  rcases Nat.lt_or_ge m (2 ^ 23) with h | h
  · exact .inl h
  · exact .inr ⟨m / 2 ^ 23 - 1, m % 2 ^ 23 + 2 ^ 23, by omega, by omega, by omega⟩

/-- The units of a magnitude pattern are strictly monotone. -/
theorem magUnits_strictMono : StrictMono magUnits := by
  refine strictMono_nat_of_lt_succ fun m => ?_
  rcases magBits_cases m with h | ⟨e, k, hlo, hhi, rfl⟩
  · rcases Nat.lt_or_ge (m + 1) (2 ^ 23) with h' | h'
    · rw [magUnits, if_pos h, magUnits, if_pos h']
      omega
    · have : m + 1 = 0 * 2 ^ 23 + 2 ^ 23 := by omega
      rw [this, magUnits_pack (le_refl _) (by norm_num), magUnits, if_pos h]
      omega
  · rw [magUnits_pack hlo hhi]
    have hp : 0 < 2 ^ e := by positivity
    rcases Nat.lt_or_ge (k + 1) (2 ^ 24) with h' | h'
    · rw [Nat.add_assoc, magUnits_pack (by omega) h', Nat.add_mul]
      omega
    · have hk : e * 2 ^ 23 + k + 1 = (e + 1) * 2 ^ 23 + 2 ^ 23 := by omega
      rw [hk, magUnits_pack (le_refl _) (by norm_num), Nat.pow_succ]
      have h1 : k * 2 ^ e < 2 ^ 24 * 2 ^ e := Nat.mul_lt_mul_of_pos_right hhi hp
      have h2 : 2 ^ 23 * (2 ^ e * 2) = 2 ^ 24 * 2 ^ e := by ring
      omega

@[simp] theorem magUnits_zero : magUnits 0 = 0 := by decide

theorem log2_of_bounds {q e : Nat} (hlo : 2 ^ e ≤ q) (hhi : q < 2 ^ (e + 1)) : Nat.log2 q = e := by
  have hq : q ≠ 0 := by
    have : 0 < 2 ^ e := by positivity
    omega
  rw [Nat.log2_eq_iff hq]
  exact ⟨hlo, hhi⟩

/-- In the last place that `lastPlace` gives, the quotient has at most 24 bits, and exactly 24 when that place is not
the least. -/
theorem lastPlace_bounds (num den : Nat) :
    num / den < 2 ^ (lastPlace num den + 24) ∧ (lastPlace num den ≠ 0 → 2 ^ (lastPlace num den + 23) ≤ num / den) := by
  have hlt : num / den < 2 ^ (Nat.log2 (num / den) + 1) := Nat.lt_log2_self
  constructor
  · refine lt_of_lt_of_le hlt (Nat.pow_le_pow_right (by norm_num) ?_)
    simp only [lastPlace]
    omega
  · intro h
    have hq : num / den ≠ 0 := by
      intro h0
      simp [lastPlace, h0] at h
    have : lastPlace num den + 23 = Nat.log2 (num / den) := by
      simp only [lastPlace] at h ⊢
      omega
    rw [this]
    exact Nat.log2_self_le hq

/-- The kept bits of a rounding: at most `2^24`, and at least `2^23` when the last place is not the least. -/
theorem keptBits_bounds (num den : Nat) :
    roundHalfEven num (den * 2 ^ lastPlace num den) ≤ 2 ^ 24 ∧
      (lastPlace num den ≠ 0 → 2 ^ 23 ≤ roundHalfEven num (den * 2 ^ lastPlace num den)) := by
  obtain ⟨h1, h2⟩ := lastPlace_bounds num den
  have hp : 0 < 2 ^ lastPlace num den := by positivity
  have hdiv : num / (den * 2 ^ lastPlace num den) = num / den / 2 ^ lastPlace num den := (Nat.div_div_eq_div_mul ..).symm
  have hf := roundHalfEven_floor num (den * 2 ^ lastPlace num den)
  rw [hdiv] at hf
  constructor
  · have : num / den / 2 ^ lastPlace num den < 2 ^ 24 := by
      rw [Nat.div_lt_iff_lt_mul hp, ← Nat.pow_add, Nat.add_comm]
      exact h1
    omega
  · intro h
    have : 2 ^ 23 ≤ num / den / 2 ^ lastPlace num den := by
      rw [Nat.le_div_iff_mul_le hp, ← Nat.pow_add, Nat.add_comm]
      exact h2 h
    omega

/-- The magnitude of a finite F value rounds to itself. -/
theorem roundMag_exact {m den : Nat} (hm : m ≤ infMag) (hd : 0 < den) : roundMag (magUnits m * den) den = m := by
  have hq : magUnits m * den / den = magUnits m := Nat.mul_div_cancel _ hd
  rcases magBits_cases m with h | ⟨e, k, hlo, hhi, rfl⟩
  · have hu : magUnits m = m := by rw [magUnits, if_pos h]
    have he : lastPlace (magUnits m * den) den = 0 := by
      have hl := lastPlace_bounds (magUnits m * den) den
      by_contra hne
      have := hl.2 hne
      rw [hq, hu] at this
      have : 2 ^ 23 ≤ 2 ^ (lastPlace (magUnits m * den) den + 23) := Nat.pow_le_pow_right (by norm_num) (by omega)
      omega
    rw [hu] at he ⊢
    simp only [roundMag, he, pow_zero, Nat.mul_one, roundHalfEven_exact m hd]
    omega
  · have hu : magUnits (e * 2 ^ 23 + k) = k * 2 ^ e := magUnits_pack hlo hhi
    have he : lastPlace (magUnits (e * 2 ^ 23 + k) * den) den = e := by
      have : Nat.log2 (k * 2 ^ e) = e + 23 := by
        refine log2_of_bounds ?_ ?_
        · rw [Nat.pow_add, Nat.mul_comm]
          exact Nat.mul_le_mul_right _ hlo
        · rw [show e + 23 + 1 = 24 + e by omega, Nat.pow_add]
          exact Nat.mul_lt_mul_of_pos_right hhi (by positivity)
      simp only [lastPlace, hq]
      rw [hu, this]
      omega
    have hr : roundHalfEven (magUnits (e * 2 ^ 23 + k) * den) (den * 2 ^ e) = k := by
      rw [hu, Nat.mul_assoc, Nat.mul_comm (2 ^ e) den]
      exact roundHalfEven_exact k (by positivity)
    simp only [roundMag, he, hr]
    omega

/-- Rounding to a magnitude is monotone in the exact quotient. -/
theorem roundMag_mono {num den num' den' : Nat} (hd : 0 < den) (hd' : 0 < den') (h : num * den' ≤ num' * den) :
    roundMag num den ≤ roundMag num' den' := by
  have hq : num / den ≤ num' / den' := by
    rw [Nat.le_div_iff_mul_le hd']
    have h1 : num / den * den ≤ num := Nat.div_mul_le_self num den
    have h2 : num / den * den * den' ≤ num * den' := Nat.mul_le_mul_right _ h1
    have h3 : num / den * den' * den ≤ num' * den := by
      calc num / den * den' * den = num / den * den * den' := by ring
        _ ≤ num * den' := h2
        _ ≤ num' * den := h
    exact Nat.le_of_mul_le_mul_right h3 hd
  have hl : lastPlace num den ≤ lastPlace num' den' := by
    obtain ⟨-, h2⟩ := lastPlace_bounds num den
    obtain ⟨h1', -⟩ := lastPlace_bounds num' den'
    by_contra hc
    have hlow := h2 (by omega)
    have hpow : 2 ^ (lastPlace num' den' + 24) ≤ 2 ^ (lastPlace num den + 23) :=
      Nat.pow_le_pow_right (by norm_num) (by omega)
    omega
  simp only [roundMag]
  refine min_le_min_right _ ?_
  rcases Nat.lt_or_eq_of_le hl with hlt | heq
  · have h1 := (keptBits_bounds num den).1
    have h2 := (keptBits_bounds num' den').2 (by omega)
    have h3 : (lastPlace num den + 1) * 2 ^ 23 ≤ lastPlace num' den' * 2 ^ 23 := Nat.mul_le_mul_right _ hlt
    omega
  · rw [heq]
    refine Nat.add_le_add_left (roundHalfEven_mono (by positivity) (by positivity) ?_) _
    calc num * (den' * 2 ^ lastPlace num' den') = num * den' * 2 ^ lastPlace num' den' := by ring
      _ ≤ num' * den * 2 ^ lastPlace num' den' := Nat.mul_le_mul_right _ h
      _ = num' * (den * 2 ^ lastPlace num' den') := by ring

theorem roundMag_le (num den : Nat) : roundMag num den ≤ infMag := by
  simp only [roundMag]
  exact Nat.min_le_right _ _

/-- A quotient at most the magnitude of a finite F value rounds to at most it. -/
theorem roundMag_le_of_le {num den m : Nat} (hm : m ≤ infMag) (hd : 0 < den) (h : num ≤ magUnits m * den) :
    roundMag num den ≤ m := by
  rw [← roundMag_exact hm hd]
  exact roundMag_mono hd hd (Nat.mul_le_mul_right _ h)

/-- A quotient at least the magnitude of a finite F value rounds to at least it. -/
theorem le_roundMag_of_le {num den m : Nat} (hm : m ≤ infMag) (hd : 0 < den) (h : magUnits m * den ≤ num) :
    m ≤ roundMag num den := by
  rw [← roundMag_exact hm hd]
  exact roundMag_mono hd hd (Nat.mul_le_mul_right _ h)

/-! ### Packed patterns -/

theorem magBits_lt (a : Word) : magBits a < 2 ^ 31 := Nat.mod_lt _ (by norm_num)

theorem magBits_packSign {neg : Bool} {m : Nat} (h : m < 2 ^ 31) : magBits (packSign neg m) = m := by
  cases neg <;> simp [magBits, packSign] <;> omega

theorem signBit_eq (a : Word) : signBit a = decide (2 ^ 31 ≤ a.toNat) := by
  have h : a.getLsbD 31 = a.msb := by simp [BitVec.msb, BitVec.getMsbD]
  rw [signBit, h, BitVec.msb_eq_decide]

theorem signBit_packSign {neg : Bool} {m : Nat} (h : m < 2 ^ 31) : signBit (packSign neg m) = neg := by
  rw [signBit_eq]
  cases neg <;> simp [packSign] <;> omega

/-- A pattern is its sign and its magnitude. -/
theorem packSign_eta (a : Word) : packSign (signBit a) (magBits a) = a := by
  rw [signBit_eq]
  apply BitVec.eq_of_toNat_eq
  have := a.isLt
  simp only [packSign, magBits, BitVec.toNat_ofNat]
  by_cases h : 2 ^ 31 ≤ a.toNat
  · simp only [h, decide_true, if_true]
    omega
  · simp only [h, decide_false, Bool.false_eq_true, if_false]
    omega

theorem packSign_inj {a b : Word} (hs : signBit a = signBit b) (hm : magBits a = magBits b) : a = b := by
  rw [← packSign_eta a, ← packSign_eta b, hs, hm]

theorem isFinite32_iff (a : Word) : isFinite32 a = true ↔ magBits a < infMag := by simp [isFinite32]

theorem isNaN32_eq_false_iff (a : Word) : isNaN32 a = false ↔ magBits a ≤ infMag := by simp [isNaN32]

theorem isNaN32_of_finite {a : Word} (h : isFinite32 a = true) : isNaN32 a = false := by
  rw [isFinite32_iff] at h
  rw [isNaN32_eq_false_iff]
  omega

/-- The comparisons on values that are not NaNs, through `orderKey`. -/
theorem fle32_iff {a b : Word} (ha : isNaN32 a = false) (hb : isNaN32 b = false) :
    fle32 a b = true ↔ orderKey a ≤ orderKey b := by
  simp [fle32, ha, hb]

theorem flt32_iff {a b : Word} (ha : isNaN32 a = false) (hb : isNaN32 b = false) :
    flt32 a b = true ↔ orderKey a < orderKey b := by
  simp [flt32, ha, hb]

theorem notNaN_of_fle32 {a b : Word} (h : fle32 a b = true) : isNaN32 a = false ∧ isNaN32 b = false := by
  simp [fle32] at h
  exact ⟨h.1.1, h.1.2⟩

theorem notNaN_of_flt32 {a b : Word} (h : flt32 a b = true) : isNaN32 a = false ∧ isNaN32 b = false := by
  simp [flt32] at h
  exact ⟨h.1.1, h.1.2⟩

/-- The order of the keys is the order of the exact values, for values that are not NaNs. -/
theorem signedUnits_le_iff (a b : Word) : signedUnits a ≤ signedUnits b ↔ orderKey a ≤ orderKey b := by
  have hm : ∀ x y : Word, units x ≤ units y ↔ magBits x ≤ magBits y := fun x y => magUnits_strictMono.le_iff_le
  have hz : ∀ x : Word, units x = 0 ↔ magBits x = 0 := by
    intro x
    constructor
    · intro h
      by_contra hne
      have : magUnits 0 < magUnits (magBits x) := magUnits_strictMono (Nat.pos_of_ne_zero hne)
      simp [units] at h
      simp [h] at this
    · intro h
      simp [units, h]
  have h1 := hm a b
  have h2 := hm b a
  have h3 := hz a
  have h4 := hz b
  simp only [signedUnits, orderKey]
  split <;> split <;> omega

/-! ### Configuration functions as plain data (rule R13) -/

/-- Pieces at the patterns below `k` fix the value at every pattern below `k`, whatever was there before. -/
theorem foldl_pieces (f : Word → Word) (n k : Nat) (v : Word) :
    ((List.range k).map fun i => (i, f (BitVec.ofNat 32 i))).foldl (fun v p => if p.1 ≤ n then p.2 else v) v =
      if k = 0 then v else f (BitVec.ofNat 32 (min n (k - 1))) := by
  induction k with
  | zero => rfl
  | succ k ih =>
    rw [List.range_succ, List.map_append, List.foldl_append, ih]
    simp only [List.map_cons, List.map_nil, List.foldl_cons, List.foldl_nil, Nat.succ_ne_zero, if_false,
      Nat.add_sub_cancel]
    by_cases hk : k ≤ n
    · rw [if_pos hk, Nat.min_eq_right hk]
    · have h0 : k ≠ 0 := by omega
      rw [if_neg hk, if_neg h0, Nat.min_eq_left (by omega), Nat.min_eq_left (by omega)]

/-- Every function on the patterns is given by pieces. -/
theorem exists_pieces (f : Word → Word) : ∃ T : Pieces, ∀ a : Word, valueAt T a.toNat = f a := by
  refine ⟨(List.range (2 ^ 32)).map fun i => (i, f (BitVec.ofNat 32 i)), fun a => ?_⟩
  rw [valueAt, foldl_pieces, if_neg (by decide), Nat.min_eq_left (by have := a.isLt; omega)]
  exact congrArg f (BitVec.eq_of_toNat_eq (by simp))

/-- Every non-decreasing function of the magnitudes below `k` is given by its rises. -/
theorem exists_rises (f : Nat → Nat) (hf : Monotone f) (k : Nat) : ∃ T : Rises, ∀ m, m < k → risesAt T m = f m := by
  have h : ∀ k m, ((List.range (k + 1)).map fun i => (i, f i - if i = 0 then 0 else f (i - 1))).foldl
      (fun v p => if p.1 ≤ m then v + p.2 else v) 0 = f (min m k) := by
    intro k m
    induction k with
    | zero => simp
    | succ k ih =>
      rw [List.range_succ, List.map_append, List.foldl_append, ih]
      simp only [List.map_cons, List.map_nil, List.foldl_cons, List.foldl_nil, Nat.succ_ne_zero, if_false,
        Nat.add_sub_cancel]
      by_cases hm : k + 1 ≤ m
      · have hle := hf (Nat.le_succ k)
        rw [if_pos hm, Nat.min_eq_right hm, Nat.min_eq_right (by omega)]
        simp only [Nat.succ_eq_add_one] at hle
        omega
      · rw [if_neg hm, Nat.min_eq_left (by omega), Nat.min_eq_left (by omega)]
  refine ⟨(List.range (k + 1)).map fun i => (i, f i - if i = 0 then 0 else f (i - 1)), fun m hm => ?_⟩
  rw [risesAt, h, Nat.min_eq_left (by omega)]

/-- A function given by rises is non-decreasing. -/
theorem risesAt_mono (T : Rises) {m n : Nat} (h : m ≤ n) : risesAt T m ≤ risesAt T n := by
  have hfold : ∀ (T : Rises) (u v : Nat), u ≤ v → T.foldl (fun v p => if p.1 ≤ m then v + p.2 else v) u ≤
      T.foldl (fun v p => if p.1 ≤ n then v + p.2 else v) v := by
    intro T
    induction T with
    | nil => exact fun _ _ h => h
    | cons p T ih =>
      intro u v huv
      simp only [List.foldl_cons]
      refine ih _ _ ?_
      split
      · rw [if_pos (by omega)]
        omega
      · split <;> omega
  exact hfold T 0 0 (Nat.le_refl 0)

/-- The magnitude of `tanhOf` at a nonzero finite operand. -/
def tanhMag (T : TanhFn) (a : Word) : Nat := min (risesAt (if signBit a then T.neg else T.pos) (magBits a)) oneMag

theorem tanhMag_le (T : TanhFn) (a : Word) : tanhMag T a ≤ oneMag := Nat.min_le_right _ _

theorem tanhMag_lt (T : TanhFn) (a : Word) : tanhMag T a < 2 ^ 31 := lt_of_le_of_lt (tanhMag_le T a) (by decide)

theorem tanhMag_mono (T : TanhFn) {a b : Word} (hs : signBit a = signBit b) (h : magBits a ≤ magBits b) :
    tanhMag T a ≤ tanhMag T b := by
  have hr := risesAt_mono (if signBit b then T.neg else T.pos) h
  simp only [tanhMag, hs]
  omega

theorem tanhOf_finite {T : TanhFn} {a : Word} (hf : isFinite32 a = true) (h0 : magBits a ≠ 0) :
    tanhOf T a = packSign (if tanhMag T a = 0 then signBit (valueAt T.loose a.toNat) else signBit a) (tanhMag T a) := by
  have hn : isNaN32 a = false := isNaN32_of_finite hf
  have hi : isInf32 a = false := by
    rw [isFinite32_iff] at hf
    simp only [isInf32, decide_eq_false_iff_not]
    omega
  simp only [tanhOf, hn, hi, h0, Bool.false_eq_true, if_false]
  rfl

/-- The place of a value of `tanhOf` in the order of the comparisons. -/
theorem orderKey_tanhOf (T : TanhFn) {a : Word} (hn : isNaN32 a = false) :
    orderKey (tanhOf T a) = (if signBit a then -1 else 1) *
      ((if isInf32 a then oneMag else if magBits a = 0 then 0 else tanhMag T a : Nat) : Int) := by
  by_cases hi : isInf32 a = true
  · simp only [tanhOf, hn, hi, Bool.false_eq_true, if_false, if_true, orderKey,
      signBit_packSign (show oneMag < 2 ^ 31 by decide), magBits_packSign (show oneMag < 2 ^ 31 by decide)]
    split <;> omega
  · have hi : isInf32 a = false := by simpa using hi
    by_cases h0 : magBits a = 0
    · simp only [tanhOf, hn, hi, h0, Bool.false_eq_true, if_false, if_true, orderKey]
      split <;> rfl
    · have hf : isFinite32 a = true := by
        rw [isNaN32_eq_false_iff] at hn
        simp only [isInf32, decide_eq_false_iff_not] at hi
        rw [isFinite32_iff]
        omega
      rw [tanhOf_finite hf h0]
      simp only [hi, h0, Bool.false_eq_true, if_false, orderKey, signBit_packSign (tanhMag_lt T a),
        magBits_packSign (tanhMag_lt T a)]
      by_cases hm : tanhMag T a = 0
      · simp [hm]
      · rw [if_neg hm]
        split <;> omega

end Sys2Proof.Machine
end

