-- ==== Sys2Proof/Laws/State.lean ====
section
/-! SUPPORT. What each named update of the state does to each field: one lemma per field and update, true by unfolding
the update once. -/

namespace Sys2Proof.Machine

section Updates

variable (s : State)

@[simp] theorem raise_res (e : Cause) (op ch : Byte) (idx : Word) :
    (raise e op ch idx s).res = s.res := rfl
@[simp] theorem raise_sm (e : Cause) (op ch : Byte) (idx : Word) :
    (raise e op ch idx s).sm = s.sm := rfl
@[simp] theorem raise_cir (e : Cause) (op ch : Byte) (idx : Word) :
    (raise e op ch idx s).cir = s.cir := rfl
@[simp] theorem raise_pstCfg (e : Cause) (op ch : Byte) (idx : Word) :
    (raise e op ch idx s).pstCfg = s.pstCfg := rfl
@[simp] theorem raise_nch (e : Cause) (op ch : Byte) (idx : Word) :
    (raise e op ch idx s).nch = s.nch := rfl
@[simp] theorem raise_blksz (e : Cause) (op ch : Byte) (idx : Word) :
    (raise e op ch idx s).blksz = s.blksz := rfl
@[simp] theorem raise_fsr (e : Cause) (op ch : Byte) (idx : Word) :
    (raise e op ch idx s).fsr = { cls := causeClass e, cause := causeCode e, op := op, ch := ch, idx := idx } := rfl
@[simp] theorem raise_buf (e : Cause) (op ch : Byte) (idx : Word) :
    (raise e op ch idx s).buf = s.buf := rfl
@[simp] theorem raise_cmdq (e : Cause) (op ch : Byte) (idx : Word) :
    (raise e op ch idx s).cmdq = [] := rfl
@[simp] theorem raise_seq (e : Cause) (op ch : Byte) (idx : Word) :
    (raise e op ch idx s).seq = { phase := .idle, n := 0#32, c := 0#32 } := rfl
@[simp] theorem raise_fd (e : Cause) (op ch : Byte) (idx : Word) :
    (raise e op ch idx s).fd = s.fd := rfl
@[simp] theorem raise_ft (e : Cause) (op ch : Byte) (idx : Word) :
    (raise e op ch idx s).ft = s.ft := rfl
@[simp] theorem raise_fl (e : Cause) (op ch : Byte) (idx : Word) :
    (raise e op ch idx s).fl = s.fl := rfl
@[simp] theorem raise_df (e : Cause) (op ch : Byte) (idx : Word) :
    (raise e op ch idx s).df = s.df := rfl
@[simp] theorem raise_tf (e : Cause) (op ch : Byte) (idx : Word) :
    (raise e op ch idx s).tf = s.tf := rfl
@[simp] theorem raise_par (e : Cause) (op ch : Byte) (idx : Word) :
    (raise e op ch idx s).par = s.par := rfl
@[simp] theorem raise_port (e : Cause) (op ch : Byte) (idx : Word) :
    (raise e op ch idx s).port = s.port := rfl
@[simp] theorem raise_draws (e : Cause) (op ch : Byte) (idx : Word) :
    (raise e op ch idx s).draws = s.draws := rfl

@[simp] theorem applyReset_res :
    (applyReset s).res = { r0 := 0#32, r1 := 0#32, r2 := 0#32 } := rfl
@[simp] theorem applyReset_sm :
    (applyReset s).sm =
      { drive := smootherAtReset s.par.pdefDrive
        tone := smootherAtReset s.par.pdefTone
        level := smootherAtReset s.par.pdefLevel } := rfl
@[simp] theorem applyReset_cir :
    (applyReset s).cir = List.replicate s.par.nchMax circuitAtReset := rfl
@[simp] theorem applyReset_pstCfg :
    (applyReset s).pstCfg = false := rfl
@[simp] theorem applyReset_nch :
    (applyReset s).nch = 0#32 := rfl
@[simp] theorem applyReset_blksz :
    (applyReset s).blksz = 0#32 := rfl
@[simp] theorem applyReset_fsr :
    (applyReset s).fsr = { cls := 0#2, cause := 0#8, op := 0#8, ch := 0#8, idx := 0#32 } := rfl
@[simp] theorem applyReset_buf :
    (applyReset s).buf = s.buf := rfl
@[simp] theorem applyReset_cmdq :
    (applyReset s).cmdq = [] := rfl
@[simp] theorem applyReset_seq :
    (applyReset s).seq = { phase := .idle, n := 0#32, c := 0#32 } := rfl
@[simp] theorem applyReset_fd :
    (applyReset s).fd = 0#32 := rfl
@[simp] theorem applyReset_ft :
    (applyReset s).ft = 0#32 := rfl
@[simp] theorem applyReset_fl :
    (applyReset s).fl = 0#32 := rfl
@[simp] theorem applyReset_df :
    (applyReset s).df = 0#32 := rfl
@[simp] theorem applyReset_tf :
    (applyReset s).tf = 0#32 := rfl
@[simp] theorem applyReset_par :
    (applyReset s).par = s.par := rfl
@[simp] theorem applyReset_port :
    (applyReset s).port = s.port := rfl
@[simp] theorem applyReset_draws :
    (applyReset s).draws = s.draws := rfl

@[simp] theorem setCircuit_res (c : Nat) (q : Circuit Word) :
    (setCircuit s c q).res = s.res := rfl
@[simp] theorem setCircuit_sm (c : Nat) (q : Circuit Word) :
    (setCircuit s c q).sm = s.sm := rfl
@[simp] theorem setCircuit_cir (c : Nat) (q : Circuit Word) :
    (setCircuit s c q).cir = s.cir.set c q := rfl
@[simp] theorem setCircuit_pstCfg (c : Nat) (q : Circuit Word) :
    (setCircuit s c q).pstCfg = s.pstCfg := rfl
@[simp] theorem setCircuit_nch (c : Nat) (q : Circuit Word) :
    (setCircuit s c q).nch = s.nch := rfl
@[simp] theorem setCircuit_blksz (c : Nat) (q : Circuit Word) :
    (setCircuit s c q).blksz = s.blksz := rfl
@[simp] theorem setCircuit_fsr (c : Nat) (q : Circuit Word) :
    (setCircuit s c q).fsr = s.fsr := rfl
@[simp] theorem setCircuit_buf (c : Nat) (q : Circuit Word) :
    (setCircuit s c q).buf = s.buf := rfl
@[simp] theorem setCircuit_cmdq (c : Nat) (q : Circuit Word) :
    (setCircuit s c q).cmdq = s.cmdq := rfl
@[simp] theorem setCircuit_seq (c : Nat) (q : Circuit Word) :
    (setCircuit s c q).seq = s.seq := rfl
@[simp] theorem setCircuit_fd (c : Nat) (q : Circuit Word) :
    (setCircuit s c q).fd = s.fd := rfl
@[simp] theorem setCircuit_ft (c : Nat) (q : Circuit Word) :
    (setCircuit s c q).ft = s.ft := rfl
@[simp] theorem setCircuit_fl (c : Nat) (q : Circuit Word) :
    (setCircuit s c q).fl = s.fl := rfl
@[simp] theorem setCircuit_df (c : Nat) (q : Circuit Word) :
    (setCircuit s c q).df = s.df := rfl
@[simp] theorem setCircuit_tf (c : Nat) (q : Circuit Word) :
    (setCircuit s c q).tf = s.tf := rfl
@[simp] theorem setCircuit_par (c : Nat) (q : Circuit Word) :
    (setCircuit s c q).par = s.par := rfl
@[simp] theorem setCircuit_port (c : Nat) (q : Circuit Word) :
    (setCircuit s c q).port = s.port := rfl
@[simp] theorem setCircuit_draws (c : Nat) (q : Circuit Word) :
    (setCircuit s c q).draws = s.draws := rfl

@[simp] theorem setRes0_res (v : Word) :
    (setRes0 s v).res = { s.res with r0 := v } := rfl
@[simp] theorem setRes0_sm (v : Word) :
    (setRes0 s v).sm = s.sm := rfl
@[simp] theorem setRes0_cir (v : Word) :
    (setRes0 s v).cir = s.cir := rfl
@[simp] theorem setRes0_pstCfg (v : Word) :
    (setRes0 s v).pstCfg = s.pstCfg := rfl
@[simp] theorem setRes0_nch (v : Word) :
    (setRes0 s v).nch = s.nch := rfl
@[simp] theorem setRes0_blksz (v : Word) :
    (setRes0 s v).blksz = s.blksz := rfl
@[simp] theorem setRes0_fsr (v : Word) :
    (setRes0 s v).fsr = s.fsr := rfl
@[simp] theorem setRes0_buf (v : Word) :
    (setRes0 s v).buf = s.buf := rfl
@[simp] theorem setRes0_cmdq (v : Word) :
    (setRes0 s v).cmdq = s.cmdq := rfl
@[simp] theorem setRes0_seq (v : Word) :
    (setRes0 s v).seq = s.seq := rfl
@[simp] theorem setRes0_fd (v : Word) :
    (setRes0 s v).fd = s.fd := rfl
@[simp] theorem setRes0_ft (v : Word) :
    (setRes0 s v).ft = s.ft := rfl
@[simp] theorem setRes0_fl (v : Word) :
    (setRes0 s v).fl = s.fl := rfl
@[simp] theorem setRes0_df (v : Word) :
    (setRes0 s v).df = s.df := rfl
@[simp] theorem setRes0_tf (v : Word) :
    (setRes0 s v).tf = s.tf := rfl
@[simp] theorem setRes0_par (v : Word) :
    (setRes0 s v).par = s.par := rfl
@[simp] theorem setRes0_port (v : Word) :
    (setRes0 s v).port = s.port := rfl
@[simp] theorem setRes0_draws (v : Word) :
    (setRes0 s v).draws = s.draws := rfl

@[simp] theorem setRes_res (k : Coefs Word) :
    (setRes s k).res = { r0 := k.b0, r1 := k.b1, r2 := k.a1 } := rfl
@[simp] theorem setRes_sm (k : Coefs Word) :
    (setRes s k).sm = s.sm := rfl
@[simp] theorem setRes_cir (k : Coefs Word) :
    (setRes s k).cir = s.cir := rfl
@[simp] theorem setRes_pstCfg (k : Coefs Word) :
    (setRes s k).pstCfg = s.pstCfg := rfl
@[simp] theorem setRes_nch (k : Coefs Word) :
    (setRes s k).nch = s.nch := rfl
@[simp] theorem setRes_blksz (k : Coefs Word) :
    (setRes s k).blksz = s.blksz := rfl
@[simp] theorem setRes_fsr (k : Coefs Word) :
    (setRes s k).fsr = s.fsr := rfl
@[simp] theorem setRes_buf (k : Coefs Word) :
    (setRes s k).buf = s.buf := rfl
@[simp] theorem setRes_cmdq (k : Coefs Word) :
    (setRes s k).cmdq = s.cmdq := rfl
@[simp] theorem setRes_seq (k : Coefs Word) :
    (setRes s k).seq = s.seq := rfl
@[simp] theorem setRes_fd (k : Coefs Word) :
    (setRes s k).fd = s.fd := rfl
@[simp] theorem setRes_ft (k : Coefs Word) :
    (setRes s k).ft = s.ft := rfl
@[simp] theorem setRes_fl (k : Coefs Word) :
    (setRes s k).fl = s.fl := rfl
@[simp] theorem setRes_df (k : Coefs Word) :
    (setRes s k).df = s.df := rfl
@[simp] theorem setRes_tf (k : Coefs Word) :
    (setRes s k).tf = s.tf := rfl
@[simp] theorem setRes_par (k : Coefs Word) :
    (setRes s k).par = s.par := rfl
@[simp] theorem setRes_port (k : Coefs Word) :
    (setRes s k).port = s.port := rfl
@[simp] theorem setRes_draws (k : Coefs Word) :
    (setRes s k).draws = s.draws := rfl

@[simp] theorem setSeq_res (p : Phase) (n c : Nat) :
    (setSeq s p n c).res = s.res := rfl
@[simp] theorem setSeq_sm (p : Phase) (n c : Nat) :
    (setSeq s p n c).sm = s.sm := rfl
@[simp] theorem setSeq_cir (p : Phase) (n c : Nat) :
    (setSeq s p n c).cir = s.cir := rfl
@[simp] theorem setSeq_pstCfg (p : Phase) (n c : Nat) :
    (setSeq s p n c).pstCfg = s.pstCfg := rfl
@[simp] theorem setSeq_nch (p : Phase) (n c : Nat) :
    (setSeq s p n c).nch = s.nch := rfl
@[simp] theorem setSeq_blksz (p : Phase) (n c : Nat) :
    (setSeq s p n c).blksz = s.blksz := rfl
@[simp] theorem setSeq_fsr (p : Phase) (n c : Nat) :
    (setSeq s p n c).fsr = s.fsr := rfl
@[simp] theorem setSeq_buf (p : Phase) (n c : Nat) :
    (setSeq s p n c).buf = s.buf := rfl
@[simp] theorem setSeq_cmdq (p : Phase) (n c : Nat) :
    (setSeq s p n c).cmdq = s.cmdq := rfl
@[simp] theorem setSeq_seq (p : Phase) (n c : Nat) :
    (setSeq s p n c).seq = { phase := p, n := BitVec.ofNat 32 n, c := BitVec.ofNat 32 c } := rfl
@[simp] theorem setSeq_fd (p : Phase) (n c : Nat) :
    (setSeq s p n c).fd = s.fd := rfl
@[simp] theorem setSeq_ft (p : Phase) (n c : Nat) :
    (setSeq s p n c).ft = s.ft := rfl
@[simp] theorem setSeq_fl (p : Phase) (n c : Nat) :
    (setSeq s p n c).fl = s.fl := rfl
@[simp] theorem setSeq_df (p : Phase) (n c : Nat) :
    (setSeq s p n c).df = s.df := rfl
@[simp] theorem setSeq_tf (p : Phase) (n c : Nat) :
    (setSeq s p n c).tf = s.tf := rfl
@[simp] theorem setSeq_par (p : Phase) (n c : Nat) :
    (setSeq s p n c).par = s.par := rfl
@[simp] theorem setSeq_port (p : Phase) (n c : Nat) :
    (setSeq s p n c).port = s.port := rfl
@[simp] theorem setSeq_draws (p : Phase) (n c : Nat) :
    (setSeq s p n c).draws = s.draws := rfl

@[simp] theorem setSm_res (k : Knob) (q : Smoother Word) :
    (setSm s k q).res = s.res := by cases k <;> rfl
@[simp] theorem setSm_cir (k : Knob) (q : Smoother Word) :
    (setSm s k q).cir = s.cir := by cases k <;> rfl
@[simp] theorem setSm_pstCfg (k : Knob) (q : Smoother Word) :
    (setSm s k q).pstCfg = s.pstCfg := by cases k <;> rfl
@[simp] theorem setSm_nch (k : Knob) (q : Smoother Word) :
    (setSm s k q).nch = s.nch := by cases k <;> rfl
@[simp] theorem setSm_blksz (k : Knob) (q : Smoother Word) :
    (setSm s k q).blksz = s.blksz := by cases k <;> rfl
@[simp] theorem setSm_fsr (k : Knob) (q : Smoother Word) :
    (setSm s k q).fsr = s.fsr := by cases k <;> rfl
@[simp] theorem setSm_buf (k : Knob) (q : Smoother Word) :
    (setSm s k q).buf = s.buf := by cases k <;> rfl
@[simp] theorem setSm_cmdq (k : Knob) (q : Smoother Word) :
    (setSm s k q).cmdq = s.cmdq := by cases k <;> rfl
@[simp] theorem setSm_seq (k : Knob) (q : Smoother Word) :
    (setSm s k q).seq = s.seq := by cases k <;> rfl
@[simp] theorem setSm_fd (k : Knob) (q : Smoother Word) :
    (setSm s k q).fd = s.fd := by cases k <;> rfl
@[simp] theorem setSm_ft (k : Knob) (q : Smoother Word) :
    (setSm s k q).ft = s.ft := by cases k <;> rfl
@[simp] theorem setSm_fl (k : Knob) (q : Smoother Word) :
    (setSm s k q).fl = s.fl := by cases k <;> rfl
@[simp] theorem setSm_df (k : Knob) (q : Smoother Word) :
    (setSm s k q).df = s.df := by cases k <;> rfl
@[simp] theorem setSm_tf (k : Knob) (q : Smoother Word) :
    (setSm s k q).tf = s.tf := by cases k <;> rfl
@[simp] theorem setSm_par (k : Knob) (q : Smoother Word) :
    (setSm s k q).par = s.par := by cases k <;> rfl
@[simp] theorem setSm_port (k : Knob) (q : Smoother Word) :
    (setSm s k q).port = s.port := by cases k <;> rfl
@[simp] theorem setSm_draws (k : Knob) (q : Smoother Word) :
    (setSm s k q).draws = s.draws := by cases k <;> rfl

end Updates

end Sys2Proof.Machine
end

