-- ==== Sys2Proof/Laws/Ops.lean ====
section
/-! SUPPORT. One lemma for each shared operation over the state, saying once all it can do: checks, faults, register
groups. -/

namespace Sys2Proof.Machine

/-! ### Checks and faults -/

theorem firstFailure_eq_none (l : List (Bool × Cause)) : firstFailure l = none ↔ ∀ p ∈ l, p.1 = true := by
  induction l with
  | nil => simp [firstFailure]
  | cons p rest ih =>
    obtain ⟨ok, e⟩ := p
    cases ok <;> simp [firstFailure, ih]

/-- A cause that is reported belongs to a check that does not pass, and the checks before it pass. -/
theorem firstFailure_eq_some {l : List (Bool × Cause)} {e : Cause} (h : firstFailure l = some e) :
    ∃ before after, l = before ++ (false, e) :: after ∧ ∀ p ∈ before, p.1 = true := by
  induction l with
  | nil => simp [firstFailure] at h
  | cons p rest ih =>
    obtain ⟨ok, e'⟩ := p
    cases ok with
    | false =>
      simp only [firstFailure, Bool.false_eq_true, if_false, Option.some.injEq] at h
      exact ⟨[], rest, by simp [h], by simp⟩
    | true =>
      simp only [firstFailure, if_true] at h
      obtain ⟨before, after, rfl, hb⟩ := ih h
      exact ⟨(true, e') :: before, after, rfl, by simpa using hb⟩

@[simp] theorem unlessFaulted_of_faulted {s : State} {r : Result} (h : isFaulted s = true) :
    unlessFaulted s r = .next s := by
  simp [unlessFaulted, h]

@[simp] theorem unlessFaulted_of_running {s : State} {r : Result} (h : isFaulted s = false) :
    unlessFaulted s r = r := by
  simp [unlessFaulted, h]

theorem causeClass_ne_zero (e : Cause) : causeClass e ≠ 0#2 := by cases e <;> decide

theorem causeCode_ne_zero (e : Cause) : causeCode e ≠ 0#8 := by cases e <;> decide

theorem causeCode_injective : ∀ e e' : Cause, causeCode e = causeCode e' → e = e' := by
  intro e e'
  cases e <;> cases e' <;> decide

/-- After a raise the core is faulted. -/
@[simp] theorem isFaulted_raise (e : Cause) (op ch : Byte) (idx : Word) (s : State) :
    isFaulted (raise e op ch idx s) = true := by
  simpa [isFaulted] using causeClass_ne_zero e

@[simp] theorem isFaulted_applyReset (s : State) : isFaulted (applyReset s) = false := rfl

/-! ### Register groups -/

@[simp] theorem getSm_setSm_same (s : State) (k : Knob) (q : Smoother Word) : getSm (setSm s k q) k = q := by
  cases k <;> rfl

@[simp] theorem getSm_setSm_other {k k' : Knob} (s : State) (q : Smoother Word) (h : k' ≠ k) :
    getSm (setSm s k q) k' = getSm s k' := by
  cases k <;> cases k' <;> first | rfl | exact absurd rfl h

theorem getCircuit_setCircuit_same {s : State} {c : Nat} (q : Circuit Word) (h : c < s.cir.length) :
    getCircuit (setCircuit s c q) c = q := by
  simp [getCircuit, h]

theorem getCircuit_setCircuit_other {c c' : Nat} (s : State) (q : Circuit Word) (h : c' ≠ c) :
    getCircuit (setCircuit s c q) c' = getCircuit s c' := by
  simp [getCircuit, Ne.symm h]

@[simp] theorem length_setCircuit (s : State) (c : Nat) (q : Circuit Word) :
    (setCircuit s c q).cir.length = s.cir.length := by
  simp

@[simp] theorem getFilter_setFilter_same {F : Type} (q : Circuit F) (f : FilterIx) (p : FilterRegs F) :
    getFilter (setFilter q f p) f = p := by
  cases f <;> rfl

@[simp] theorem getFilter_setFilter_other {F : Type} {f f' : FilterIx} (q : Circuit F) (p : FilterRegs F)
    (h : f' ≠ f) : getFilter (setFilter q f p) f' = getFilter q f' := by
  cases f <;> cases f' <;> first | rfl | exact absurd rfl h

/-- The registers that an update of one register group leaves: the circuits read as before after a write of a result, a
smoother or the sequencer. -/
@[simp] theorem getCircuit_setRes0 (s : State) (v : Word) (c : Nat) :
    getCircuit (setRes0 s v) c = getCircuit s c := rfl

@[simp] theorem getCircuit_setSeq (s : State) (p : Phase) (n i c : Nat) :
    getCircuit (setSeq s p n i) c = getCircuit s c := rfl

@[simp] theorem getCircuit_raise (e : Cause) (op ch : Byte) (idx : Word) (s : State) (c : Nat) :
    getCircuit (raise e op ch idx s) c = getCircuit s c := rfl

@[simp] theorem getSm_raise (e : Cause) (op ch : Byte) (idx : Word) (s : State) (k : Knob) :
    getSm (raise e op ch idx s) k = getSm s k := by
  cases k <;> rfl

@[simp] theorem getSm_setCircuit (s : State) (c : Nat) (q : Circuit Word) (k : Knob) :
    getSm (setCircuit s c q) k = getSm s k := by
  cases k <;> rfl

@[simp] theorem getSm_setRes0 (s : State) (v : Word) (k : Knob) : getSm (setRes0 s v) k = getSm s k := by
  cases k <;> rfl

end Sys2Proof.Machine
end

