-- ==== Sys2Proof/Laws/Filter.lean ====
section
/-! SUPPORT. When the coefficient functions answer a set, and which (spec/41_filter.md rule R81, spec/43_circuit.md
rules R96, R97, R99). -/

namespace Sys2Proof.Machine

section Generic

variable {F : Type} (N : Num F)

/-- `coef` answers exactly when the five checks pass, and then the set of the tangent. -/
theorem coef_eq_ok_iff (kind : FilterKind) (fs fc : F) (k : Coefs F) :
    coef N kind fs fc = .ok k ↔
      rateOk N fs = true ∧ (N.isfinite fc && N.flt N.zero fc) = true ∧ N.flt fc (N.fmul fs N.chalf) = true ∧
        (N.isfinite (N.ftan (coefAngle N fs fc)) && N.flt N.zero (N.ftan (coefAngle N fs fc))) = true ∧
        insideUnit N (coefFeedback N (N.ftan (coefAngle N fs fc))) = true ∧
        k = coefSet N kind (N.ftan (coefAngle N fs fc)) := by
  simp only [coef]
  split
  · rename_i e h
    obtain ⟨before, after, hl, -⟩ := firstFailure_eq_some h
    have hmem : (false, e) ∈ before ++ (false, e) :: after := by simp
    rw [← hl] at hmem
    constructor
    · intro h
      cases h
    · rintro ⟨h1, h2, h3, h4, h5, -⟩
      simp [h1, h2, h3, h4, h5] at hmem
  · rename_i h
    rw [firstFailure_eq_none] at h
    have h1 := h _ (List.mem_cons_self ..)
    have h2 := h _ (List.mem_cons_of_mem _ (List.mem_cons_self ..))
    have h3 := h _ (List.mem_cons_of_mem _ (List.mem_cons_of_mem _ (List.mem_cons_self ..)))
    have h4 := h _ (List.mem_cons_of_mem _ (List.mem_cons_of_mem _ (List.mem_cons_of_mem _ (List.mem_cons_self ..))))
    have h5 := h _ (List.mem_cons_of_mem _ (List.mem_cons_of_mem _ (List.mem_cons_of_mem _
      (List.mem_cons_of_mem _ (List.mem_cons_self ..)))))
    dsimp only at h1 h2 h3 h4 h5
    rw [Except.ok.injEq]
    exact ⟨fun hk => ⟨h1, h2, h3, h4, h5, hk.symm⟩, fun hk => hk.2.2.2.2.2.symm⟩

/-- `circuit_coefs` answers exactly when its three `coef` calls do. -/
theorem circuitCoefs_eq_ok_iff (fs tone : F) (k : CoefBank F) :
    circuitCoefs N fs tone = .ok k ↔
      coef N .highPass fs N.c20 = .ok k.ihp ∧ coef N .lowPass fs (toneCutoff N tone) = .ok k.tlp ∧
        coef N .highPass fs N.c35 = .ok k.ohp := by
  obtain ⟨k0, k1, k2⟩ := k
  simp only [circuitCoefs]
  split
  · rename_i h
    simp [h]
  · rename_i h
    split
    · rename_i h'
      simp [h, h']
    · rename_i h'
      split
      · rename_i h''
        simp [h, h', h'']
      · rename_i h''
        simp [h, h', h'', CoefBank.mk.injEq]

/-- `circuit_update` answers exactly when `circuit_coefs` does at the circuit's own rate. -/
theorem circuitUpdate_eq_ok_iff (q : Circuit F) (drive tone : F) (q' : Circuit F) :
    circuitUpdate N q drive tone = .ok q' ↔ ∃ k, circuitCoefs N q.fs tone = .ok k ∧ q' = withCoefs q k := by
  simp only [circuitUpdate]
  split
  · rename_i h
    simp [h]
  · rename_i h
    simp [h, eq_comm]

/-- `circuit_prepare` answers exactly when its two checks pass and `circuit_coefs` answers. -/
theorem circuitPrepare_eq_ok_iff (pdefTone fs : F) (blksz : Word) (q : Circuit F) :
    circuitPrepare N pdefTone fs blksz = .ok q ↔
      rateOk N fs = true ∧ blksz ≠ 0#32 ∧
        ∃ k, circuitCoefs N fs pdefTone = .ok k ∧ q = preparedCircuit N fs k := by
  simp only [circuitPrepare]
  cases h1 : rateOk N fs <;> by_cases h2 : blksz = 0#32 <;> simp [firstFailure, h2]
  split
  · rename_i h
    simp [h]
  · rename_i h
    simp [h, eq_comm]

@[simp] theorem withCoefs_rdy (q : Circuit F) (k : CoefBank F) : (withCoefs q k).rdy = q.rdy := rfl
@[simp] theorem withCoefs_fs (q : Circuit F) (k : CoefBank F) : (withCoefs q k).fs = q.fs := rfl
@[simp] theorem withCoefs_ihp (q : Circuit F) (k : CoefBank F) :
    (withCoefs q k).ihp = { q.ihp with coefs := k.ihp } := rfl
@[simp] theorem withCoefs_tlp (q : Circuit F) (k : CoefBank F) :
    (withCoefs q k).tlp = { q.tlp with coefs := k.tlp } := rfl
@[simp] theorem withCoefs_ohp (q : Circuit F) (k : CoefBank F) :
    (withCoefs q k).ohp = { q.ohp with coefs := k.ohp } := rfl
@[simp] theorem preparedCircuit_rdy (fs : F) (k : CoefBank F) : (preparedCircuit N fs k).rdy = true := rfl
@[simp] theorem preparedCircuit_fs (fs : F) (k : CoefBank F) : (preparedCircuit N fs k).fs = fs := rfl

@[simp] theorem filtStep_x1 (q : FilterRegs F) (x : F) : (filtStep N q x).x1 = x := rfl
@[simp] theorem filtStep_y1 (q : FilterRegs F) (x : F) : (filtStep N q x).y1 = filtOut N q x := rfl
@[simp] theorem filtStep_coefs (q : FilterRegs F) (x : F) : (filtStep N q x).coefs = q.coefs := rfl

@[simp] theorem circuitProcess_rdy (q : Circuit F) (x d t l : F) : (circuitProcess N q x d t l).1.rdy = q.rdy := rfl
@[simp] theorem circuitProcess_fs (q : Circuit F) (x d t l : F) : (circuitProcess N q x d t l).1.fs = q.fs := rfl

end Generic

/-- A circuit processes a sample without writing a coefficient (spec/44_block.md rule R111). -/
theorem circuitProcess_coefs {F : Type} (N : Num F) (q : Circuit F) (x d t l : F) :
    (circuitProcess N q x d t l).1.ihp.coefs = q.ihp.coefs ∧ (circuitProcess N q x d t l).1.tlp.coefs = q.tlp.coefs ∧
      (circuitProcess N q x d t l).1.ohp.coefs = q.ohp.coefs := ⟨rfl, rfl, rfl⟩

end Sys2Proof.Machine
end

