-- ==== Sys2Proof/Laws/Memory.lean ====
section
/-! SUPPORT. The sample buffer: a read after a write, the cells a write leaves alone, and that every operation keeps the
canonical form (spec/20_memory.md rules R40, R41, R48). -/

namespace Sys2Proof.Machine

/-- Different cells have different keys (indices are below 2^32, spec/00_scope.md rule R7). -/
theorem cellKey_injective {c i c' i' : Nat} (hi : i < 2 ^ 32) (hi' : i' < 2 ^ 32) (h : cellKey c i = cellKey c' i') :
    c = c' ∧ i = i' := by
  simp only [cellKey] at h
  omega

@[simp] theorem find_insert_same (m : Memory) (k : Nat) (v : Word) : (m.insert k v).find k = some v := by
  induction m with
  | nil => simp [Memory.insert, Memory.find]
  | cons p rest ih =>
    obtain ⟨a, u⟩ := p
    simp only [Memory.insert]
    split
    · simp [Memory.find]
    · split
      · simp [Memory.find]
      · simp only [Memory.find]
        rw [if_neg (by omega)]
        exact ih

theorem find_insert_other {k k' : Nat} (m : Memory) (v : Word) (h : k' ≠ k) :
    (m.insert k v).find k' = m.find k' := by
  induction m with
  | nil => simp [Memory.insert, Memory.find, Ne.symm h]
  | cons p rest ih =>
    obtain ⟨a, u⟩ := p
    simp only [Memory.insert]
    split
    · simp [Memory.find, Ne.symm h]
    · split
      · rename_i hka
        simp [Memory.find, ← hka, Ne.symm h]
      · simp only [Memory.find, ih]

/-- A list is canonical exactly when its keys are strictly rising. -/
theorem wf_iff_pairwise (m : Memory) : m.wf = true ↔ m.Pairwise (fun p q => p.1 < q.1) := by
  induction m with
  | nil => simp [Memory.wf]
  | cons p rest ih =>
    cases rest with
    | nil => simp [Memory.wf]
    | cons q rest =>
      obtain ⟨a, v⟩ := p
      obtain ⟨b, w⟩ := q
      simp only [Memory.wf, Bool.and_eq_true, decide_eq_true_eq, ih]
      constructor
      · rintro ⟨hab, hp⟩
        refine List.pairwise_cons.2 ⟨?_, hp⟩
        rintro r hr
        rcases List.mem_cons.1 hr with rfl | hr
        · exact hab
        · exact lt_trans hab ((List.pairwise_cons.1 hp).1 r hr)
      · intro hp
        exact ⟨(List.pairwise_cons.1 hp).1 _ (List.mem_cons_self ..), (List.pairwise_cons.1 hp).2⟩

theorem mem_insert {m : Memory} {k : Nat} {v : Word} {p : Nat × Word} (h : p ∈ m.insert k v) :
    p = (k, v) ∨ p ∈ m := by
  induction m with
  | nil => simpa [Memory.insert] using h
  | cons q rest ih =>
    obtain ⟨a, u⟩ := q
    simp only [Memory.insert] at h
    split at h
    · simpa using h
    · split at h
      · rcases List.mem_cons.1 h with h | h
        · exact .inl h
        · exact .inr (List.mem_cons_of_mem _ h)
      · rcases List.mem_cons.1 h with h | h
        · exact .inr (h ▸ List.mem_cons_self ..)
        · exact (ih h).imp id (List.mem_cons_of_mem _)

/-- A write keeps the canonical form. -/
theorem wf_insert {m : Memory} (k : Nat) (v : Word) (h : m.wf = true) : (m.insert k v).wf = true := by
  rw [wf_iff_pairwise] at h ⊢
  induction m with
  | nil => simp [Memory.insert]
  | cons p rest ih =>
    obtain ⟨a, u⟩ := p
    obtain ⟨ha, hr⟩ := List.pairwise_cons.1 h
    simp only [Memory.insert]
    split
    · rename_i hka
      refine List.pairwise_cons.2 ⟨?_, h⟩
      rintro q hq
      rcases List.mem_cons.1 hq with rfl | hq
      · exact hka
      · exact lt_trans hka (ha q hq)
    · split
      · rename_i hka
        exact List.pairwise_cons.2 ⟨fun q hq => by simpa [hka] using ha q hq, hr⟩
      · rename_i h1 h2
        refine List.pairwise_cons.2 ⟨?_, ih hr⟩
        intro q hq
        rcases mem_insert hq with rfl | hq
        · simp only
          omega
        · exact ha q hq

theorem wf_memWrite {m : Memory} (c i : Nat) (v : Word) (h : m.wf = true) : (memWrite m c i v).wf = true :=
  wf_insert _ v h

/-- A read after a write to the same cell gives the word written. -/
@[simp] theorem memRead_memWrite_same (m : Memory) (c i : Nat) (v : Word) : memRead (memWrite m c i v) c i = v := by
  simp [memRead, memWrite]

/-- A write leaves every other cell alone. -/
theorem memRead_memWrite_other {c i c' i' : Nat} (m : Memory) (v : Word) (hi : i < 2 ^ 32) (hi' : i' < 2 ^ 32)
    (h : ¬(c' = c ∧ i' = i)) : memRead (memWrite m c i v) c' i' = memRead m c' i' := by
  have hk : cellKey c' i' ≠ cellKey c i := fun he => h (cellKey_injective hi' hi he)
  simp [memRead, memWrite, find_insert_other m v hk]

/-- What a cut leaves in the list comes from the list of after, by key. -/
theorem mem_memCut {draw : Nat} {old new : Memory} {p : Nat × Word} (h : p ∈ memCut draw old new) :
    ∃ q ∈ new, q.1 = p.1 := by
  simp only [memCut, List.mem_filterMap] at h
  obtain ⟨q, hq, hp⟩ := h
  refine ⟨q, hq, ?_⟩
  split at hp
  · simp only [Option.map_eq_some_iff] at hp
    obtain ⟨v, -, rfl⟩ := hp
    rfl
  · cases hp
    rfl

/-- A cut keeps the canonical form. -/
theorem wf_memCut {new : Memory} (draw : Nat) (old : Memory) (h : new.wf = true) :
    (memCut draw old new).wf = true := by
  rw [wf_iff_pairwise] at h ⊢
  rw [memCut, List.pairwise_filterMap]
  refine h.imp ?_
  intro p q hpq p' hp' q' hq'
  have key : ∀ r r' : Nat × Word, (if Config.cutKeepsOld draw r.1 then (old.find r.1).map fun v => (r.1, v)
      else some r) = some r' → r'.1 = r.1 := by
    intro r r' hr
    split at hr
    · simp only [Option.map_eq_some_iff] at hr
      obtain ⟨v, -, rfl⟩ := hr
      rfl
    · cases hr
      rfl
  rw [key p p' hp', key q q' hq']
  exact hpq

end Sys2Proof.Machine
end

