-- ==== Sys2Proof/Laws/Block.lean ====
section
/-! SUPPORT. The loops of `BLK` (spec/44_block.md rule R107): what the elementary steps keep, the loops keep, whether
the block completes or faults on the way. -/

namespace Sys2Proof.Machine

/-- A property of both outcomes of a part of `BLK`. -/
def Both (P : State → Prop) : Except State State → Prop
  | .ok s => P s
  | .error s => P s

/-- A property kept by the elementary steps of a block. -/
structure KeptByBlock (N : Num Word) (P : State → Prop) : Prop where
  seq : ∀ s ph n c, P s → P (setSeq s ph n c)
  raised : ∀ s e ch idx, P s → P (raise e Op.blk.code ch idx s)
  targets : ∀ s d t l, P s → P (blkTargets N d t l s)
  latch : ∀ s, P s → P (blkLatch s)
  refreshed : ∀ s c q, P s → circuitUpdate N (getCircuit s c) s.df s.tf = .ok q → P (setCircuit s c q)
  frame : ∀ s n, P s → P (blkFrameStart N n s)
  sample : ∀ s n c, P s → N.isfinite (memRead s.buf c n) = true →
    P { setCircuit s c (circuitProcess N (getCircuit s c) (memRead s.buf c n) s.fd s.ft s.fl).1 with
        buf := memWrite s.buf c n (circuitProcess N (getCircuit s c) (memRead s.buf c n) s.fd s.ft s.fl).2 }

variable {N : Num Word}

theorem blkRefresh_keeps {P : State → Prop} (h : KeptByBlock N P) :
    ∀ count c s, P s → Both P (blkRefresh N count c s)
  | 0, _, _, hs => hs
  | count + 1, c, s, hs => by
    simp only [blkRefresh]
    split
    · exact h.raised _ _ _ _ (h.seq _ _ _ _ hs)
    · rename_i hq
      exact blkRefresh_keeps h count (c + 1) _ (h.refreshed _ _ _ (h.seq _ _ _ _ hs) hq)

theorem blkSample_keeps {P : State → Prop} (h : KeptByBlock N P) (n c : Nat) (s : State) (hs : P s) :
    Both P (blkSample N n c s) := by
  have hq := h.seq s .frames n c hs
  simp only [blkSample]
  split
  · rename_i hf
    exact h.sample _ n c hq hf
  · exact h.raised _ _ _ _ hq

theorem blkChannels_keeps {P : State → Prop} (h : KeptByBlock N P) (n : Nat) :
    ∀ count c s, P s → Both P (blkChannels N n count c s)
  | 0, _, _, hs => hs
  | count + 1, c, s, hs => by
    have hp := blkSample_keeps h n c s hs
    simp only [blkChannels]
    split
    · rename_i heq
      rw [heq] at hp
      exact hp
    · rename_i heq
      rw [heq] at hp
      exact blkChannels_keeps h n count (c + 1) _ hp

theorem blkFrames_keeps {P : State → Prop} (h : KeptByBlock N P) (nch : Nat) :
    ∀ count n s, P s → Both P (blkFrames N nch count n s)
  | 0, _, _, hs => hs
  | count + 1, n, s, hs => by
    have hp := blkChannels_keeps h n nch 0 _ (h.frame s n hs)
    simp only [blkFrames]
    split
    · rename_i heq
      rw [heq] at hp
      exact hp
    · rename_i heq
      rw [heq] at hp
      exact blkFrames_keeps h nch count (n + 1) _ hp

/-- A block keeps what its elementary steps keep. -/
theorem runBlock_keeps {P : State → Prop} (h : KeptByBlock N P) (len d t l : Word) (s : State) (hs : P s) :
    Both P (runBlock N len d t l s) := by
  have hr := blkRefresh_keeps h s.nch.toNat 0 _ (h.latch _ (h.targets s d t l hs))
  simp only [runBlock]
  split
  · rename_i heq
    rw [heq] at hr
    exact hr
  · rename_i heq
    rw [heq] at hr
    have hf := blkFrames_keeps h s.nch.toNat len.toNat 0 _ hr
    split
    · rename_i heq'
      rw [heq'] at hf
      exact hf
    · rename_i heq'
      rw [heq'] at hf
      exact h.seq _ _ _ _ hf

/-- The fields no part of a block writes. -/
theorem runBlock_fields (len d t l : Word) (s : State) :
    Both (fun u => u.res = s.res ∧ u.pstCfg = s.pstCfg ∧ u.nch = s.nch ∧ u.blksz = s.blksz ∧ u.par = s.par ∧
      u.port = s.port ∧ u.draws = s.draws ∧ u.cir.length = s.cir.length) (runBlock N len d t l s) := by
  refine runBlock_keeps ⟨?_, ?_, ?_, ?_, ?_, ?_, ?_⟩ len d t l s ⟨rfl, rfl, rfl, rfl, rfl, rfl, rfl, rfl⟩
  · exact fun _ _ _ _ h => h
  · exact fun _ _ _ _ h => h
  · exact fun _ _ _ _ h => h
  · exact fun _ h => h
  · intro u c q h _
    simpa using h
  · exact fun _ _ h => h
  · intro u n c h _
    simpa using h

/-- A block keeps the canonical form of the buffer. -/
theorem runBlock_wf (len d t l : Word) (s : State) (hs : s.buf.wf = true) :
    Both (fun u => u.buf.wf = true) (runBlock N len d t l s) :=
  runBlock_keeps (P := fun u => u.buf.wf = true)
    ⟨fun _ _ _ _ h => h, fun _ _ _ _ h => h, fun _ _ _ _ h => h, fun _ h => h, fun _ _ _ h _ => h, fun _ _ h => h,
      fun _ _ _ h _ => wf_memWrite _ _ _ h⟩ len d t l s hs

end Sys2Proof.Machine
end

