-- ==== Sys2Proof/Laws/Checks.lean ====
section
/-! SUPPORT. The functions of `num32` by name, and the coefficient functions as lists of checks followed by a value
(spec/41_filter.md rule R81, spec/43_circuit.md rule R96, spec/60_exceptions.md rule R123). -/

namespace Sys2Proof.Machine

/-! ### The functions of `num32` -/

@[simp] theorem num32_fadd (p : Params) (a b : Word) : (num32 p).fadd a b = fadd32 a b := rfl
@[simp] theorem num32_fsub (p : Params) (a b : Word) : (num32 p).fsub a b = fsub32 a b := rfl
@[simp] theorem num32_fmul (p : Params) (a b : Word) : (num32 p).fmul a b = fmul32 a b := rfl
@[simp] theorem num32_fdiv (p : Params) (a b : Word) : (num32 p).fdiv a b = fdiv32 a b := rfl
@[simp] theorem num32_fneg (p : Params) (a : Word) : (num32 p).fneg a = fneg32 a := rfl
@[simp] theorem num32_flt (p : Params) (a b : Word) : (num32 p).flt a b = flt32 a b := rfl
@[simp] theorem num32_fle (p : Params) (a b : Word) : (num32 p).fle a b = fle32 a b := rfl
@[simp] theorem num32_feq (p : Params) (a b : Word) : (num32 p).feq a b = feq32 a b := rfl
@[simp] theorem num32_isfinite (p : Params) (a : Word) : (num32 p).isfinite a = isFinite32 a := rfl
@[simp] theorem num32_u2f (p : Params) (n : Nat) : (num32 p).u2f n = u2f32 n := rfl
@[simp] theorem num32_floorN (p : Params) (a : Word) : (num32 p).floorN a = floorN32 a := rfl
@[simp] theorem num32_ftanh (p : Params) (a : Word) : (num32 p).ftanh a = ftanh32 p a := rfl
@[simp] theorem num32_ftan (p : Params) (a : Word) : (num32 p).ftan a = ftan32 p a := rfl
@[simp] theorem num32_c0_8 (p : Params) : (num32 p).c0_8 = 0x3F4CCCCD#32 := rfl
@[simp] theorem num32_c1_2 (p : Params) : (num32 p).c1_2 = 0x3F99999A#32 := rfl
@[simp] theorem num32_c3 (p : Params) : (num32 p).c3 = 0x40400000#32 := rfl
@[simp] theorem num32_c1 (p : Params) : (num32 p).c1 = 0x3F800000#32 := rfl
@[simp] theorem num32_c50 (p : Params) : (num32 p).c50 = 0x42480000#32 := rfl
@[simp] theorem num32_c500 (p : Params) : (num32 p).c500 = 0x43FA0000#32 := rfl
@[simp] theorem num32_c4500 (p : Params) : (num32 p).c4500 = 0x458CA000#32 := rfl
@[simp] theorem num32_c20 (p : Params) : (num32 p).c20 = 0x41A00000#32 := rfl
@[simp] theorem num32_c35 (p : Params) : (num32 p).c35 = 0x420C0000#32 := rfl
@[simp] theorem num32_chalf (p : Params) : (num32 p).chalf = 0x3F000000#32 := rfl
@[simp] theorem num32_cpi (p : Params) : (num32 p).cpi = 0x40490FDB#32 := rfl
@[simp] theorem num32_zero (p : Params) : (num32 p).zero = 0#32 := rfl
@[simp] theorem unitRange_num32 (p : Params) (v : Word) : unitRange (num32 p) v = inUnit v := rfl

/-! ### Checks, then a value -/

theorem firstFailure_append (a b : List (Bool × Cause)) :
    firstFailure (a ++ b) = match firstFailure a with
      | some e => some e
      | none => firstFailure b := by
  induction a with
  | nil => rfl
  | cons p r ih =>
    obtain ⟨ok, e⟩ := p
    cases ok <;> simp [firstFailure, ih]

/-- `coef` is its checks, then its value. -/
theorem coef_eq_checks (p : Params) (kind : FilterKind) (fs fc : Word) :
    coef (num32 p) kind fs fc = match firstFailure (coefChecks p fs fc) with
      | some e => .error e
      | none => .ok (coefValue p kind fs fc) := by
  have hv : coefSet (num32 p) kind (ftan32 p (coefAngle (num32 p) fs fc)) = coefValue p kind fs fc := by
    cases kind <;> rfl
  have hneg : fneg32 0x3F800000#32 = 0xBF800000#32 := by decide
  simp only [coef, rateOk, insideUnit, coefFeedback, num32_isfinite, num32_flt, num32_zero, num32_fmul, num32_chalf,
    num32_ftan, num32_fdiv, num32_fsub, num32_fadd, num32_c1, num32_fneg, hneg, hv]
  rfl

/-- `circuit_coefs` is its checks, then its three sets. -/
theorem circuitCoefs_eq_checks (p : Params) (fs tone : Word) :
    circuitCoefs (num32 p) fs tone = match firstFailure (circuitChecks p fs tone) with
      | some e => .error e
      | none => .ok (bankOf p fs tone) := by
  have h1 := coef_eq_checks p .highPass fs 0x41A00000#32
  have h2 := coef_eq_checks p .lowPass fs (toneHz tone)
  have h3 := coef_eq_checks p .highPass fs 0x420C0000#32
  simp only [circuitCoefs, circuitChecks, firstFailure_append, num32_c20, num32_c35]
  rw [show toneCutoff (num32 p) tone = toneHz tone from rfl, h1, h2, h3]
  cases firstFailure (coefChecks p fs 0x41A00000#32) <;> simp
  cases firstFailure (coefChecks p fs (toneHz tone)) <;> simp
  cases firstFailure (coefChecks p fs 0x420C0000#32) <;> simp [bankOf]

/-- `circuit_update` is the checks of its circuit's rate, then the nine coefficients written. -/
theorem circuitUpdate_eq_checks (p : Params) (q : Circuit Word) (drive tone : Word) :
    circuitUpdate (num32 p) q drive tone = match firstFailure (circuitChecks p q.fs tone) with
      | some e => .error e
      | none => .ok (withCoefs q (bankOf p q.fs tone)) := by
  simp only [circuitUpdate, circuitCoefs_eq_checks]
  cases firstFailure (circuitChecks p q.fs tone) <;> rfl

theorem coefsExist_iff (p : Params) (fs tone : Word) :
    CoefsExist p fs tone ↔ circuitCoefs (num32 p) fs tone = .ok (bankOf p fs tone) := by
  rw [CoefsExist, circuitCoefs_eq_checks]
  cases firstFailure (circuitChecks p fs tone) <;> simp

/-- The smoother that `smooth_configure` leaves, when the step count fits its register. -/
theorem smoothConfigure_eq (p : Params) (fs win : Word) (q : Smoother Word) (h : floorN32 (fmul32 fs win) < 2 ^ 32) :
    smoothConfigure (num32 p) fs win q = reconfigured fs win q := by
  have hn : (BitVec.ofNat 32 (floorN32 (fmul32 fs win)) == 0#32 || feq32 q.cur q.tgt) = true ↔
      floorN32 (fmul32 fs win) = 0 ∨ feq32 q.cur q.tgt = true := by
    simp only [Bool.or_eq_true, beq_iff_eq, BitVec.toNat_eq, BitVec.toNat_ofNat, Nat.mod_eq_of_lt h, Nat.zero_mod]
  simp only [smoothConfigure, smoothRamp, reconfigured, num32_floorN, num32_fmul, num32_feq, hn]
  split
  · rfl
  · simp only [num32_fdiv, num32_fsub, num32_u2f, BitVec.toNat_ofNat, Nat.mod_eq_of_lt h]

/-- A rate and a cutoff that pass checks (1) to (3) of rule R81, at an angle of `TanSteady`. -/
def angleOk (fs fc : Word) : Bool :=
  let w := fdiv32 (fmul32 0x40490FDB#32 fc) fs
  (isFinite32 fs && flt32 0#32 fs) && (isFinite32 fc && flt32 0#32 fc) && flt32 fc (fmul32 fs 0x3F000000#32) &&
    !signBit w && decide (circuitAngleLo ≤ magBits w) && decide (magBits w ≤ circuitAngleHi)

theorem coefChecks_of_angleOk {p : Params} (ht : TanSteady (ftan32 p)) {fs fc : Word} (h : angleOk fs fc = true) :
    firstFailure (coefChecks p fs fc) = none := by
  simp only [angleOk, Bool.and_eq_true, Bool.not_eq_true', decide_eq_true_eq] at h
  obtain ⟨⟨⟨⟨⟨⟨h1, h1'⟩, h2, h2'⟩, h3⟩, h4⟩, h5⟩, h6⟩ := h
  have hn := ht _ h4 h5 h6
  simp only [tanAccepted, Bool.and_eq_true] at hn
  obtain ⟨⟨⟨h7, h8⟩, h9⟩, h10⟩ := hn
  simp [coefChecks, firstFailure, h1, h1', h2, h2', h3, h7, h8, h9, h10]

/-- The three coefficient sets of a circuit exist where its three cutoffs are at angles of `TanSteady` (log 7). -/
theorem coefsExist_of_angleOk {p : Params} (ht : TanSteady (ftan32 p)) {fs tone : Word}
    (h1 : angleOk fs 0x41A00000#32 = true) (h2 : angleOk fs (toneHz tone) = true)
    (h3 : angleOk fs 0x420C0000#32 = true) : CoefsExist p fs tone := by
  simp only [CoefsExist, circuitChecks, firstFailure_append, coefChecks_of_angleOk ht h1, coefChecks_of_angleOk ht h2,
    coefChecks_of_angleOk ht h3]

end Sys2Proof.Machine
end

