-- ==== Sys2Proof/Laws/BlockRun.lean ====
section
/-! SUPPORT. How far a block has come (spec/44_block.md rule R107, spec/60_exceptions.md rule R126): steps 3 and 4 of `BLK`
walked once, to the end, to the first circuit whose coefficients do not exist, or to the first cell that is not finite.
`Progress` is what is true on the way. -/

namespace Sys2Proof.Machine

/-! ### One channel's samples -/

theorem frameInputs_succ (s : State) (d t l : Word) (c m : Nat) :
    frameInputs s d t l c (m + 1) = frameInputs s d t l c m ++
      [((smoothedAt (num32 s.par) (smoothSetTarget (num32 s.par) d s.sm.drive) m, smoothedAt (num32 s.par) (smoothSetTarget (num32 s.par) t s.sm.tone) m,
        smoothedAt (num32 s.par) (smoothSetTarget (num32 s.par) l s.sm.level) m), cell s c m)] := by
  simp [frameInputs, List.range_succ]

@[simp] theorem frameInputs_zero (s : State) (d t l : Word) (c : Nat) : frameInputs s d t l c 0 = [] := rfl

@[simp] theorem frameInputs_length (s : State) (d t l : Word) (c m : Nat) : (frameInputs s d t l c m).length = m := by
  simp [frameInputs]

/-- One more sample: the circuit moves on from where the samples before left it, the outputs before stay. -/
theorem channelRun_append (N : Num Word) (q : Circuit Word) (xs : List ((Word × Word × Word) × Word)) (v : Word × Word × Word)
    (x : Word) :
    channelRun N q (xs ++ [(v, x)]) =
      ((circuitProcess N (channelRun N q xs).1 x v.1 v.2.1 v.2.2).1,
        (channelRun N q xs).2 ++ [(circuitProcess N (channelRun N q xs).1 x v.1 v.2.1 v.2.2).2]) := by
  induction xs generalizing q with
  | nil => rfl
  | cons p rest ih =>
    obtain ⟨v', x'⟩ := p
    simp only [List.cons_append, channelRun, ih]

@[simp] theorem channelRun_length (N : Num Word) (q : Circuit Word) (xs : List ((Word × Word × Word) × Word)) :
    (channelRun N q xs).2.length = xs.length := by
  induction xs generalizing q with
  | nil => rfl
  | cons p rest ih =>
    obtain ⟨v, x⟩ := p
    simp [channelRun, ih]

/-! ### Step 3 -/

/-- The state in which step 3 begins. -/
theorem blkLatch_blkTargets (d t l : Word) (s : State) :
    blkLatch (blkTargets (num32 s.par) d t l s) =
      { s with
        seq := { phase := .latch, n := 0#32, c := 0#32 }
        sm := { drive := smoothSetTarget (num32 s.par) d s.sm.drive, tone := smoothSetTarget (num32 s.par) t s.sm.tone
                level := smoothSetTarget (num32 s.par) l s.sm.level }
        df := s.sm.drive.cur, tf := s.sm.tone.cur } := by
  have h : ∀ (v : Word) (q : Smoother Word), (smoothSetTarget (num32 s.par) v q).cur = q.cur := by
    intro v q
    simp only [smoothSetTarget, smoothRamp]
    split
    · rfl
    · split <;> rfl
  simp [blkLatch, blkTargets, setSeq, h]

/-- Step 3 up to circuit `c + m`, all of whose predecessors' coefficients exist: it is step 3 from there on, with those
circuits refreshed. -/
theorem blkRefresh_skip (p : Params) (count : Nat) : ∀ (m c : Nat) (s : State), c + m ≤ s.cir.length →
    (∀ j, c ≤ j → j < c + m → CoefsExist p (getCircuit s j).fs s.tf) →
    ∃ u, blkRefresh (num32 p) (m + count) c s = blkRefresh (num32 p) count (c + m) u ∧ u = { s with cir := u.cir, seq := u.seq } ∧
      u.cir.length = s.cir.length ∧
      ∀ j, getCircuit u j =
        if c ≤ j ∧ j < c + m then withCoefs (getCircuit s j) (bankOf p (getCircuit s j).fs s.tf) else getCircuit s j
  | 0, c, s, _, _ => by
    refine ⟨s, by simp, rfl, rfl, fun j => ?_⟩
    rw [if_neg]
    omega
  | m + 1, c, s, hl, h => by
    have hc := h c (Nat.le_refl c) (by omega)
    have hstep : ∀ count', blkRefresh (num32 p) (count' + 1) c s =
        blkRefresh (num32 p) count' (c + 1) (setCircuit (setSeq s .refresh 0 c) c
          (withCoefs (getCircuit s c) (bankOf p (getCircuit s c).fs s.tf))) := by
      intro count'
      rw [CoefsExist] at hc
      simp only [blkRefresh]
      rw [circuitUpdate_eq_checks]
      simp only [getCircuit_setSeq, setSeq_tf]
      rw [hc]
    obtain ⟨u, hu, hfields, hlen, hcir⟩ := blkRefresh_skip p count m (c + 1)
      (setCircuit (setSeq s .refresh 0 c) c (withCoefs (getCircuit s c) (bankOf p (getCircuit s c).fs s.tf)))
      (by rw [length_setCircuit, setSeq_cir]; omega) (by
        intro j hj hj'
        rw [getCircuit_setCircuit_other _ _ (by omega)]
        exact h j (by omega) (by omega))
    refine ⟨u, ?_, ?_, ?_, ?_⟩
    · rw [show m + 1 + count = (m + count) + 1 by omega, hstep, hu, show c + 1 + m = c + (m + 1) by omega]
    · rw [hfields]; rfl
    · rw [hlen, length_setCircuit]; rfl
    · intro j
      rw [hcir]
      by_cases hj : j = c
      · subst hj
        rw [if_neg (by omega), if_pos (by omega), getCircuit_setCircuit_same]
        simp
        omega
      · rw [getCircuit_setCircuit_other _ _ hj]
        simp only [getCircuit_setSeq, setCircuit_tf, setSeq_tf]
        by_cases hin : c + 1 ≤ j ∧ j < c + 1 + m
        · rw [if_pos hin, if_pos (by omega)]
        · rw [if_neg hin, if_neg (by omega)]

/-! ### Step 4 -/

/-- What is true in a block that starts in `s`, after the smoothers have advanced `adv` times and channel `c` has
processed `done c` samples: nothing but the smoothers, the latches, the sequencer, the circuits and the cells has
changed, and these are what the samples processed so far leave. -/
structure Progress (s : State) (d t l : Word) (adv : Nat) (done : Nat → Nat) (u : State) : Prop where
  fields : u = { s with
    sm := { drive := (smoothNext (num32 s.par))^[adv] (smoothSetTarget (num32 s.par) d s.sm.drive)
            tone := (smoothNext (num32 s.par))^[adv] (smoothSetTarget (num32 s.par) t s.sm.tone)
            level := (smoothNext (num32 s.par))^[adv] (smoothSetTarget (num32 s.par) l s.sm.level) }
    cir := u.cir, buf := u.buf, seq := u.seq, df := s.sm.drive.cur, tf := s.sm.tone.cur, fd := u.fd, ft := u.ft
    fl := u.fl }
  length : u.cir.length = s.cir.length
  circuit : ∀ c, c < s.nch.toNat → getCircuit u c = (channelRun (num32 s.par) (refreshed s c) (frameInputs s d t l c (done c))).1
  output : ∀ c, c < s.nch.toNat → ∀ n, n < done c →
    (channelRun (num32 s.par) (refreshed s c) (frameInputs s d t l c (done c))).2[n]? = some (cell u c n)
  ahead : ∀ c, c < s.nch.toNat → ∀ n, done c ≤ n → n < 2 ^ 32 → cell u c n = cell s c n
  outside : ∀ c, s.nch.toNat ≤ c → getCircuit u c = getCircuit s c ∧ ∀ n, n < 2 ^ 32 → cell u c n = cell s c n

/-- The frame latches hold the smoothed values of frame `n` (rule R32). -/
def Latched (s : State) (d t l : Word) (n : Nat) (u : State) : Prop :=
  u.fd = smoothedAt (num32 s.par) (smoothSetTarget (num32 s.par) d s.sm.drive) n ∧ u.ft = smoothedAt (num32 s.par) (smoothSetTarget (num32 s.par) t s.sm.tone) n ∧
    u.fl = smoothedAt (num32 s.par) (smoothSetTarget (num32 s.par) l s.sm.level) n

/-- The samples done when channel `c` of frame `n` is next. -/
def doneAt (n c : Nat) : Nat → Nat := fun c' => if c' < c then n + 1 else n

variable {s : State} {d t l : Word}

theorem Progress.congr {adv : Nat} {done done' : Nat → Nat} {u : State} (h : Progress s d t l adv done u)
    (he : ∀ c, c < s.nch.toNat → done c = done' c) : Progress s d t l adv done' u :=
  { fields := h.fields, length := h.length
    circuit := fun c hc => he c hc ▸ h.circuit c hc
    output := fun c hc => he c hc ▸ h.output c hc
    ahead := fun c hc => he c hc ▸ h.ahead c hc
    outside := h.outside }

/-- A frame begins: the smoothers advance and the latches take their values. -/
theorem Progress.frameStart {n : Nat} {done : Nat → Nat} {u : State} (h : Progress s d t l n done u) :
    Progress s d t l (n + 1) done (blkFrameStart (num32 s.par) n u) ∧ Latched s d t l n (blkFrameStart (num32 s.par) n u) := by
  have hf := h.fields
  have hsm : u.sm = { drive := (smoothNext (num32 s.par))^[n] (smoothSetTarget (num32 s.par) d s.sm.drive)
                      tone := (smoothNext (num32 s.par))^[n] (smoothSetTarget (num32 s.par) t s.sm.tone)
                      level := (smoothNext (num32 s.par))^[n] (smoothSetTarget (num32 s.par) l s.sm.level) } := by rw [hf]
  refine ⟨⟨?_, h.length, h.circuit, h.output, h.ahead, h.outside⟩, ?_⟩
  · conv_lhs => rw [hf]
    simp only [blkFrameStart, setSeq, hsm, Function.iterate_succ_apply']
  · simp only [Latched, blkFrameStart, setSeq_sm, hsm, smoothedAt, Function.iterate_succ_apply', and_self]

/-- One sample of the channel that is next, its cell finite. -/
theorem Progress.sample {adv n c : Nat} {u : State} (h : Progress s d t l adv (doneAt n c) u)
    (hl : Latched s d t l n u) (hc : c < s.nch.toNat) (hlen : s.nch.toNat ≤ s.cir.length) (hn : n < 2 ^ 32)
    (hfin : isFinite32 (cell s c n) = true) :
    ∃ u', blkSample (num32 s.par) n c u = .ok u' ∧ Progress s d t l adv (doneAt n (c + 1)) u' ∧ Latched s d t l n u' := by
  have hcell : memRead u.buf c n = cell s c n := h.ahead c hc n (by simp [doneAt]) hn
  have hcir := h.circuit c hc
  have hdone : doneAt n c c = n := by simp [doneAt]
  have hdone' : doneAt n (c + 1) c = n + 1 := by simp [doneAt]
  have hother : ∀ c', c' ≠ c → doneAt n (c + 1) c' = doneAt n c c' := by
    intro c' hne
    simp only [doneAt]
    by_cases h1 : c' < c
    · rw [if_pos h1, if_pos (by omega)]
    · rw [if_neg h1, if_neg (by omega)]
  rw [hdone] at hcir
  have hrun : channelRun (num32 s.par) (refreshed s c) (frameInputs s d t l c (n + 1)) =
      ((circuitProcess (num32 s.par) (getCircuit u c) (cell s c n) u.fd u.ft u.fl).1,
        (channelRun (num32 s.par) (refreshed s c) (frameInputs s d t l c n)).2 ++
          [(circuitProcess (num32 s.par) (getCircuit u c) (cell s c n) u.fd u.ft u.fl).2]) := by
    rw [frameInputs_succ, channelRun_append, ← hcir, ← hl.1, ← hl.2.1, ← hl.2.2]
  have hcl : c < u.cir.length := by rw [h.length]; omega
  refine ⟨_, by simp only [blkSample, setSeq_buf, asF, hcell, num32_isfinite, hfin, if_true]; rfl, ⟨?_, ?_, ?_, ?_, ?_, ?_⟩,
    ?_⟩
  · conv_lhs => rw [h.fields]
    simp [setCircuit, setSeq]
    exact ⟨rfl, rfl⟩
  · simp [h.length]
  · intro c' hc'
    by_cases he : c' = c
    · subst he
      rw [hdone', hrun]
      simp [getCircuit, setCircuit, hcl]
    · rw [hother c' he]
      refine Eq.trans ?_ (h.circuit c' hc')
      exact getCircuit_setCircuit_other _ _ he
  · intro c' hc' m hm
    by_cases he : c' = c
    · subst he
      rw [hdone', hrun]
      rw [hdone'] at hm
      rcases Nat.lt_or_ge m n with hlt | hge
      · have hold := h.output c' hc' m (by rw [hdone]; exact hlt)
        rw [hdone] at hold
        rw [List.getElem?_append_left (by simpa using hlt), hold]
        simp only [cell]
        rw [memRead_memWrite_other _ _ hn (by omega) (by omega)]
        rfl
      · have : m = n := by omega
        subst this
        rw [List.getElem?_append_right (by simp)]
        simp [cell, bitsF, memRead_memWrite_same]
    · rw [hother c' he] at hm ⊢
      have hold := h.output c' hc' m hm
      rw [hold]
      simp only [cell]
      have hm' : m < 2 ^ 32 := by
        have : doneAt n c c' ≤ n + 1 := by
          simp only [doneAt]
          split <;> omega
        omega
      rw [memRead_memWrite_other _ _ hn hm' (by omega)]
      rfl
  · intro c' hc' m hm hm'
    have hm2 : doneAt n c c' ≤ m ∧ ¬(c' = c ∧ m = n) := by
      by_cases he : c' = c
      · subst he
        rw [hdone'] at hm
        rw [hdone]
        omega
      · rw [hother c' he] at hm
        exact ⟨hm, fun hh => he hh.1⟩
    rw [← h.ahead c' hc' m hm2.1 hm']
    exact memRead_memWrite_other _ _ hn hm' hm2.2
  · intro c' hc'
    have hne : c' ≠ c := by omega
    refine ⟨?_, ?_⟩
    · rw [← (h.outside c' hc').1]
      exact getCircuit_setCircuit_other _ _ hne
    · intro m hm
      rw [← (h.outside c' hc').2 m hm]
      exact memRead_memWrite_other _ _ hn hm (by omega)
  · exact hl

/-- The sample of a cell that is not finite faults, and the state is the state before but for what a fault writes. -/
theorem Progress.sampleFault {adv n c : Nat} {u : State} (h : Progress s d t l adv (doneAt n c) u)
    (hc : c < s.nch.toNat) (hn : n < 2 ^ 32) (hfin : isFinite32 (cell s c n) = false) :
    blkSample (num32 s.par) n c u = .error (raise .pvNonfinite Op.blk.code (BitVec.ofNat 8 c) (BitVec.ofNat 32 n) u) := by
  have hcell : memRead u.buf c n = cell s c n := h.ahead c hc n (by simp [doneAt]) hn
  simp only [blkSample, setSeq_buf, asF, hcell, num32_isfinite, hfin]
  rfl

/-- The channels of a frame from `c` on, their cells finite. -/
theorem Progress.channels {adv n : Nat} (hlen : s.nch.toNat ≤ s.cir.length) (hn : n < 2 ^ 32) :
    ∀ (m rest c : Nat) (u : State), Progress s d t l adv (doneAt n c) u → Latched s d t l n u → c + m ≤ s.nch.toNat →
      (∀ c', c ≤ c' → c' < c + m → isFinite32 (cell s c' n) = true) →
      ∃ u', blkChannels (num32 s.par) n (m + rest) c u = blkChannels (num32 s.par) n rest (c + m) u' ∧ Progress s d t l adv (doneAt n (c + m)) u' ∧
        Latched s d t l n u'
  | 0, rest, c, u, h, hl, _, _ => ⟨u, by simp, h, hl⟩
  | m + 1, rest, c, u, h, hl, hc, hfin => by
    obtain ⟨u1, hu1, hp1, hl1⟩ := h.sample hl (by omega) hlen hn (hfin c (Nat.le_refl c) (by omega))
    obtain ⟨u2, hu2, hp2, hl2⟩ := Progress.channels hlen hn m rest (c + 1) u1 hp1 hl1 (by omega)
      (fun c' h1 h2 => hfin c' (by omega) (by omega))
    refine ⟨u2, ?_, ?_, hl2⟩
    · rw [show m + 1 + rest = (m + rest) + 1 by omega, blkChannels, hu1]
      simp only
      rw [hu2, show c + 1 + m = c + (m + 1) by omega]
    · rw [show c + (m + 1) = c + 1 + m by omega]
      exact hp2

/-- The frames from `n` on, all their cells finite. -/
theorem Progress.frames (hlen : s.nch.toNat ≤ s.cir.length) :
    ∀ (m rest n : Nat) (u : State), Progress s d t l n (doneAt n 0) u → n + m ≤ 2 ^ 32 →
      (∀ n' c, n ≤ n' → n' < n + m → c < s.nch.toNat → isFinite32 (cell s c n') = true) →
      ∃ u', blkFrames (num32 s.par) s.nch.toNat (m + rest) n u = blkFrames (num32 s.par) s.nch.toNat rest (n + m) u' ∧
        Progress s d t l (n + m) (doneAt (n + m) 0) u' ∧
        (m = 0 → u' = u) ∧ (∀ m', m = m' + 1 → Latched s d t l (n + m') u')
  | 0, rest, n, u, h, _, _ => ⟨u, by simp, h, fun _ => rfl, fun _ h => by omega⟩
  | m + 1, rest, n, u, h, hn, hfin => by
    obtain ⟨hp0, hl0⟩ := h.frameStart
    obtain ⟨u1, hu1, hp1, hl1⟩ := Progress.channels hlen (n := n) (by omega) s.nch.toNat 0 0 _ hp0 hl0 (by omega)
      (fun c' _ h2 => hfin n c' (Nat.le_refl n) (by omega) (by omega))
    have hp1' : Progress s d t l (n + 1) (doneAt (n + 1) 0) u1 :=
      hp1.congr fun c hc => by simp [doneAt, hc]
    obtain ⟨u2, hu2, hp2, hz, hl2⟩ := Progress.frames hlen m rest (n + 1) u1 hp1' (by omega)
      (fun n' c h1 h2 h3 => hfin n' c (by omega) (by omega) h3)
    refine ⟨u2, ?_, ?_, fun h => by omega, ?_⟩
    · rw [show m + 1 + rest = (m + rest) + 1 by omega, blkFrames]
      rw [Nat.add_zero] at hu1
      rw [hu1]
      simp only [blkChannels]
      rw [hu2, show n + 1 + m = n + (m + 1) by omega]
    · rw [show n + (m + 1) = n + 1 + m by omega]
      exact hp2
    · intro m' hm'
      have hm : m = m' := by omega
      subst hm
      cases m with
      | zero =>
        rw [hz rfl]
        exact hl1
      | succ m'' =>
        have := hl2 m'' rfl
        rw [show n + (m'' + 1) = n + 1 + m'' by omega]
        exact this

/-! ### The whole block -/

/-- Step 3 done for every circuit: no sample is processed yet, and what remains of the block is step 4. -/
theorem runBlock_refreshed (len : Word) (hlen : s.nch.toNat ≤ s.cir.length) (h : RefreshSucceeds s s.nch.toNat) :
    ∃ u, Progress s d t l 0 (doneAt 0 0) u ∧ (u.fd = s.fd ∧ u.ft = s.ft ∧ u.fl = s.fl) ∧
      runBlock (num32 s.par) len d t l s = match blkFrames (num32 s.par) s.nch.toNat len.toNat 0 u with
        | .error s' => .error s'
        | .ok s2 => .ok (setSeq s2 .idle 0 0) := by
  obtain ⟨u, hu, hf, hl, hc⟩ := blkRefresh_skip s.par 0 s.nch.toNat 0 (blkLatch (blkTargets (num32 s.par) d t l s))
    (by rw [blkLatch_blkTargets]; simpa using hlen) (by
      intro j _ hj
      rw [blkLatch_blkTargets]
      exact h j (by omega))
  have hu' : blkRefresh (num32 s.par) s.nch.toNat 0 (blkLatch (blkTargets (num32 s.par) d t l s)) = .ok u := by
    rw [Nat.add_zero] at hu
    rw [hu, blkRefresh]
  rw [blkLatch_blkTargets] at hf hl hc
  have hcir : ∀ c, getCircuit u c = if c < s.nch.toNat then refreshed s c else getCircuit s c := by
    intro c
    rw [hc]
    by_cases hlt : c < s.nch.toNat
    · rw [if_pos (by omega), if_pos hlt]
      rfl
    · rw [if_neg (by omega), if_neg hlt]
      rfl
  have hbuf : u.buf = s.buf := by rw [hf]
  refine ⟨u, ⟨?_, hl, ?_, ?_, ?_, ?_⟩, ?_, ?_⟩
  · conv_lhs => rw [hf]
    simp only [Function.iterate_zero, id_eq, hbuf]
    congr 1 <;> rw [hf]
  · intro c hcn
    rw [hcir, if_pos hcn]
    simp [doneAt, channelRun]
  · intro c hcn n hn
    simp [doneAt] at hn
  · intro c _ n _ _
    rw [cell, hbuf]
    rfl
  · intro c hcn
    rw [hcir, if_neg (by omega)]
    refine ⟨rfl, fun n _ => ?_⟩
    rw [cell, hbuf]
    rfl
  · rw [hf]
    exact ⟨rfl, rfl, rfl⟩
  · simp only [runBlock, hu'] <;> cases blkFrames (num32 s.par) s.nch.toNat len.toNat 0 u <;> rfl

/-- A block whose circuits all refresh and whose cells are all finite completes. -/
theorem runBlock_completes (len : Word) (hlen : s.nch.toNat ≤ s.cir.length) (h : RefreshSucceeds s s.nch.toNat)
    (hfin : SamplesFinite s len) :
    ∃ u, runBlock (num32 s.par) len d t l s = .ok (setSeq u .idle 0 0) ∧ Progress s d t l len.toNat (doneAt len.toNat 0) u ∧
      (len.toNat = 0 → u.fd = s.fd ∧ u.ft = s.ft ∧ u.fl = s.fl) ∧
      ∀ n, len.toNat = n + 1 → Latched s d t l n u := by
  obtain ⟨u0, hp0, hfd, hrun⟩ := runBlock_refreshed (d := d) (t := t) (l := l) len hlen h
  obtain ⟨u, hu, hp, hz, hl⟩ := Progress.frames hlen len.toNat 0 0 u0 hp0 (by have := len.isLt; omega)
    (fun n c _ hn hc => hfin c n hc (by omega))
  simp only [Nat.add_zero, Nat.zero_add] at hu hp hl
  rw [hu] at hrun
  refine ⟨u, hrun, hp, fun h0 => ?_, hl⟩
  rw [hz h0]
  exact hfd

/-- A block whose circuits all refresh faults at the first cell that is not finite. -/
theorem runBlock_sampleFault (len : Word) {c0 n0 : Nat} (hlen : s.nch.toNat ≤ s.cir.length)
    (h : RefreshSucceeds s s.nch.toNat) (hc0 : c0 < s.nch.toNat) (hn0 : n0 < len.toNat)
    (hbad : isFinite32 (cell s c0 n0) = false)
    (hfin : ∀ c n, c < s.nch.toNat → n < n0 ∨ (n = n0 ∧ c < c0) → isFinite32 (cell s c n) = true) :
    ∃ u, runBlock (num32 s.par) len d t l s =
        .error (raise .pvNonfinite Op.blk.code (BitVec.ofNat 8 c0) (BitVec.ofNat 32 n0) u) ∧
      Progress s d t l (n0 + 1) (doneAt n0 c0) u ∧ Latched s d t l n0 u := by
  have hlt := len.isLt
  obtain ⟨u0, hp0, -, hrun⟩ := runBlock_refreshed (d := d) (t := t) (l := l) len hlen h
  obtain ⟨u1, hu1, hp1, -, -⟩ := Progress.frames hlen n0 (len.toNat - n0 - 1 + 1) 0 u0 hp0 (by omega)
    (fun n c _ hn hc => hfin c n hc (by omega))
  simp only [Nat.zero_add] at hu1 hp1
  obtain ⟨hp2, hl2⟩ := hp1.frameStart
  obtain ⟨u, hu, hp, hl⟩ := Progress.channels hlen (n := n0) (by omega) c0 (s.nch.toNat - c0 - 1 + 1) 0 _ hp2 hl2
    (by omega) (fun c _ hc => hfin c n0 (by omega) (by omega))
  simp only [Nat.zero_add] at hu hp
  refine ⟨u, ?_, hp, hl⟩
  rw [hrun, show len.toNat = n0 + (len.toNat - n0 - 1 + 1) by omega, hu1]
  simp only [blkFrames]
  rw [show s.nch.toNat = c0 + (s.nch.toNat - c0 - 1 + 1) by omega, hu]
  simp only [blkChannels, hp.sampleFault hc0 (by omega) hbad]

/-- A block faults at the first circuit whose coefficients do not exist. -/
theorem runBlock_refreshFault (len : Word) {c0 : Nat} {e : Cause} (hlen : s.nch.toNat ≤ s.cir.length)
    (hc0 : c0 < s.nch.toNat) (h : RefreshSucceeds s c0)
    (hbad : firstFailure (circuitChecks s.par (getCircuit s c0).fs s.sm.tone.cur) = some e) :
    ∃ u, runBlock (num32 s.par) len d t l s = .error (raise e Op.blk.code (BitVec.ofNat 8 c0) 0#32 u) ∧
      u = { blkLatch (blkTargets (num32 s.par) d t l s) with cir := u.cir, seq := u.seq } ∧
      ∀ c, getCircuit u c = if c < c0 then refreshed s c else getCircuit s c := by
  obtain ⟨u, hu, hf, hl, hc⟩ := blkRefresh_skip s.par (s.nch.toNat - c0 - 1 + 1) c0 0 (blkLatch (blkTargets (num32 s.par) d t l s))
    (by rw [blkLatch_blkTargets]; simp; omega) (by
      intro j _ hj
      rw [blkLatch_blkTargets]
      exact h j (by omega))
  simp only [Nat.zero_add] at hu hc
  have hcir : ∀ c, getCircuit u c = if c < c0 then refreshed s c else getCircuit s c := by
    intro c
    rw [hc, blkLatch_blkTargets]
    by_cases hlt : c < c0
    · rw [if_pos (by omega), if_pos hlt]
      rfl
    · rw [if_neg (by omega), if_neg hlt]
      rfl
  refine ⟨u, ?_, hf, hcir⟩
  have htf : u.tf = s.sm.tone.cur := by rw [hf, blkLatch_blkTargets]
  have hcc : getCircuit u c0 = getCircuit s c0 := by rw [hcir, if_neg (by omega)]
  have hfault : blkRefresh (num32 s.par) s.nch.toNat 0 (blkLatch (blkTargets (num32 s.par) d t l s)) =
      .error (raise e Op.blk.code (BitVec.ofNat 8 c0) 0#32 u) := by
    rw [show s.nch.toNat = c0 + (s.nch.toNat - c0 - 1 + 1) by omega, hu]
    simp only [blkRefresh, circuitUpdate_eq_checks, getCircuit_setSeq, setSeq_tf, hcc, htf, hbad]
    rfl
  simp only [runBlock, hfault]

/-- A block whose checks pass is its four steps. -/
theorem execBlk_of_accepted {len : Word} (h : BlockAccepted s len d t l) :
    execBlk len d t l s = match runBlock (num32 s.par) len d t l s with
      | .error s' => .next s'
      | .ok s' => .next s' := by
  obtain ⟨h1, h2, h3, ⟨h4, h5, h6⟩, ⟨h7, h8, h9⟩, h10⟩ := h
  simp [execBlk, blkIn, h1, h2, h3, firstFailure, asF, h4, h5, h6, h7, h8, h9, h10] <;> cases runBlock (num32 s.par) len d t l s <;> rfl

/-- The circuits a block names exist. -/
theorem BlockAccepted.circuits {len : Word} (h : BlockAccepted s len d t l) : s.nch.toNat ≤ s.cir.length := by
  have hb := h.bounds
  simp only [blockInBounds, Bool.and_eq_true, decide_eq_true_eq] at hb
  omega

end Sys2Proof.Machine
end

