-- ==== Sys2Proof/Laws/Exec.lean ====
section
/-! SUPPORT. One inversion lemma for each command, over any `NUM`: on a core that is not faulted, a meaning answers either
the raise of a check that does not pass or the command's own effect, its checks passed. `execSmcfg` and the others are
the same meanings in `NUM32`, so the lemmas serve for them as they stand. Then what an accepted word and a step can do. -/

namespace Sys2Proof.Machine

variable {N : Num Word} {s t : State}

theorem smcfgIn_cases {k : Knob} {fs win : Word} (hf : isFaulted s = false) (h : smcfgIn N k fs win s = .next t) :
    (∃ e, t = raise e Op.smcfg.code 0#8 0#32 s) ∨
      (rateOk N fs = true ∧ windowOk N win = true ∧ stepsOk N fs win = true ∧
        t = setSm s k (smoothConfigure N fs win (getSm s k))) := by
  simp only [smcfgIn, unlessFaulted_of_running hf] at h
  split at h
  · cases h
    exact .inl ⟨_, rfl⟩
  · rename_i hc
    rw [firstFailure_eq_none] at hc
    cases h
    exact .inr ⟨by simpa [asF] using hc _ (.head _), by simpa [asF] using hc _ (.tail _ (.head _)),
      by simpa [asF] using hc _ (.tail _ (.tail _ (.head _))), rfl⟩

theorem smtgtIn_cases {k : Knob} {v : Word} (hf : isFaulted s = false) (h : smtgtIn N k v s = .next t) :
    (N.isfinite v = false ∧ t = raise .pvNonfinite Op.smtgt.code 0#8 0#32 s) ∨
      (N.isfinite v = true ∧ t = setSm s k (smoothSetTarget N v (getSm s k))) := by
  simp only [smtgtIn, unlessFaulted_of_running hf] at h
  cases hv : N.isfinite v <;> simp [firstFailure, asF, hv, fail] at h <;> simp [h]

theorem execSmcur_eq {k : Knob} (hf : isFaulted s = false) :
    execSmcur k s = .next (setRes0 s (getSm s k).cur) := by
  simp [execSmcur, hf, bitsF]

theorem smnxtIn_eq {k : Knob} (hf : isFaulted s = false) :
    smnxtIn N k s = .next (setRes0 (setSm s k (smoothNext N (getSm s k))) (smoothNext N (getSm s k)).cur) := by
  simp [smnxtIn, hf, bitsF]

theorem coefIn_cases {kind : FilterKind} {fs fc : Word} (hf : isFaulted s = false)
    (h : coefIn N kind fs fc s = .next t) :
    (∃ e, coef N kind fs fc = .error e ∧ t = raise e Op.coef.code 0#8 0#32 s) ∨
      ∃ k, coef N kind fs fc = .ok k ∧ t = setRes s k := by
  simp only [coefIn, unlessFaulted_of_running hf, asF] at h
  split at h
  · rename_i e he
    cases h
    exact .inl ⟨e, he, rfl⟩
  · rename_i k hk
    cases h
    exact .inr ⟨k, hk, rfl⟩

theorem fappIn_cases {c : Byte} {f : FilterIx} {x : Word} (hf : isFaulted s = false)
    (h : fappIn N c f x s = .next t) :
    (∃ e, t = raise e Op.fapp.code c 0#32 s) ∨
      (c.toNat < s.par.nchMax ∧ (getCircuit s c.toNat).rdy = true ∧ N.isfinite x = true ∧
        t = setRes0 (setCircuit s c.toNat (setFilter (getCircuit s c.toNat) f
              (filtStep N (getFilter (getCircuit s c.toNat) f) x)))
            (filtOut N (getFilter (getCircuit s c.toNat) f) x)) := by
  simp only [fappIn, unlessFaulted_of_running hf] at h
  split at h
  · cases h
    exact .inl ⟨_, rfl⟩
  · rename_i hc
    rw [firstFailure_eq_none] at hc
    cases h
    exact .inr ⟨by simpa using hc _ (.head _), by simpa using hc _ (.tail _ (.head _)),
      by simpa [asF] using hc _ (.tail _ (.tail _ (.head _))), rfl⟩

theorem clipIn_cases {x : Word} (hf : isFaulted s = false) (h : clipIn N x s = .next t) :
    (N.isfinite x = false ∧ t = raise .pvNonfinite Op.clip.code 0#8 0#32 s) ∨
      (N.isfinite x = true ∧ t = setRes0 s (clip N x)) := by
  simp only [clipIn, unlessFaulted_of_running hf] at h
  cases hv : N.isfinite x <;> simp [firstFailure, asF, bitsF, hv, fail] at h <;> simp [h]

theorem cprepIn_cases {c : Byte} {fs blksz : Word} (hf : isFaulted s = false)
    (h : cprepIn N c fs blksz s = .next t) :
    (∃ e, t = raise e Op.cprep.code c 0#32 s) ∨
      (c.toNat < s.nch.toNat ∧ rateOk N fs = true ∧ blksz ≠ 0#32 ∧
        ∃ k, circuitCoefs N fs s.par.pdefTone = .ok k ∧
          t = setCircuit s c.toNat (preparedCircuit N fs k)) := by
  simp only [cprepIn, unlessFaulted_of_running hf] at h
  split at h
  · cases h
    exact .inl ⟨_, rfl⟩
  · rename_i hc
    rw [firstFailure_eq_none] at hc
    split at h
    · cases h
      exact .inl ⟨_, rfl⟩
    · rename_i q hq
      cases h
      rw [circuitPrepare_eq_ok_iff] at hq
      obtain ⟨h1, h2, k, hk, rfl⟩ := hq
      exact .inr ⟨by simpa using hc _ (.head _), h1, h2, k, hk, rfl⟩

theorem updfIn_cases {c : Byte} {drive tone : Word} (hf : isFaulted s = false)
    (h : updfIn N c drive tone s = .next t) :
    (∃ e, t = raise e Op.updf.code c 0#32 s) ∨
      (c.toNat < s.par.nchMax ∧ (getCircuit s c.toNat).rdy = true ∧ N.isfinite drive = true ∧ N.isfinite tone = true ∧
        ∃ k, circuitCoefs N (getCircuit s c.toNat).fs tone = .ok k ∧
          t = setCircuit s c.toNat (withCoefs (getCircuit s c.toNat) k)) := by
  simp only [updfIn, unlessFaulted_of_running hf] at h
  split at h
  · cases h
    exact .inl ⟨_, rfl⟩
  · rename_i hc
    rw [firstFailure_eq_none] at hc
    split at h
    · cases h
      exact .inl ⟨_, rfl⟩
    · rename_i q hq
      cases h
      rw [circuitUpdate_eq_ok_iff] at hq
      obtain ⟨k, hk, rfl⟩ := hq
      exact .inr ⟨by simpa using hc _ (.head _), by simpa using hc _ (.tail _ (.head _)),
        by simpa [asF] using hc _ (.tail _ (.tail _ (.head _))),
        by simpa [asF] using hc _ (.tail _ (.tail _ (.tail _ (.head _)))), k, hk, rfl⟩

theorem psmpIn_cases {c : Byte} {x drive tone level : Word} (hf : isFaulted s = false)
    (h : psmpIn N c x drive tone level s = .next t) :
    (∃ e, t = raise e Op.psmp.code c 0#32 s) ∨
      (c.toNat < s.par.nchMax ∧ (getCircuit s c.toNat).rdy = true ∧ N.isfinite x = true ∧ N.isfinite drive = true ∧
        N.isfinite tone = true ∧ N.isfinite level = true ∧
        t = setRes0 (setCircuit s c.toNat (circuitProcess N (getCircuit s c.toNat) x drive tone level).1)
              (circuitProcess N (getCircuit s c.toNat) x drive tone level).2) := by
  simp only [psmpIn, unlessFaulted_of_running hf] at h
  split at h
  · cases h
    exact .inl ⟨_, rfl⟩
  · rename_i hc
    rw [firstFailure_eq_none] at hc
    cases h
    exact .inr ⟨by simpa using hc _ (.head _), by simpa using hc _ (.tail _ (.head _)),
      by simpa [asF] using hc _ (.tail _ (.tail _ (.head _))),
      by simpa [asF] using hc _ (.tail _ (.tail _ (.tail _ (.head _)))),
      by simpa [asF] using hc _ (.tail _ (.tail _ (.tail _ (.tail _ (.head _))))),
      by simpa [asF] using hc _ (.tail _ (.tail _ (.tail _ (.tail _ (.tail _ (.head _)))))), rfl⟩

theorem cfgIn_cases {fs blksz nch : Word} (hf : isFaulted s = false) (h : cfgIn N fs blksz nch s = .next t) :
    (∃ e, t = raise e Op.cfg.code 0#8 0#32 s) ∨
      (rateOk N fs = true ∧ blksz ≠ 0#32 ∧ blksz.toNat ≤ s.par.blkMax ∧ nch ≠ 0#32 ∧ nch.toNat ≤ s.par.nchMax ∧
        stepsOk N fs s.par.windowS = true ∧
        ∃ k, circuitCoefs N fs s.par.pdefTone = .ok k ∧ t = configure N fs blksz nch k s) := by
  simp only [cfgIn, unlessFaulted_of_running hf] at h
  split at h
  · cases h
    exact .inl ⟨_, rfl⟩
  · rename_i hc
    rw [firstFailure_eq_none] at hc
    split at h
    · cases h
      exact .inl ⟨_, rfl⟩
    · rename_i k hk
      split at h
      · cases h
        exact .inl ⟨_, rfl⟩
      · rename_i hs
        rw [firstFailure_eq_none] at hs
        cases h
        have h1 := hc _ (.head _)
        have h2 := hc _ (.tail _ (.head _))
        have h3 := hc _ (.tail _ (.tail _ (.head _)))
        have h4 := hs _ (.head _)
        simp only [asF, Bool.and_eq_true, bne_iff_ne, decide_eq_true_eq] at h1 h2 h3 h4 hk
        exact .inr ⟨h1, h2.1, h2.2, h3.1, h3.2, h4, k, hk, rfl⟩

theorem blkIn_cases {len drive tone level : Word} (hf : isFaulted s = false)
    (h : blkIn N len drive tone level s = .next t) :
    (∃ e, t = raise e Op.blk.code 0#8 0#32 s) ∨
      (s.pstCfg = true ∧ len.toNat ≤ s.blksz.toNat ∧ N.isfinite drive = true ∧ N.isfinite tone = true ∧
        N.isfinite level = true ∧ unitRange N drive = true ∧ unitRange N tone = true ∧
        unitRange N level = true ∧ blockInBounds len s = true ∧
        (runBlock N len drive tone level s = .ok t ∨ runBlock N len drive tone level s = .error t)) := by
  simp only [blkIn, unlessFaulted_of_running hf, asF] at h
  split at h
  · cases h
    exact .inl ⟨_, rfl⟩
  · rename_i hc
    rw [firstFailure_eq_none] at hc
    split at h
    · rename_i hb
      refine .inr ⟨by simpa using hc _ (.head _), by simpa using hc _ (.tail _ (.head _)),
        by simpa using hc _ (.tail _ (.tail _ (.head _))),
        by simpa using hc _ (.tail _ (.tail _ (.tail _ (.head _)))),
        by simpa using hc _ (.tail _ (.tail _ (.tail _ (.tail _ (.head _))))),
        by simpa using hc _ (.tail _ (.tail _ (.tail _ (.tail _ (.tail _ (.head _)))))),
        by simpa using hc _ (.tail _ (.tail _ (.tail _ (.tail _ (.tail _ (.tail _ (.head _))))))),
        by simpa using hc _ (.tail _ (.tail _ (.tail _ (.tail _ (.tail _ (.tail _ (.tail _ (.head _)))))))), hb, ?_⟩
      split at h
      · rename_i he
        cases h
        exact .inr he
      · rename_i he
        cases h
        exact .inl he
    · cases h

theorem execWrs_cases {c : Byte} {idx v : Word} (hf : isFaulted s = false) (h : execWrs c idx v s = .next t) :
    (∃ e, t = raise e Op.wrs.code c 0#32 s) ∨
      (c.toNat < s.par.nchMax ∧ idx.toNat < s.par.blkMax ∧
        t = { s with buf := memWrite s.buf c.toNat idx.toNat v }) := by
  simp only [execWrs, unlessFaulted_of_running hf] at h
  split at h
  · cases h
    exact .inl ⟨_, rfl⟩
  · rename_i hc
    rw [firstFailure_eq_none] at hc
    cases h
    exact .inr ⟨by simpa using hc _ (.head _), by simpa using hc _ (.tail _ (.head _)), rfl⟩

theorem execRds_cases {c : Byte} {idx : Word} (hf : isFaulted s = false) (h : execRds c idx s = .next t) :
    (∃ e, t = raise e Op.rds.code c 0#32 s) ∨
      (c.toNat < s.par.nchMax ∧ idx.toNat < s.par.blkMax ∧ t = setRes0 s (memRead s.buf c.toNat idx.toNat)) := by
  simp only [execRds, unlessFaulted_of_running hf] at h
  split at h
  · cases h
    exact .inl ⟨_, rfl⟩
  · rename_i hc
    rw [firstFailure_eq_none] at hc
    cases h
    exact .inr ⟨by simpa using hc _ (.head _), by simpa using hc _ (.tail _ (.head _)), rfl⟩

/-- The machine's commands are those of the machine over any `NUM`, in `NUM32`. -/
theorem exec_eq_execIn (i : Instr) (s : State) : exec i s = execIn (num32 s.par) i s := by cases i <;> rfl

/-- A faulted core does nothing with a command (spec/60_exceptions.md rule R125), whatever `NUM` is. -/
theorem execIn_of_faulted (i : Instr) (hf : isFaulted s = true) : execIn N i s = .next s := by
  cases i <;> exact unlessFaulted_of_faulted hf

theorem exec_of_faulted (i : Instr) (hf : isFaulted s = true) : exec i s = .next s :=
  (exec_eq_execIn i s).trans (execIn_of_faulted i hf)

/-- What an accepted word can do (spec/30_encoding.md rule R55, spec/60_exceptions.md rule R123). -/
theorem acceptWord_cases {run : Instr → State → Result} {w : Word} (h : acceptWord run w s = .next t) :
    (isFaulted s = true ∧ t = s) ∨
      (isFaulted s = false ∧
        ((∃ w0 why, decodeWords (s.cmdq ++ [w]) = .illegal w0 why ∧
            t = raise .pvIllegal (fieldOpc w0) 0#8 0#32 s) ∨
          (decodeWords (s.cmdq ++ [w]) = .incomplete ∧ t = { s with cmdq := s.cmdq ++ [w] }) ∨
          ∃ i rest, decodeWords (s.cmdq ++ [w]) = .command i rest ∧ run i { s with cmdq := [] } = .next t)) := by
  simp only [acceptWord] at h
  split at h
  · rename_i hf
    cases h
    exact .inl ⟨hf, rfl⟩
  · rename_i hf
    refine .inr ⟨by simpa using hf, ?_⟩
    split at h
    · rename_i w0 why hd
      cases h
      exact .inl ⟨w0, why, hd, rfl⟩
    · rename_i hd
      cases h
      exact .inr (.inl ⟨hd, rfl⟩)
    · rename_i i rest hd
      exact .inr (.inr ⟨i, rest, hd, h⟩)

/-- What the port can do: nothing pending, a word, a `RESET`, a word whose command a `RESET` cuts short. -/
theorem portStep_cases {run : Instr → State → Result} (h : portStep run s = .next t) :
    (s.port = [] ∧ t = s) ∨
      ∃ e rest, s.port = e :: rest ∧
        ((∃ w, e = .word w ∧ acceptWord run w { s with port := rest } = .next t) ∨
          (e = .reset ∧ t = applyReset { s with port := rest }) ∨
          ∃ w u, e = .wordCut w ∧ acceptWord run w { s with port := rest } = .next u ∧
            t = applyResetCut { s with port := rest } u) := by
  simp only [portStep] at h
  split at h
  · rename_i he
    cases h
    exact .inl ⟨he, rfl⟩
  · rename_i e rest he
    refine .inr ⟨e, rest, he, ?_⟩
    cases e with
    | word w => exact .inl ⟨w, rfl, h⟩
    | reset =>
      cases h
      exact .inr (.inl ⟨rfl, rfl⟩)
    | wordCut w =>
      simp only [hostStep, acceptWordCut] at h
      split at h
      · rename_i u hu
        cases h
        exact .inr (.inr ⟨w, u, rfl, hu, rfl⟩)
      · cases h
      · cases h

/-- What a step can do. -/
theorem step_cases (h : step s = .next t) :
    paramsOk s.par = true ∧
      ((s.port = [] ∧ t = s) ∨
        ∃ e rest, s.port = e :: rest ∧
          ((∃ w, e = .word w ∧ acceptWord exec w { s with port := rest } = .next t) ∨
            (e = .reset ∧ t = applyReset { s with port := rest }) ∨
            ∃ w u, e = .wordCut w ∧ acceptWord exec w { s with port := rest } = .next u ∧
              t = applyResetCut { s with port := rest } u)) := by
  simp only [step] at h
  split at h
  · rename_i hp
    exact ⟨hp, portStep_cases h⟩
  · cases h

/-- One step of the machine is one step of the machine over any `NUM`, in `NUM32`. -/
theorem step_eq_stepIn (s : State) : step s = stepIn (num32 s.par) s := by
  have hrun : ∀ w (u : State), u.par = s.par →
      acceptWord exec w u = acceptWord (execIn (num32 s.par)) w u := by
    intro w u hu
    simp only [acceptWord, exec_eq_execIn, hu]
  have hport : portStep exec s = portStep (execIn (num32 s.par)) s := by
    simp only [portStep]
    cases s.port with
    | nil => rfl
    | cons e rest => cases e <;> simp only [hostStep, acceptWordCut, hrun]
  simp only [step, stepIn, paramsOk, hport]

end Sys2Proof.Machine
end

