-- ==== Sys2Proof/Laws/PerInstr.lean ====
section
/-! SUPPORT. Facts about a command as syntax, one lemma for each constructor of Instr. -/

namespace Sys2Proof.Laws

/-- The encoding of `i` has the length that its opcode gives it (spec/30_encoding.md rules R55, R56), its command word
is legal (rule R61), and the decoder reads its fields back. -/
def CommandWordLegal.Statement (i : Instr) : Prop :=
  (encode i).length = 1 + i.op.operandCount ∧ i.wellFormed = true ∧ decodeHead (headWord i.head) = .ok i.head

/-- A head whose fields are 0 but for a channel. -/
theorem decodeHead_channel (o : Op) (c : Byte) (h : o.format = .c) :
    decodeHead (headWord ⟨o, c, 0, 0⟩) = .ok ⟨o, c, 0, 0⟩ := by
  revert c h
  cases o <;> decide

/-- A head whose fields are all 0. -/
theorem decodeHead_zero (o : Op) (h : o.format = .z) : decodeHead (headWord ⟨o, 0, 0, 0⟩) = .ok ⟨o, 0, 0, 0⟩ := by
  revert h
  cases o <;> decide

/-- A head that selects a smoother. -/
theorem decodeHead_knob (o : Op) (k : Knob) (h : o.format = .s) :
    decodeHead (headWord ⟨o, 0, k.sel, 0⟩) = .ok ⟨o, 0, k.sel, 0⟩ ∨ o = .coef := by
  revert h
  cases k <;> cases o <;> decide

/-- A head of `COEF`. -/
theorem decodeHead_coef (kind : FilterKind) :
    decodeHead (headWord ⟨.coef, 0, kind.sel, 0⟩) = .ok ⟨.coef, 0, kind.sel, 0⟩ := by
  cases kind <;> decide

/-- A head of `FAPP`. -/
theorem decodeHead_fapp (c : Byte) (f : FilterIx) :
    decodeHead (headWord ⟨.fapp, c, f.sel, 0⟩) = .ok ⟨.fapp, c, f.sel, 0⟩ := by
  revert c
  cases f <;> decide

theorem CommandWordLegal.cfg (fs blksz nch : Word) : CommandWordLegal.Statement (.cfg fs blksz nch) :=
  ⟨rfl, rfl, decodeHead_zero .cfg rfl⟩

theorem CommandWordLegal.blk (len drive tone level : Word) :
    CommandWordLegal.Statement (.blk len drive tone level) :=
  ⟨rfl, rfl, decodeHead_zero .blk rfl⟩

theorem CommandWordLegal.wrs (c : Byte) (idx v : Word) : CommandWordLegal.Statement (.wrs c idx v) :=
  ⟨rfl, rfl, decodeHead_channel .wrs c rfl⟩

theorem CommandWordLegal.rds (c : Byte) (idx : Word) : CommandWordLegal.Statement (.rds c idx) :=
  ⟨rfl, rfl, decodeHead_channel .rds c rfl⟩

theorem CommandWordLegal.smcfg (k : Knob) (fs win : Word) : CommandWordLegal.Statement (.smcfg k fs win) :=
  ⟨rfl, by cases k <;> rfl, (decodeHead_knob .smcfg k rfl).resolve_right (by decide)⟩

theorem CommandWordLegal.smtgt (k : Knob) (v : Word) : CommandWordLegal.Statement (.smtgt k v) :=
  ⟨rfl, by cases k <;> rfl, (decodeHead_knob .smtgt k rfl).resolve_right (by decide)⟩

theorem CommandWordLegal.smcur (k : Knob) : CommandWordLegal.Statement (.smcur k) :=
  ⟨rfl, by cases k <;> rfl, (decodeHead_knob .smcur k rfl).resolve_right (by decide)⟩

theorem CommandWordLegal.smnxt (k : Knob) : CommandWordLegal.Statement (.smnxt k) :=
  ⟨rfl, by cases k <;> rfl, (decodeHead_knob .smnxt k rfl).resolve_right (by decide)⟩

theorem CommandWordLegal.coef (kind : FilterKind) (fs fc : Word) : CommandWordLegal.Statement (.coef kind fs fc) :=
  ⟨rfl, by cases kind <;> rfl, decodeHead_coef kind⟩

theorem CommandWordLegal.fapp (c : Byte) (f : FilterIx) (x : Word) : CommandWordLegal.Statement (.fapp c f x) :=
  ⟨rfl, by cases f <;> rfl, decodeHead_fapp c f⟩

theorem CommandWordLegal.clip (x : Word) : CommandWordLegal.Statement (.clip x) :=
  ⟨rfl, rfl, decodeHead_zero .clip rfl⟩

theorem CommandWordLegal.cprep (c : Byte) (fs blksz : Word) : CommandWordLegal.Statement (.cprep c fs blksz) :=
  ⟨rfl, rfl, decodeHead_channel .cprep c rfl⟩

theorem CommandWordLegal.updf (c : Byte) (drive tone : Word) : CommandWordLegal.Statement (.updf c drive tone) :=
  ⟨rfl, rfl, decodeHead_channel .updf c rfl⟩

theorem CommandWordLegal.psmp (c : Byte) (x drive tone level : Word) :
    CommandWordLegal.Statement (.psmp c x drive tone level) :=
  ⟨rfl, rfl, decodeHead_channel .psmp c rfl⟩

end Sys2Proof.Laws
end

