-- ==== Sys2Proof/Tests/Slice0.lean ====
section
/-! SUPPORT. The model's own tests, and after them one witness for each statement that has hypotheses. Expected results are
spec/95_test_vectors.md's (the vector is named beside each) or the rules' examples. -/

namespace Sys2Proof.Tests

open Sys2Proof.Machine

/-! ### The decoder -/

/-- V-E1, format Z and C words of the host commands. -/
theorem test_decode_host :
    decodeWords [0x01000000#32, 0x472C4400#32, 0x00000200#32, 0x00000001#32] =
        .command (.cfg 0x472C4400#32 512#32 1#32) [] ∧
      decodeWords [0x02000000#32, 4#32, 0x3F800000#32, 0x3F000000#32, 0x3F800000#32] =
        .command (.blk 4#32 0x3F800000#32 0x3F000000#32 0x3F800000#32) [] ∧
      decodeWords [0x03010000#32, 1#32, 0xBF000000#32] = .command (.wrs 1#8 1#32 0xBF000000#32) [] ∧
      decodeWords [0x04070000#32, 0x00001FFF#32] = .command (.rds 7#8 8191#32) [] := by decide

/-- V-E1, the smoother commands. -/
theorem test_decode_smoother :
    decodeWords [0x10000100#32, 0x447A0000#32, 0x3B83126F#32] =
        .command (.smcfg .tone 0x447A0000#32 0x3B83126F#32) [] ∧
      decodeWords [0x11000200#32, 0x40000000#32] = .command (.smtgt .level 0x40000000#32) [] ∧
      decodeWords [0x12000200#32] = .command (.smcur .level) [] ∧
      decodeWords [0x13000000#32] = .command (.smnxt .drive) [] := by decide

/-- V-E1, the filter and clip commands. -/
theorem test_decode_filter :
    decodeWords [0x20000100#32, 0x472C4400#32, 0x452BE000#32] =
        .command (.coef .lowPass 0x472C4400#32 0x452BE000#32) [] ∧
      decodeWords [0x21000200#32, 0x3F800000#32] = .command (.fapp 0#8 .ohp 0x3F800000#32) [] ∧
      decodeWords [0x30000000#32, 0xBF000000#32] = .command (.clip 0xBF000000#32) [] := by decide

/-- V-E1, the circuit commands. -/
theorem test_decode_circuit :
    decodeWords [0x40010000#32, 0x473B8000#32, 0x00000040#32] = .command (.cprep 1#8 0x473B8000#32 64#32) [] ∧
      decodeWords [0x41000000#32, 0#32, 0x3F800000#32] = .command (.updf 0#8 0#32 0x3F800000#32) [] ∧
      decodeWords [0x42010000#32, 0x3E800000#32, 0x3F800000#32, 0x3F000000#32, 0x3F800000#32] =
        .command (.psmp 1#8 0x3E800000#32 0x3F800000#32 0x3F000000#32 0x3F800000#32) [] := by decide

/-- The same words are what the encoder writes for two of them. -/
theorem test_encode :
    encode (.psmp 1#8 0x3E800000#32 0x3F800000#32 0x3F000000#32 0x3F800000#32) =
        [0x42010000#32, 0x3E800000#32, 0x3F800000#32, 0x3F000000#32, 0x3F800000#32] ∧
      encode (.fapp 255#8 .ohp 0x3F800000#32) = [0x21FF0200#32, 0x3F800000#32] := by decide

/-- The table's numbering: the command word in the low 32 bits, operand words above it, absent bits 0. -/
theorem test_decode_table_word :
    decodeTableWord 32 0x41000000 = some (.updf 0#8 0#32 0#32) ∧
      decodeTableWord 64 (0x3F800000 * 2 ^ 32 + 0x30000000) = some (.clip 0x3F800000#32) ∧
      decodeTableWord 32 0x05000000 = none := by decide

/-- Ill-formed heads, one for each of the clauses (b) to (e) of rule R61, and their well-formed neighbours. -/
theorem test_wellformed_refuses :
    (Head.mk .clip 0 0 1).wellFormed = false ∧ (Head.mk .clip 1 0 0).wellFormed = false ∧
      (Head.mk .smcur 1 0 0).wellFormed = false ∧ (Head.mk .clip 0 1 0).wellFormed = false ∧
      (Head.mk .wrs 0 1 0).wellFormed = false ∧ (Head.mk .smcur 0 3 0).wellFormed = false ∧
      (Head.mk .fapp 0 3 0).wellFormed = false ∧ (Head.mk .coef 0 2 0).wellFormed = false ∧
      (Head.mk .smcur 0 2 0).wellFormed = true ∧ (Head.mk .fapp 255 2 0).wellFormed = true ∧
      (Head.mk .coef 0 1 0).wellFormed = true := by decide

/-- Rule R61, one illegal word for each clause; the all-zero and the all-ones word. -/
theorem test_illegal_words :
    decodeHead 0x05000000#32 = .error .opcode ∧ decodeHead 0x30000001#32 = .error .rsv ∧
      decodeHead 0x30010000#32 = .error .ch ∧ decodeHead 0x03000100#32 = .error .sel ∧
      decodeHead 0x12000300#32 = .error .selRange ∧ decodeHead 0x20000200#32 = .error .selRange ∧
      decodeHead 0x00000000#32 = .error .opcode ∧ decodeHead 0xFFFFFFFF#32 = .error .opcode := by decide

/-! ### One command at a time -/

/-- The state after a command, or the state itself where the command stops. -/
def after (i : Instr) (s : State) : State :=
  match exec i s with
  | .next t => t
  | .fault _ => s
  | .refused _ => s

/-- The first command's fault, as numbers. -/
def faultOf (i : Instr) (s : State) : Nat × Nat × Nat × Nat × Nat :=
  let f := (after i s).fsr
  (f.cls.toNat, f.cause.toNat, f.op.toNat, f.ch.toNat, f.idx.toNat)

/-- A reset core with one smoother replaced. -/
def withSmoother (k : Knob) (cur tgt step : Word) (cnt nsteps : Nat) : State :=
  setSm State.reset k
    { cur := cur, tgt := tgt, step := step, cnt := BitVec.ofNat 32 cnt, nsteps := BitVec.ofNat 32 nsteps
      fs := 0x447A0000#32, win := 0x3B83126F#32 }

/-- A core with `NCH` circuits Ready and the IHP of circuit 0 given. -/
def withFilter (x1 y1 b0 b1 a1 : Word) : State :=
  { State.reset with
    pstCfg := true, nch := 1#32, blksz := 4#32
    cir := State.reset.cir.set 0
      { circuitAtReset with rdy := true, fs := 0x472C4400#32
                            ihp := { x1 := x1, y1 := y1, coefs := { b0 := b0, b1 := b1, a1 := a1 } } } }

/-- V-M1: `SMCFG.drive 1000.0, 0.004` from reset. -/
theorem test_smcfg : (after (.smcfg .drive 0x447A0000#32 0x3B83126F#32) State.reset).sm.drive =
    { cur := 0x3F000000#32, tgt := 0x3F000000#32, step := 0#32, cnt := 0#32, nsteps := 4#32
      fs := 0x447A0000#32, win := 0x3B83126F#32 } := by decide

/-- P4 command 5: a reconfiguration in mid-ramp restarts the ramp from `cur` over the new length. -/
theorem test_smcfg_in_ramp :
    let q := (after (.smcfg .tone 0x44FA0000#32 0x3B83126F#32)
      (withSmoother .tone 0x3F400000#32 0x3F800000#32 0x3E000000#32 2 4)).sm.tone
    q.cur = 0x3F400000#32 ∧ q.cnt = 8#32 ∧ q.nsteps = 8#32 ∧ q.step = 0x3D000000#32 := by decide

/-- V-M1: `SMTGT.drive 1.0`. -/
theorem test_smtgt :
    let q := (after (.smtgt .drive 0x3F800000#32) (withSmoother .drive 0x3F000000#32 0x3F000000#32 0#32 0 4)).sm.drive
    q.tgt = 0x3F800000#32 ∧ q.step = 0x3E000000#32 ∧ q.cnt = 4#32 ∧ q.cur = 0x3F000000#32 := by decide

/-- V-M3: a target equal to the present one, zeros of either sign, changes nothing. -/
theorem test_smtgt_same :
    after (.smtgt .tone 0x80000000#32) (withSmoother .tone 0#32 0#32 0#32 0 0) =
      withSmoother .tone 0#32 0#32 0#32 0 0 := by decide

/-- V-M1: `SMCUR.drive`, the other results kept. -/
theorem test_smcur :
    (after (.smcur .drive) { State.reset with res := ⟨1#32, 2#32, 3#32⟩ }).res = ⟨0x3F000000#32, 2#32, 3#32⟩ := by decide

/-- V-M1: the third `SMNXT.drive`. -/
theorem test_smnxt :
    let t := after (.smnxt .drive) (withSmoother .drive 0x3F400000#32 0x3F800000#32 0x3E000000#32 2 4)
    t.res.r0 = 0x3F600000#32 ∧ t.sm.drive.cnt = 1#32 ∧ t.sm.drive.step = 0x3E000000#32 := by decide

/-- V-M6: the increment that would pass the target lands on it (call 2201). -/
theorem test_smnxt_lands_early :
    let t := after (.smnxt .drive) (withSmoother .drive 0x3F003B00#32 0x3F003AF5#32 0xB75389CF#32 5 2205)
    t.res.r0 = 0x3F003AF5#32 ∧ t.sm.drive.cnt = 0#32 ∧ t.sm.drive.step = 0#32 := by decide

/-- V-F1: cutoff at half the rate. -/
theorem test_coef_nyquist :
    faultOf (.coef .lowPass 0x45FA0000#32 0x457A0000#32) State.reset = (1, 0x04, 0x20, 0, 0) := by decide

/-- V-F1: the sample rate is checked before the cutoff. -/
theorem test_coef_rate_first :
    faultOf (.coef .highPass 0xBF800000#32 0xC0A00000#32) State.reset = (1, 0x01, 0x20, 0, 0) := by decide

/-- V-F2: the second step of the IHP's impulse response. -/
theorem test_fapp :
    let t := after (.fapp 0#8 .ihp 0#32)
      (withFilter 0x3F800000#32 0x3F7FA2C2#32 0x3F7FA2C2#32 0xBF7FA2C2#32 0xBF7F4585#32)
    t.res.r0 = 0xBB3A3700#32 ∧ (getCircuit t 0).ihp.x1 = 0#32 ∧ (getCircuit t 0).ihp.y1 = 0xBB3A3700#32 := by decide

/-- V-F4: the input `-0` on a silent history. -/
theorem test_fapp_zero :
    let t := after (.fapp 0#8 .ihp 0x80000000#32) (withFilter 0#32 0#32 0x3F7FA2C2#32 0xBF7FA2C2#32 0xBF7F4585#32)
    t.res.r0 = 0#32 ∧ (getCircuit t 0).ihp.x1 = 0x80000000#32 := by decide

/-- V-C, the exact rows. -/
theorem test_clip_zeros :
    (after (.clip 0#32) State.reset).res.r0 = 0#32 ∧ (after (.clip 0x80000000#32) State.reset).res.r0 = 0x80000000#32 := by
  decide

/-- V-X: an infinite operand. -/
theorem test_clip_infinite : faultOf (.clip 0x7F800000#32) State.reset = (2, 0x13, 0x30, 0, 0) := by decide

/-- Rule R98: before the first `CFG` no circuit exists; `FSR.ch` is the command's. -/
theorem test_cprep_unconfigured : faultOf (.cprep 3#8 0x473B8000#32 64#32) State.reset = (2, 0x12, 0x40, 3, 0) := by decide

/-- Rule R100: an unprepared circuit, then no such circuit. -/
theorem test_updf_faults :
    faultOf (.updf 7#8 0#32 0#32) State.reset = (2, 0x10, 0x41, 7, 0) ∧
      faultOf (.updf 8#8 0#32 0#32) State.reset = (2, 0x12, 0x41, 8, 0) := by decide

/-- Rule R101 on silence (rule R103 (a)): all seven steps on `+0`, with a level of `-0`. -/
theorem test_psmp_silence :
    let t := after (.psmp 0#8 0#32 0x3F800000#32 0x3F000000#32 0x80000000#32)
      (withFilter 0#32 0#32 0x3F7FA2C2#32 0xBF7FA2C2#32 0xBF7F4585#32)
    t.res.r0 = 0x80000000#32 ∧ t.cir = (withFilter 0#32 0#32 0x3F7FA2C2#32 0xBF7FA2C2#32 0xBF7F4585#32).cir := by
  decide +kernel

/-- Rule R102, the order of its checks: the circuit before the operands. -/
theorem test_psmp_order :
    faultOf (.psmp 1#8 0x7FC00000#32 0#32 0#32 0#32) State.reset = (2, 0x10, 0x42, 1, 0) := by decide

/-- V-X: `CFG 0.0, 0, 0` and `CFG 44100.0, 8193, 1`: the order of the checks, the bound of the block size. -/
theorem test_cfg_order :
    faultOf (.cfg 0#32 0#32 0#32) State.reset = (1, 0x01, 0x01, 0, 0) ∧
      faultOf (.cfg 0x472C4400#32 8193#32 0#32) State.reset = (1, 0x05, 0x01, 0, 0) := by decide

/-- V-X: one channel more than there are. -/
theorem test_cfg_channels : faultOf (.cfg 0x472C4400#32 512#32 9#32) State.reset = (1, 0x06, 0x01, 0, 0) := by decide

/-- P3 command 2. -/
theorem test_blk_unconfigured :
    faultOf (.blk 1#32 0x3F000000#32 0x3F000000#32 0x3F000000#32) State.reset = (2, 0x10, 0x02, 0, 0) := by decide

/-- V-X: the length before the range; finiteness of all targets before the range of any. -/
theorem test_blk_order :
    faultOf (.blk 5#32 0x3FC00000#32 0x3F000000#32 0x3F000000#32) (withFilter 0#32 0#32 0#32 0#32 0#32) =
        (2, 0x11, 0x02, 0, 0) ∧
      faultOf (.blk 0#32 0x3FC00000#32 0x7FC00000#32 0x3F000000#32) (withFilter 0#32 0#32 0#32 0#32 0#32) =
        (2, 0x13, 0x02, 0, 0) := by decide

/-- V-X note (7): the buffer stores any word, the last cell among them. -/
theorem test_wrs_rds :
    (after (.rds 7#8 8191#32) (after (.wrs 7#8 8191#32 0xFFFFFFFF#32) State.reset)).res.r0 = 0xFFFFFFFF#32 := by decide

/-- V-X: the physical bounds. -/
theorem test_wrs_rds_bounds :
    faultOf (.wrs 8#8 0#32 0#32) State.reset = (2, 0x12, 0x03, 8, 0) ∧
      faultOf (.rds 0#8 8192#32) State.reset = (2, 0x11, 0x04, 0, 0) := by decide

/-- The decoder's command is the one that the next step runs. -/
theorem test_first_step :
    step (State.reset.withFetchWord 32 0x12000200) =
      .next { State.reset with res := ⟨0x3F000000#32, 0#32, 0#32⟩ } := by rfl

/-- P3 commands 3 to 5: a faulted core discards words; `RESET` clears it and keeps `BUF`. -/
theorem test_fault_then_reset :
    let faulted := after (.blk 1#32 0#32 0#32 0#32) (after (.wrs 0#8 0#32 0x3F800000#32) State.reset)
    after (.clip 0x3F000000#32) faulted = faulted ∧ isFaulted (applyReset faulted) = false ∧
      cell (applyReset faulted) 0 0 = 0x3F800000#32 := by decide

/-! ### Vectors that need `TANH_CR` or `TAN_CR`

The configuration functions of these instances are given the correctly rounded values at the operands that the vector
reaches, each computed with a correctly rounded library function. -/

/-- `tan` at the three angles of 44100 Hz and tone 0.5, `tanh` at what example R107 reaches. -/
def vectorParams : Params :=
  { Params.working with
    tanFn := some [(0x3ABABEF7, 0x3ABABEFF#32), (0x3B236719, 0x3B23672F#32), (0x3E489B23, 0x3E4B365C#32)]
    tanhFn := some
      { pos := [(0x429BD892, 0x3F800000)]
        neg := [(0x3E34D7B3, 0x3E32FC53), (0x3E354799, 0x3E3368CC - 0x3E32FC53), (0x3E35B7C3, 0x3E33D582 - 0x3E3368CC)]
        loose := [] } }

/-- V-C rows 0.5 and -0.5. -/
theorem test_clip_vector :
    let s := State.powerUp { Params.working with tanhFn := some ⟨[(1, 0x3EEC9A9F)], [(1, 0x3EC288AC)], []⟩ }
    (after (.clip 0x3F000000#32) s).res.r0 = 0x3EEC9A9F#32 ∧ (after (.clip 0xBF000000#32) s).res.r0 = 0xBEE970CF#32 := by
  decide +kernel

/-- Rule R106's example: the coefficients and the ramp length at 44100 Hz. -/
theorem test_cfg_vector :
    let t := after (.cfg 0x472C4400#32 512#32 1#32) (State.powerUp vectorParams)
    coefsOf (getCircuit t 0) = ⟨⟨0x3F7FA2C2#32, 0xBF7FA2C2#32, 0xBF7F4585#32⟩,
      ⟨0x3E29900D#32, 0x3E29900D#32, 0xBF2B37F9#32⟩, ⟨0x3F7F5D00#32, 0xBF7F5D00#32, 0xBF7EBA01#32⟩⟩ ∧
      t.sm.level.nsteps = 2205#32 ∧ (getCircuit t 0).rdy = true ∧ (getCircuit t 1).rdy = false := by decide +kernel

/-- Rule R107's example: four frames of an impulse. -/
theorem test_blk_vector :
    let s := { after (.cfg 0x472C4400#32 4#32 1#32) (State.powerUp vectorParams) with
      buf := [(0, 0x3F800000#32), (1, 0#32), (2, 0#32), (3, 0#32)] }
    (after (.blk 4#32 0x3F800000#32 0x3F000000#32 0x3F800000#32) s).buf =
      [(0, 0x3DA937B9#32), (1, 0x3DF600AB#32), (2, 0x3D3799B3#32), (3, 0xBBAE200E#32)] := by decide +kernel

/-- Rule R81 check (5): where `tan` is so small that `a1` rounds to -1. -/
theorem test_coef_degenerate :
    faultOf (.coef .lowPass 0x472C4400#32 0x41A00000#32)
      (State.powerUp { Params.working with tanFn := some [(0, 0x00000001#32)] }) = (1, 0x08, 0x20, 0, 0) := by
  decide +kernel

/-! ### Two more states for the witnesses -/

/-- An instance whose `ftan` is 1 everywhere, the simplest with `TanSteady`. -/
def steadyParams : Params := { Params.working with tanFn := some [(0, 0x3F800000#32)] }

theorem ftan_steadyParams (a : Word) : ftan32 steadyParams a = 0x3F800000#32 := by
  simp only [ftan32, tanOf, steadyParams, Option.getD_some, valueAt, List.foldl_cons, List.foldl_nil, Nat.zero_le, if_true]
  split
  · rfl
  · rfl

theorem steady_tan : TanSteady (ftan32 steadyParams) := by
  intro a _ _ _
  rw [ftan_steadyParams]
  decide

/-- The coefficients of the tone default exist at 44100 Hz. -/
theorem coefsExist_44100 : CoefsExist steadyParams 0x472C4400#32 0x3F000000#32 :=
  coefsExist_of_angleOk steady_tan (by decide) (by decide) (by decide)

/-- The core after `CFG 44100.0, 4, 2` and the zeros of four cells: P2's configuration. -/
def configuredState : State :=
  { configure (num32 steadyParams) 0x472C4400#32 4#32 2#32 (bankOf steadyParams 0x472C4400#32 0x3F000000#32)
      (State.powerUp steadyParams) with
    buf := [(cellKey 0 0, 0#32), (cellKey 0 1, 0#32), (cellKey 1 0, 0#32), (cellKey 1 1, 0#32)] }

/-- The same core with a word of the caller's in cell (1, 1). -/
def configuredWith (v : Word) : State :=
  { configuredState with buf := memWrite configuredState.buf 1 1 v }

theorem configured_circuit (c : Nat) (h : c < 2) : getCircuit configuredState c =
    preparedCircuit (num32 steadyParams) 0x472C4400#32 (bankOf steadyParams 0x472C4400#32 0x3F000000#32) := by
  interval_cases c <;> rfl

theorem configured_refresh : RefreshSucceeds configuredState configuredState.nch.toNat := by
  intro c hc
  rw [configured_circuit c hc]
  exact coefsExist_44100

theorem configured_samples : SamplesFinite configuredState 2#32 := by
  intro c n hc hn
  have h : ∀ c, c < 2 → ∀ n, n < 2 → isFinite32 (cell configuredState c n) = true := by decide
  exact h c hc n hn

theorem configured_accepts : BlockAccepted configuredState 2#32 0x3F800000#32 0#32 0x3F000000#32 :=
  { running := by decide, configured := rfl, length := by decide, finite := by decide, range := by decide
    bounds := by decide }

theorem configured_prepared (c : Nat) (h : c < 2) : PreparedCircuit steadyParams (getCircuit configuredState c) := by
  rw [configured_circuit c h]
  exact ⟨by decide, 0x3F000000#32, (coefsExist_iff _ _ _).mp coefsExist_44100⟩

/-- The configured core meets the invariant. -/
theorem configured_inv : Inv configuredState where
  params := by decide
  circuits := by decide
  unconfigured := by decide
  nch_le := by decide
  blksz_le := by decide
  ready := by decide
  prepared := configured_prepared
  smoothers := by
    intro k
    cases k <;> exact ⟨by decide, by decide, by decide, by decide, by decide, by unfold rampTowardTarget; decide⟩
  sequencer := rfl
  assembling := rfl
  status := .inl rfl
  canonical := by decide
  inRange := by
    intro kv h
    simp only [configuredState, List.mem_cons, List.not_mem_nil, or_false] at h
    rcases h with rfl | rfl | rfl | rfl
    · exact ⟨0, 0, by decide, by decide, rfl⟩
    · exact ⟨0, 1, by decide, by decide, rfl⟩
    · exact ⟨1, 0, by decide, by decide, rfl⟩
    · exact ⟨1, 1, by decide, by decide, rfl⟩

/-- A block of two frames on the configured core completes. -/
theorem configured_block : ∃ t, exec (.blk 2#32 0x3F800000#32 0#32 0x3F000000#32) configuredState = .next t ∧
    endsNormally t := by
  obtain ⟨u, hu, hp, -, -⟩ := runBlock_completes (d := 0x3F800000#32) (t := 0#32)
    (l := 0x3F000000#32) 2#32 configured_accepts.circuits configured_refresh configured_samples
  refine ⟨setSeq u .idle 0 0, by simp only [exec, execBlk_of_accepted configured_accepts, hu], ?_⟩
  rw [endsNormally, isFaulted, setSeq_fsr, hp.fields]
  rfl

/-- A block that only refreshes: on the configured core `BLK 0` completes. -/
theorem configured_updf : ∃ t, exec (.updf 1#8 0#32 0x3F000000#32) configuredState = .next t ∧ endsNormally t := by
  have hc : getCircuit configuredState (1#8).toNat = _ := configured_circuit 1 (by decide)
  refine ⟨setCircuit configuredState 1 (withCoefs (getCircuit configuredState 1)
    (bankOf steadyParams 0x472C4400#32 0x3F000000#32)), ?_, by rfl⟩
  simp only [exec, execUpdf, updfIn, asF, hc, circuitUpdate_eq_checks, preparedCircuit_fs]
  rw [← hc]
  rfl

/-- V-B6's core, two circuits at different rates, the tone at 1.0: circuit 1 cannot follow it. -/
def mixedRates : State :=
  { configuredState with
    cir := (configuredState.cir.set 0 { circuitAtReset with rdy := true, fs := 0x463B8000#32 }).set 1
      { circuitAtReset with rdy := true, fs := 0x460CA000#32 }
    sm := { configuredState.sm with tone := { configuredState.sm.tone with cur := 0x3F800000#32, tgt := 0x3F800000#32 } } }

/-- A core whose host has these events pending. -/
def withPort (events : List HostEvent) (s : State) : State := { s with port := events }

/-- The faulted core of P3. -/
def faultedState : State := after (.blk 1#32 0#32 0#32 0#32) State.reset

/-! ### Witnesses: the hypotheses of each statement are met

Where a statement's hypotheses bound a number, the witness stands at the bound. -/

theorem witness_EncodeOfDecode : ∃ ws rest i, decodeWords ws = .command i rest :=
  ⟨[0x12000000#32, 7#32], [7#32], .smcur .drive, by decide⟩

/-- One word for each clause, at the least value that breaks it. -/
theorem witness_IllegalCommandWords_clauses : IllegalWord 0x05000000#32 ∧ IllegalWord 0x30000001#32 ∧
    IllegalWord 0x30010000#32 ∧ IllegalWord 0x03000100#32 ∧ IllegalWord 0x12000300#32 ∧ IllegalWord 0x20000200#32 ∧
    ¬IllegalWord 0x12000200#32 ∧ ¬IllegalWord 0x20000100#32 ∧ ¬IllegalWord 0x21FF0200#32 := by
  refine ⟨?_, ?_, ?_, ?_, ?_, ?_, ?_, ?_, ?_⟩ <;> simp only [IllegalWord] <;> decide

theorem witness_IllegalCommandWords : ∃ (s : State) (w : Word) (rest : List HostEvent), paramsOk s.par = true ∧
    isFaulted s = false ∧ s.port = .word w :: rest ∧ s.cmdq = [] ∧
    s.seq = { phase := .idle, n := 0#32, c := 0#32 } ∧ IllegalWord w :=
  ⟨withPort [.word 0x05000000#32] State.reset, _, _, by decide, by decide, rfl, rfl, rfl,
    witness_IllegalCommandWords_clauses.1⟩

/-- The last operand but one of the longest command. -/
theorem witness_PartialCommandsWait : ∃ (s : State) (i : Instr) (n : Nat) (w : Word) (rest : List HostEvent),
    paramsOk s.par = true ∧ isFaulted s = false ∧ n + 1 < (encode i).length ∧ s.cmdq = (encode i).take n ∧
    (encode i)[n]? = some w ∧ s.port = .word w :: rest :=
  ⟨{ withPort [.word 3#32] State.reset with cmdq := [0x02000000#32, 1#32, 2#32] }, .blk 1#32 2#32 3#32 4#32, 3, 3#32, [],
    by decide, by decide, by decide, by decide, by decide, rfl⟩

theorem witness_StepRunsDecodedCommand : ∃ (s : State) (w : Word) (rest : List HostEvent) (i : Instr),
    paramsOk s.par = true ∧ isFaulted s = false ∧ s.port = .word w :: rest ∧
    decodeWords (s.cmdq ++ [w]) = .command i [] :=
  ⟨{ withPort [.word 0x3F800000#32] State.reset with cmdq := [0x30000000#32] }, _, _, .clip 0x3F800000#32, by decide,
    by decide, rfl, by decide⟩

theorem witness_WholeCommandRuns : ∃ (s : State) (i : Instr) (rest : List HostEvent), paramsOk s.par = true ∧
    isFaulted s = false ∧ s.cmdq = [] ∧ s.port = (encode i).map HostEvent.word ++ rest :=
  ⟨withPort ((encode (.clip 0#32)).map HostEvent.word ++ [.reset]) State.reset, .clip 0#32, [.reset], by decide, by decide,
    rfl, rfl⟩

theorem witness_FaultedCoreDiscards : ∃ (s : State) (w : Word) (rest : List HostEvent), paramsOk s.par = true ∧
    isFaulted s = true ∧ s.port = .word w :: rest :=
  ⟨withPort [.word 0x12000000#32] faultedState, _, _, by decide, by decide, rfl⟩

theorem witness_StepConsumesOneEvent : ∃ s t : State, step s = .next t ∧ s.port ≠ [] :=
  ⟨withPort [.word 0x12000000#32] State.reset, _, rfl, by decide⟩

theorem witness_IdleAndForeignStates : (∃ s : State, paramsOk s.par = true ∧ s.port = []) ∧
    ∃ s : State, paramsOk s.par = false :=
  ⟨⟨State.reset, by decide, rfl⟩, { State.reset with par := { Params.working with nchMax := 257 } }, by decide⟩

theorem witness_ResetSetsEveryRegister : ∃ (s : State) (rest : List HostEvent), paramsOk s.par = true ∧
    s.port = .reset :: rest ∧ isFaulted s = true :=
  ⟨withPort [.reset] faultedState, _, by decide, rfl, by decide⟩

/-- A `WRS` cut short by `RESET`. -/
theorem witness_ResetInMidCommand : ∃ (s t : State) (w : Word) (rest : List HostEvent), paramsOk s.par = true ∧
    s.port = .wordCut w :: rest ∧ step { s with port := .word w :: rest } = .next t ∧ t.buf ≠ s.buf :=
  ⟨{ withPort [.wordCut 5#32] State.reset with cmdq := [0x03000000#32, 0#32] }, _, 5#32, [], by decide, rfl, rfl,
    by decide⟩

/-- The first and the last check of a list, and an earlier check that hides a later one. -/
theorem witness_FirstFailingCheckReported : isFaulted State.reset = false ∧
    firstFailure (checksOf (.wrs 8#8 8192#32 0#32) State.reset) = some .pvChannel ∧
    firstFailure (checksOf (.wrs 7#8 8192#32 0#32) State.reset) = some .pvLength ∧
    firstFailure (checksOf (.blk 0#32 0x3F800001#32 0#32 0#32) configuredState) = some .pvRange ∧
    firstFailure (checksOf (.smcfg .drive 0x3F800000#32 0x80000001#32) State.reset) = some .icWindow ∧
    firstFailure (checksOf (.smcfg .drive 0x3F800000#32 0x4F800000#32) State.reset) = some .icSteps := by decide

theorem witness_PassedChecksComplete : isFaulted State.reset = false ∧
    (Instr.wrs 7#8 8191#32 0#32).op ≠ .blk ∧
    firstFailure (checksOf (.wrs 7#8 8191#32 0#32) State.reset) = none := by decide

theorem witness_CausesOfEachCommand : ∃ (i : Instr) (s t : State), Inv s ∧ isFaulted s = false ∧
    exec i s = .next t ∧ isFaulted t = true :=
  ⟨.clip 0x7F800000#32, configuredState, _, configured_inv, by decide, rfl, by decide⟩

theorem witness_FaultedLeftOnlyByReset : ∃ s t : State, isFaulted s = true ∧ step s = .next t ∧
    isFaulted t = false := ⟨withPort [.reset] faultedState, _, by decide, rfl, by decide⟩

theorem witness_SmcurResult : isFaulted State.reset = false := by decide

theorem witness_SmnxtResult : isFaulted State.reset = false := by decide

/-- A target outside [0, 1], the greatest finite value. -/
theorem witness_SmtgtResult : isFaulted State.reset = false ∧ isFinite32 0x7F7FFFFF#32 = true := by decide

/-- The longest ramp: the greatest value below 2^32 samples. -/
theorem witness_SmcfgResult : isFaulted State.reset = false ∧ isFinite32 0x3F800000#32 = true ∧
    flt32 0#32 0x3F800000#32 = true ∧ isFinite32 0x4F7FFFFF#32 = true ∧ flt32 0x4F7FFFFF#32 0#32 = false ∧
    isFinite32 (fmul32 0x3F800000#32 0x4F7FFFFF#32) = true ∧
    floorN32 (fmul32 0x3F800000#32 0x4F7FFFFF#32) < 2 ^ 32 := by decide

theorem witness_CoefResult : isFaulted configuredState = false ∧
    firstFailure (coefChecks configuredState.par 0x472C4400#32 0x41A00000#32) = none :=
  ⟨by decide, coefChecks_of_angleOk steady_tan (by decide)⟩

/-- The last circuit of the collection. -/
theorem witness_FappResult : isFaulted configuredState = false ∧ (1#8).toNat < configuredState.par.nchMax ∧
    (getCircuit configuredState (1#8).toNat).rdy = true ∧ isFinite32 0xFF7FFFFF#32 = true := by decide

theorem witness_ClipResult : isFaulted State.reset = false ∧ isFinite32 0xFF7FFFFF#32 = true := by decide

theorem witness_CprepResult : isFaulted configuredState = false ∧ (1#8).toNat < configuredState.nch.toNat ∧
    isFinite32 0x472C4400#32 = true ∧ flt32 0#32 0x472C4400#32 = true ∧ (1#32 : Word) ≠ 0#32 ∧
    CoefsExist configuredState.par 0x472C4400#32 configuredState.par.pdefTone :=
  ⟨by decide, by decide, by decide, by decide, by decide, coefsExist_44100⟩

/-- The tone 1.5 of rule R100's corner case. -/
theorem witness_UpdfResult : isFaulted configuredState = false ∧ (1#8).toNat < configuredState.par.nchMax ∧
    (getCircuit configuredState (1#8).toNat).rdy = true ∧ isFinite32 0#32 = true ∧ isFinite32 0x3FC00000#32 = true ∧
    CoefsExist configuredState.par (getCircuit configuredState (1#8).toNat).fs 0x3FC00000#32 :=
  ⟨by decide, by decide, by decide, by decide, by decide,
    coefsExist_of_angleOk steady_tan (fs := 0x472C4400#32) (by decide) (by decide) (by decide)⟩

theorem witness_PsmpResult : isFaulted configuredState = false ∧ (1#8).toNat < configuredState.par.nchMax ∧
    (getCircuit configuredState (1#8).toNat).rdy = true ∧ isFinite32 0x7F7FFFFF#32 = true ∧
    isFinite32 0xBF800000#32 = true ∧ isFinite32 0#32 = true ∧ isFinite32 0x40000000#32 = true := by decide

/-- The greatest block and all channels, and one of each. -/
theorem witness_CfgResult : isFaulted (State.powerUp steadyParams) = false ∧ isFinite32 0x472C4400#32 = true ∧
    flt32 0#32 0x472C4400#32 = true ∧ 1 ≤ (8192#32).toNat ∧ (8192#32).toNat ≤ (State.powerUp steadyParams).par.blkMax ∧
    1 ≤ (8#32).toNat ∧ (8#32).toNat ≤ (State.powerUp steadyParams).par.nchMax ∧ CoefsExist steadyParams 0x472C4400#32 (State.powerUp steadyParams).par.pdefTone ∧
    isFinite32 (fmul32 0x472C4400#32 (State.powerUp steadyParams).par.windowS) = true ∧
    floorN32 (fmul32 0x472C4400#32 (State.powerUp steadyParams).par.windowS) < 2 ^ 32 :=
  ⟨by decide, by decide, by decide, by decide, by decide, by decide, by decide, coefsExist_44100, by decide, by decide⟩

theorem witness_WrsResult : isFaulted State.reset = false ∧ (7#8).toNat < State.reset.par.nchMax ∧
    (8191#32).toNat < State.reset.par.blkMax := by decide

theorem witness_RdsResult : isFaulted State.reset = false ∧ (7#8).toNat < State.reset.par.nchMax ∧
    (8191#32).toNat < State.reset.par.blkMax := by decide

/-- Two channels, two frames; and a block of no frame. -/
theorem witness_BlockIsPerChannelRuns :
    (BlockAccepted configuredState 2#32 0x3F800000#32 0#32 0x3F000000#32 ∧
      RefreshSucceeds configuredState configuredState.nch.toNat ∧ SamplesFinite configuredState 2#32) ∧
    BlockAccepted configuredState 0#32 0x80000000#32 0#32 0x3F000000#32 ∧ SamplesFinite configuredState 0#32 :=
  ⟨⟨configured_accepts, configured_refresh, configured_samples⟩,
    { running := by decide, configured := rfl, length := by decide, finite := by decide, range := by decide
      bounds := by decide },
    fun _ _ _ h => absurd h (Nat.not_lt_zero _)⟩

theorem witness_TwoEqualChannelsStayEqual : ∃ t, BlockAccepted configuredState 2#32 0x3F800000#32 0#32 0x3F000000#32 ∧
    0 < configuredState.nch.toNat ∧ 1 < configuredState.nch.toNat ∧
    getCircuit configuredState 0 = getCircuit configuredState 1 ∧
    (∀ n, n < (2#32).toNat → cell configuredState 0 n = cell configuredState 1 n) ∧
    exec (.blk 2#32 0x3F800000#32 0#32 0x3F000000#32) configuredState = .next t ∧ endsNormally t := by
  obtain ⟨t, ht, hn⟩ := configured_block
  exact ⟨t, configured_accepts, by decide, by decide, rfl, by decide, ht, hn⟩

theorem witness_SilentBlockStaysSilent : BlockAccepted configuredState 2#32 0x3F800000#32 0#32 0x3F000000#32 ∧
    (∀ c, c < configuredState.nch.toNat → silentHistory (getCircuit configuredState c)) ∧
    (∀ c n, c < configuredState.nch.toNat → n < (2#32).toNat → cell configuredState c n = 0#32) ∧
    (∀ n, n < (2#32).toNat →
      let N := num32 configuredState.par
      let d := smoothedAt N (smoothSetTarget N 0x3F800000#32 configuredState.sm.drive) n
      let l := smoothedAt N (smoothSetTarget N 0x3F000000#32 configuredState.sm.level) n
      let gain := fadd32 0x3F800000#32 (fmul32 d 0x42480000#32)
      (isFinite32 gain = true ∧ signBit gain = false) ∧ isFinite32 l = true ∧ signBit l = false) ∧
    RefreshSucceeds configuredState configuredState.nch.toNat := by
  refine ⟨configured_accepts, ?_, ?_, by decide, configured_refresh⟩
  · intro c hc
    rw [configured_circuit c hc]
    exact ⟨rfl, rfl, rfl, rfl, rfl, rfl⟩
  · have h : ∀ c, c < 2 → ∀ n, n < 2 → cell configuredState c n = 0#32 := by decide
    exact fun c n hc hn => h c hc n hn

theorem witness_BlockFrame : ∃ t, exec (.blk 2#32 0x3F800000#32 0#32 0x3F000000#32) configuredState = .next t :=
  configured_block.imp fun _ h => h.1

/-- P5: a NaN in channel 1 of frame 1, the last cell of the block. -/
theorem witness_BlockStepFourFault :
    BlockAccepted (configuredWith 0x7FC00000#32) 2#32 0x3F800000#32 0#32 0x3F000000#32 ∧
    RefreshSucceeds (configuredWith 0x7FC00000#32) (configuredWith 0x7FC00000#32).nch.toNat ∧
    1 < (configuredWith 0x7FC00000#32).nch.toNat ∧ 1 < (2#32).toNat ∧
    isFinite32 (cell (configuredWith 0x7FC00000#32) 1 1) = false ∧
    ∀ c n, c < (configuredWith 0x7FC00000#32).nch.toNat → n < 1 ∨ (n = 1 ∧ c < 1) →
      isFinite32 (cell (configuredWith 0x7FC00000#32) c n) = true := by
  refine ⟨{ running := by decide, configured := rfl, length := by decide, finite := by decide, range := by decide
            bounds := by decide }, ?_, by decide, by decide, by decide, ?_⟩
  · intro c hc
    have h : getCircuit (configuredWith 0x7FC00000#32) c = _ := configured_circuit c hc
    rw [h]
    exact coefsExist_44100
  · have h : ∀ c, c < 2 → ∀ n, n < 2 → (n < 1 ∨ (n = 1 ∧ c < 1)) →
        isFinite32 (cell (configuredWith 0x7FC00000#32) c n) = true := by decide
    exact fun c n hc hn => h c hc n (by omega) hn

/-- V-B6: circuit 0 at 12000 Hz can follow the tone, circuit 1 at 9000 Hz cannot. -/
theorem witness_BlockStepThreeFault : BlockAccepted mixedRates 2#32 0x3F800000#32 0#32 0x3F000000#32 ∧
    1 < mixedRates.nch.toNat ∧ RefreshSucceeds mixedRates 1 ∧
    firstFailure (circuitChecks mixedRates.par (getCircuit mixedRates 1).fs mixedRates.sm.tone.cur) = some .icNyquist := by
  refine ⟨{ running := by decide, configured := rfl, length := by decide, finite := by decide, range := by decide
            bounds := by decide }, by decide, ?_, ?_⟩
  · intro c hc
    have h : c = 0 := by omega
    subst h
    exact coefsExist_of_angleOk steady_tan (fs := 0x463B8000#32) (tone := 0x3F800000#32) (by decide) (by decide) (by decide)
  · have h1 : firstFailure (coefChecks steadyParams 0x460CA000#32 0x41A00000#32) = none := coefChecks_of_angleOk steady_tan (by decide)
    have h2 : firstFailure (coefChecks steadyParams 0x460CA000#32 (toneHz 0x3F800000#32)) = some .icNyquist := by decide
    have h : firstFailure (circuitChecks steadyParams 0x460CA000#32 0x3F800000#32) = some .icNyquist := by
      simp only [circuitChecks, firstFailure_append, h1, h2]
    exact h

theorem witness_ToneActsOneBlockLate : ∃ t t', BlockAccepted configuredState 2#32 0x3F800000#32 0#32 0x3F000000#32 ∧
    exec (.blk 2#32 0x3F800000#32 0#32 0x3F000000#32) configuredState = .next t ∧
    BlockAccepted configuredState 2#32 0x3F800000#32 0x3F800000#32 0x3F000000#32 ∧
    exec (.blk 2#32 0x3F800000#32 0x3F800000#32 0x3F000000#32) configuredState = .next t' := by
  obtain ⟨t, ht, -⟩ := configured_block
  have ha : BlockAccepted configuredState 2#32 0x3F800000#32 0x3F800000#32 0x3F000000#32 :=
    { running := by decide, configured := rfl, length := by decide, finite := by decide, range := by decide
      bounds := by decide }
  obtain ⟨u, hu, -⟩ := runBlock_completes (d := 0x3F800000#32) (t := 0x3F800000#32) (l := 0x3F000000#32) 2#32
    ha.circuits configured_refresh configured_samples
  exact ⟨t, setSeq u .idle 0 0, configured_accepts, ht, ha, by simp only [exec, execBlk_of_accepted ha, hu]⟩

theorem witness_AudioRateBlocksComplete : TanSteady (ftan32 configuredState.par) ∧ Inv configuredState ∧ machineState configuredState = .configured ∧
    (∀ c, c < configuredState.nch.toNat → fle32 0x461C4400#32 (getCircuit configuredState c).fs = true ∧
      fle32 (getCircuit configuredState c).fs 0x49742400#32 = true) ∧
    inUnit configuredState.sm.tone.cur = true ∧ (2#32).toNat ≤ configuredState.blksz.toNat ∧
    inUnit 0x3F800000#32 = true ∧ inUnit 0#32 = true ∧ SamplesFinite configuredState 2#32 := by
  refine ⟨steady_tan, configured_inv, by decide, ?_, by decide, by decide, by decide, by decide, configured_samples⟩
  intro c hc
  rw [configured_circuit c hc]
  decide

theorem witness_PowerUpKeepsInv : paramsOk { Params.working with nchMax := 256, blkMax := 2 ^ 32 - 1 } = true ∧
    paramsOk { Params.working with nchMax := 1, blkMax := 1 } = true := by decide

theorem witness_StepKeepsInv : ∃ s t : State, Inv s ∧ step s = .next t ∧ t ≠ s :=
  ⟨withPort [.word 0x12000000#32] configuredState, _, { configured_inv with }, rfl, by decide⟩

theorem witness_OnlyCfgChangesControl : ∃ (i : Instr) (s t : State), Inv s ∧ exec i s = .next t ∧ i.op ≠ .cfg ∧
    t ≠ s := ⟨.smnxt .drive, configuredState, _, configured_inv, rfl, by decide, by decide⟩

theorem witness_ChannelCommandsSeeOneChannel : ∃ (i : Instr) (c : Nat) (s s' t t' : State), channelOf i = some c ∧
    AgreeOnChannel c s s' ∧ s ≠ s' ∧ exec i s = .next t ∧ exec i s' = .next t' := by
  refine ⟨.rds 0#8 1#32, 0, configuredState, configuredWith 5#32, _, _, rfl, ⟨rfl, rfl, rfl, ?_⟩,
    fun h => absurd (congrArg State.buf h) (by decide), rfl, rfl⟩
  intro n hn
  exact memRead_memWrite_other _ _ (by decide) hn (by omega)

theorem witness_AccessMatrix : ∃ t, exec (.smnxt .drive) configuredState = .next t ∧ t ≠ configuredState :=
  ⟨_, rfl, by decide⟩

theorem witness_SelectorsAreIndependent :
    (∃ (k : Knob) (s s' t t' : State), getSm s' k = getSm s k ∧ s' = { s with sm := s'.sm } ∧ s' ≠ s ∧
      exec (.smnxt k) s = .next t ∧ exec (.smnxt k) s' = .next t') ∧
    [Knob.level, .drive, .tone].Perm [.drive, .tone, .level] :=
  ⟨⟨.drive, State.reset, withSmoother .tone 0#32 0#32 0#32 0 4, _, _, rfl, rfl, by decide, rfl, rfl⟩, by decide⟩

theorem witness_UnusedOperands : isFinite32 0#32 = true ∧ isFinite32 0x7F7FFFFF#32 = true := by decide

theorem witness_UpdateIsIdempotent : ∃ t, Inv configuredState ∧
    exec (.updf 1#8 0#32 0x3F000000#32) configuredState = .next t ∧ endsNormally t :=
  configured_updf.imp fun _ h => ⟨configured_inv, h⟩

/-- A whole channel. -/
theorem witness_FillWritesCells : isFaulted State.reset = false ∧ (7#8).toNat < State.reset.par.nchMax ∧
    8192 ≤ State.reset.par.blkMax ∧ 8192 ≤ 2 ^ 32 := by decide

theorem witness_CorrectRounding : isFinite32 0x7F7FFFFF#32 = true ∧ isFinite32 0x80000001#32 = true ∧
    magBits 0x80000001#32 ≠ 0 ∧ magBits 0x80000000#32 = 0 ∧
    signedUnits 0x80000001#32 + signedUnits 0x00000001#32 = 0 ∧ isNaN32 (fmul32 0x80000001#32 0x80000001#32) = false ∧
    isNaN32 (fdiv32 0x80000001#32 0#32) = false ∧ isNaN32 0x7F800001#32 = true ∧ isInf32 0xFF800000#32 = true := by decide

/-- An instance with given configuration functions. -/
theorem witness_NamedProperties : (∃ (F : TanhFn) (p : Params), p.tanhFn = some F) ∧
    ∃ (F : Pieces) (p : Params), p.tanFn = some F :=
  ⟨⟨_, vectorParams, rfl⟩, _, vectorParams, rfl⟩

/-- The constant 1 has `TAN_POS`. -/
theorem witness_NamedProperties_tan : TanPos fun _ => 0x3F800000#32 :=
  fun _ _ _ _ => ⟨(by decide : isFinite32 0x3F800000#32 = true), (by decide : flt32 0#32 0x3F800000#32 = true)⟩

/-- Values of both branches, the infinities among them. -/
theorem witness_ClipBoundAndOrder : isNaN32 0xFF800000#32 = false ∧ fle32 0#32 0x7F800000#32 = true ∧
    flt32 0xFF800000#32 0#32 = true ∧ fle32 0#32 0x80000000#32 = true ∧ flt32 0x80000001#32 0#32 = true := by decide

/-- The identity cut off at -1 and 1, a function with the properties of `TanhOrder`. -/
def cutOff (a : Word) : Word := if isNaN32 a then a else packSign (signBit a) (min (magBits a) oneMag)

theorem witness_ClipBoundAndOrder_order : TanhOrder cutOff where
  zero := by decide
  sign := by
    intro a hf _
    have hm : min (magBits a) oneMag < 2 ^ 31 := lt_of_le_of_lt (Nat.min_le_right _ _) (by decide)
    have hn : isNaN32 a = false := isNaN32_of_finite hf
    have hlt : min (magBits a) oneMag < infMag := lt_of_le_of_lt (Nat.min_le_right _ _) (by decide)
    simp only [cutOff, hn, Bool.false_eq_true, if_false, isFinite32, magBits_packSign hm, signBit_packSign hm, hlt,
      decide_true, or_true, and_self]
  mono := by
    intro a b h
    obtain ⟨ha, hb⟩ := notNaN_of_fle32 h
    have hm : ∀ c : Word, min (magBits c) oneMag < 2 ^ 31 := fun c => lt_of_le_of_lt (Nat.min_le_right _ _) (by decide)
    have hle : ∀ c : Word, isNaN32 (packSign (signBit c) (min (magBits c) oneMag)) = false := by
      intro c
      rw [isNaN32_eq_false_iff, magBits_packSign (hm c)]
      exact le_trans (Nat.min_le_right _ _) (by decide)
    rw [fle32_iff ha hb] at h
    simp only [cutOff, ha, hb, Bool.false_eq_true, if_false]
    rw [fle32_iff (hle a) (hle b)]
    simp only [orderKey, signBit_packSign (hm a), signBit_packSign (hm b), magBits_packSign (hm a),
      magBits_packSign (hm b)] at h ⊢
    cases hsa : signBit a <;> cases hsb : signBit b <;>
      simp only [hsa, hsb, Bool.false_eq_true, if_true, if_false] at h ⊢ <;> omega

/-- The same function has all the properties of `TanhLaws`. -/
theorem witness_NamedProperties_tanh : TanhLaws cutOff where
  toTanhOrder := witness_ClipBoundAndOrder_order
  bound := by
    intro a ha
    have hm : min (magBits a) oneMag < 2 ^ 31 := lt_of_le_of_lt (Nat.min_le_right _ _) (by decide)
    have hle : min (magBits a) oneMag ≤ oneMag := Nat.min_le_right _ _
    have hn : isNaN32 (packSign (signBit a) (min (magBits a) oneMag)) = false := by
      rw [isNaN32_eq_false_iff, magBits_packSign hm]
      exact le_trans hle (by decide)
    simp only [cutOff, ha, Bool.false_eq_true, if_false]
    rw [fle32_iff (by decide) hn, fle32_iff hn (by decide)]
    simp only [orderKey, signBit_packSign hm, magBits_packSign hm]
    rw [show signBit 0xBF800000#32 = true by decide, show signBit 0x3F800000#32 = false by decide,
      show magBits 0xBF800000#32 = oneMag by decide, show magBits 0x3F800000#32 = oneMag by decide]
    cases signBit a <;> simp only [Bool.false_eq_true, if_true, if_false] <;> omega
  inf := by decide
  nan := by
    intro a ha
    simp only [cutOff, ha, if_true]

theorem witness_CoefShape : ∃ k, coef (num32 steadyParams) .highPass 0x472C4400#32 0x41A00000#32 = .ok k := by
  rw [coef_eq_checks, coefChecks_of_angleOk steady_tan (by decide)]
  exact ⟨_, rfl⟩

theorem witness_FilterZeroPreservation :
    (∃ (q : FilterRegs Word) (x : Word), isFinite32 q.coefs.b0 = true ∧ isFinite32 q.coefs.b1 = true ∧
      isFinite32 q.coefs.a1 = true ∧ magBits q.x1 = 0 ∧ magBits q.y1 = 0 ∧ magBits x = 0) ∧
    ∃ (p : Params) (q : FilterRegs Word) (kind : FilterKind) (fs fc : Word), coef (num32 p) kind fs fc = .ok q.coefs ∧ q.x1 = 0#32 ∧
      q.y1 = 0#32 := by
  refine ⟨⟨⟨0x80000000#32, 0#32, ⟨0x3F7FA2C2#32, 0xBF7FA2C2#32, 0xBF7F4585#32⟩⟩, 0x80000000#32, by decide⟩, ?_⟩
  obtain ⟨k, hk⟩ := witness_CoefShape
  exact ⟨_, ⟨0#32, 0#32, k⟩, _, _, _, hk, rfl, rfl⟩

/-- Level `-0` is in the range too. -/
theorem witness_CircuitZeroPreservation : PreparedCircuit steadyParams (getCircuit configuredState 1) ∧
    silentHistory (getCircuit configuredState 1) ∧ inUnit 0x3F800000#32 = true ∧ isFinite32 0x7F7FFFFF#32 = true ∧
    inUnit 0x80000000#32 = true := by
  refine ⟨configured_prepared 1 (by decide), ?_, by decide, by decide, by decide⟩
  rw [configured_circuit 1 (by decide)]
  exact ⟨rfl, rfl, rfl, rfl, rfl, rfl⟩

/-- Both ends of both ranges. -/
theorem witness_CircuitRatesNeverDegenerate : fle32 0x461C4400#32 0x461C4400#32 = true ∧
    fle32 0x461C4400#32 0x49742400#32 = true ∧ fle32 0x49742400#32 0x49742400#32 = true ∧
    inUnit 0x3F800000#32 = true ∧ inUnit 0#32 = true ∧ TanSteady (ftan32 steadyParams) :=
  ⟨by decide, by decide, by decide, by decide, by decide, steady_tan⟩

/-- There is a correctly rounded tangent: for each operand, of the finitely many finite values a nearest one. -/
theorem witness_CircuitRatesNeverDegenerate_cr : ∃ T : Word → Word, TanCr T := by
  have h : ∀ a : Word, ∃ r : {w : Word // isFinite32 w = true}, ∀ w : {w : Word // isFinite32 w = true},
      |realOf r.1 - Real.tan (realOf a)| ≤ |realOf w.1 - Real.tan (realOf a)| := by
    intro a
    have : Nonempty {w : Word // isFinite32 w = true} := ⟨⟨0#32, by decide⟩⟩
    have : Finite Word := Finite.of_injective BitVec.toFin fun _ _ h => BitVec.eq_of_toFin_eq h
    exact Finite.exists_min _
  choose T hT using h
  exact ⟨fun a => (T a).1, fun a _ _ _ => ⟨(T a).2, fun w hw => hT a ⟨w, hw⟩⟩⟩

/-- V-M6's ramp, which falls; a ramp of one sample, which rises; and one whose difference overflows. -/
theorem witness_SmootherMonotone :
    (isFinite32 0x3F0758FF#32 = true ∧ isFinite32 0x3F003AF5#32 = true ∧ feq32 0x3F0758FF#32 0x3F003AF5#32 = false ∧
      flt32 0x3F003AF5#32 0x3F0758FF#32 = true ∧ 1 ≤ (2205#32).toNat) ∧
    feq32 0#32 0x00000001#32 = false ∧ flt32 0#32 0x00000001#32 = true ∧ 1 ≤ (1#32).toNat ∧
    feq32 0xFF7FFFFF#32 0x7F7FFFFF#32 = false ∧ isFinite32 (fsub32 0x7F7FFFFF#32 0xFF7FFFFF#32) = false := by decide

theorem witness_SmootherFixedPoint : ∃ q : Smoother Word, SmootherInv q ∧ q.cnt = 0#32 ∧ q.cur = q.tgt ∧ q.nsteps ≠ 0#32 :=
  ⟨configuredState.sm.drive, configured_inv.smoothers .drive, by decide, by decide, by decide⟩

theorem witness_NoJumpAcrossReconfiguration : ∃ t,
    exec (.smcfg .tone 0x44FA0000#32 0x3B83126F#32) (withSmoother .tone 0x3F400000#32 0x3F800000#32 0x3E000000#32 2 4) =
      .next t ∧ t ≠ withSmoother .tone 0x3F400000#32 0x3F800000#32 0x3E000000#32 2 4 := ⟨_, rfl, by decide⟩

theorem witness_RealRampIsLinear : ∃ q : Smoother ℝ, q.cur ≠ q.tgt ∧ 1 ≤ q.nsteps.toNat :=
  ⟨⟨0, 1, 0, 0#32, 1#32, 0, 0⟩, by norm_num, by decide⟩

theorem witness_RealDesignHalfPower : ∃ fs fc : ℝ, 0 < fs ∧ 0 < fc ∧ fc < fs / 2 :=
  ⟨44100, 20, by norm_num, by norm_num, by norm_num⟩

end Sys2Proof.Tests
end

section
/-! PROOFS. Which register groups a command can touch (spec/10_state.md rule R33): the frame of each command over any
`NUM`, then the frame of a step. -/

namespace Sys2Proof.Machine

/-! ### Reading circuits after a write -/

/-- What a write to one circuit keeps of that circuit, it keeps of every circuit. -/
theorem getCircuit_setCircuit_keeps {α : Type} (f : Circuit Word → α) (s : State) (c : Nat) (q : Circuit Word)
    (h : f q = f (getCircuit s c)) (c' : Nat) : f (getCircuit (setCircuit s c q) c') = f (getCircuit s c') := by
  by_cases hc : c' = c
  · subst hc
    by_cases hlt : c' < s.cir.length
    · rw [getCircuit_setCircuit_same q hlt, h]
    · rw [setCircuit, List.set_eq_of_length_le (by omega)]
  · rw [getCircuit_setCircuit_other s q hc]

/-- Writing a filter back with its coefficients kept keeps the circuit's. -/
theorem setFilter_coefs {q : Circuit Word} {f : FilterIx} {p : FilterRegs Word}
    (h : p.coefs = (getFilter q f).coefs) : coefsOf (setFilter q f p) = coefsOf q := by
  cases f <;> simp only [coefsOf, setFilter, CoefBank.mk.injEq] <;> simp [h, getFilter]

@[simp] theorem setFilter_rdy {F : Type} (q : Circuit F) (f : FilterIx) (p : FilterRegs F) :
    (setFilter q f p).rdy = q.rdy := by
  cases f <;> rfl

@[simp] theorem setFilter_fs {F : Type} (q : Circuit F) (f : FilterIx) (p : FilterRegs F) :
    (setFilter q f p).fs = q.fs := by
  cases f <;> rfl

/-! ### The table of rule R33 -/

/-- The row of rule R33's table for mnemonic `o`: the groups that a command which turns `s` into `t` leaves alone. -/
structure Row (o : Op) (s t : State) : Prop where
  model : sameModelFields s t
  res : o ∉ [.rds, .smcur, .smnxt, .coef, .fapp, .clip, .psmp] → t.res = s.res
  res12 : o ≠ .coef → t.res.r1 = s.res.r1 ∧ t.res.r2 = s.res.r2
  sm : o ∉ [.cfg, .blk, .smcfg, .smtgt, .smnxt] → t.sm = s.sm
  cir : o ∉ [.cfg, .blk, .fapp, .cprep, .updf, .psmp] → t.cir = s.cir
  history : o ∉ [.cfg, .blk, .fapp, .cprep, .psmp] →
    ∀ c f, (getFilter (getCircuit t c) f).x1 = (getFilter (getCircuit s c) f).x1 ∧
      (getFilter (getCircuit t c) f).y1 = (getFilter (getCircuit s c) f).y1
  coefs : o ∉ [.cfg, .blk, .cprep, .updf] → ∀ c, coefsOf (getCircuit t c) = coefsOf (getCircuit s c)
  rate : o ∉ [.cfg, .cprep] → ∀ c, (getCircuit t c).rdy = (getCircuit s c).rdy ∧
    (getCircuit t c).fs = (getCircuit s c).fs
  control : o ≠ .cfg → sameControl s t
  buf : o ∉ [.blk, .wrs] → t.buf = s.buf
  latches : o ≠ .blk → sameLatches s t

theorem Row.refl (o : Op) (s : State) : Row o s s := by
  constructor <;> simp [sameModelFields, sameControl, sameLatches]

/-- A raise touches none of the table's groups. -/
theorem Row.raised (o : Op) (e : Cause) (op ch : Byte) (idx : Word) (s : State) : Row o s (raise e op ch idx s) := by
  constructor <;> simp [sameModelFields, sameControl, sameLatches]

variable {N : Num Word} {s t : State}

/-- A command that writes no circuit, no control register and no latch: its row is the groups it does write. -/
theorem Row.of_cir_eq {o : Op} (hm : sameModelFields s t) (hc : t.cir = s.cir) (hp : sameControl s t)
    (hl : sameLatches s t)
    (hr : o ∉ [.rds, .smcur, .smnxt, .coef, .fapp, .clip, .psmp] → t.res = s.res)
    (hr' : o ≠ .coef → t.res.r1 = s.res.r1 ∧ t.res.r2 = s.res.r2)
    (hs : o ∉ [.cfg, .blk, .smcfg, .smtgt, .smnxt] → t.sm = s.sm) (hb : o ∉ [.blk, .wrs] → t.buf = s.buf) :
    Row o s t := by
  have hget : ∀ c, getCircuit t c = getCircuit s c := fun c => by rw [getCircuit, hc, getCircuit]
  exact ⟨hm, hr, hr', hs, fun _ => hc, fun _ c f => by simp [hget], fun _ c => by rw [hget],
    fun _ c => by simp [hget], fun _ => hp, hb, fun _ => hl⟩

/-- A command that writes at most circuit `c` and `RES[0]`. -/
theorem Row.of_setCircuit {o : Op} {c : Nat} {q : Circuit Word}
    (ht : t = { setCircuit s c q with res := t.res })
    (ho : o ∈ [.fapp, .cprep, .updf, .psmp])
    (hr : o ∉ [.rds, .smcur, .smnxt, .coef, .fapp, .clip, .psmp] → t.res = s.res)
    (hr' : t.res.r1 = s.res.r1 ∧ t.res.r2 = s.res.r2)
    (hh : o = .updf → ∀ f, (getFilter q f).x1 = (getFilter (getCircuit s c) f).x1 ∧
      (getFilter q f).y1 = (getFilter (getCircuit s c) f).y1)
    (hk : o ∉ [.cprep, .updf] → coefsOf q = coefsOf (getCircuit s c))
    (hf : o ≠ .cprep → q.rdy = (getCircuit s c).rdy ∧ q.fs = (getCircuit s c).fs) : Row o s t := by
  have hkeep : ∀ {α : Type} (f : Circuit Word → α), f q = f (getCircuit s c) →
      ∀ c', f (getCircuit t c') = f (getCircuit s c') := by
    intro α f h c'
    rw [ht]
    exact getCircuit_setCircuit_keeps f s c q h c'
  have hmodel : sameModelFields s t := by rw [ht]; exact ⟨rfl, rfl, rfl⟩
  have hcontrol : sameControl s t := by rw [ht]; exact ⟨rfl, rfl, rfl⟩
  have hlatch : sameLatches s t := by rw [ht]; exact ⟨rfl, rfl, rfl, rfl, rfl⟩
  have hsm : t.sm = s.sm := by rw [ht]; rfl
  have hbuf : t.buf = s.buf := by rw [ht]; rfl
  refine ⟨hmodel, hr, fun _ => hr', fun _ => hsm, ?_, ?_, ?_, ?_, fun _ => hcontrol, fun _ => hbuf, fun _ => hlatch⟩
  · intro h
    simp only [List.mem_cons, not_or] at h ho
    grind
  · intro h c' f
    have hu : o = .updf := by
      simp only [List.mem_cons, not_or] at h ho
      grind
    exact ⟨hkeep (fun q => (getFilter q f).x1) (hh hu f).1 c', hkeep (fun q => (getFilter q f).y1) (hh hu f).2 c'⟩
  · intro h c'
    refine hkeep coefsOf (hk fun h' => h ?_) c'
    simp only [List.mem_cons] at h' ⊢
    grind
  · intro h c'
    have hne : o ≠ .cprep := fun h' => h (by simp [h'])
    exact ⟨hkeep Circuit.rdy (hf hne).1 c', hkeep Circuit.fs (hf hne).2 c'⟩

/-! ### The row of each command -/

theorem smcfgIn_row {k : Knob} {fs win : Word} (hf : isFaulted s = false) (h : smcfgIn N k fs win s = .next t) :
    Row .smcfg s t := by
  obtain ⟨e, rfl⟩ | ⟨-, -, -, rfl⟩ := smcfgIn_cases hf h
  · exact .raised ..
  · apply Row.of_cir_eq <;> simp [sameModelFields, sameControl, sameLatches]

theorem smtgtIn_row {k : Knob} {v : Word} (hf : isFaulted s = false) (h : smtgtIn N k v s = .next t) :
    Row .smtgt s t := by
  obtain ⟨-, rfl⟩ | ⟨-, rfl⟩ := smtgtIn_cases hf h
  · exact .raised ..
  · apply Row.of_cir_eq <;> simp [sameModelFields, sameControl, sameLatches]

theorem execSmcur_row {k : Knob} (hf : isFaulted s = false) (h : execSmcur k s = .next t) : Row .smcur s t := by
  rw [execSmcur_eq hf, Host.Outcome.next.injEq] at h
  subst h
  apply Row.of_cir_eq <;> simp [sameModelFields, sameControl, sameLatches]

theorem smnxtIn_row {k : Knob} (hf : isFaulted s = false) (h : smnxtIn N k s = .next t) : Row .smnxt s t := by
  rw [smnxtIn_eq hf, Host.Outcome.next.injEq] at h
  subst h
  apply Row.of_cir_eq <;> simp [sameModelFields, sameControl, sameLatches]

theorem coefIn_row {kind : FilterKind} {fs fc : Word} (hf : isFaulted s = false)
    (h : coefIn N kind fs fc s = .next t) : Row .coef s t := by
  obtain ⟨e, -, rfl⟩ | ⟨k, -, rfl⟩ := coefIn_cases hf h
  · exact .raised ..
  · apply Row.of_cir_eq <;> simp [sameModelFields, sameControl, sameLatches]

theorem clipIn_row {x : Word} (hf : isFaulted s = false) (h : clipIn N x s = .next t) : Row .clip s t := by
  obtain ⟨-, rfl⟩ | ⟨-, rfl⟩ := clipIn_cases hf h
  · exact .raised ..
  · apply Row.of_cir_eq <;> simp [sameModelFields, sameControl, sameLatches]

theorem execWrs_row {c : Byte} {idx v : Word} (hf : isFaulted s = false) (h : execWrs c idx v s = .next t) :
    Row .wrs s t := by
  obtain ⟨e, rfl⟩ | ⟨-, -, rfl⟩ := execWrs_cases hf h
  · exact .raised ..
  · apply Row.of_cir_eq <;> simp [sameModelFields, sameControl, sameLatches]

theorem execRds_row {c : Byte} {idx : Word} (hf : isFaulted s = false) (h : execRds c idx s = .next t) :
    Row .rds s t := by
  obtain ⟨e, rfl⟩ | ⟨-, -, rfl⟩ := execRds_cases hf h
  · exact .raised ..
  · apply Row.of_cir_eq <;> simp [sameModelFields, sameControl, sameLatches]

theorem fappIn_row {c : Byte} {f : FilterIx} {x : Word} (hf : isFaulted s = false)
    (h : fappIn N c f x s = .next t) : Row .fapp s t := by
  obtain ⟨e, rfl⟩ | ⟨-, -, -, rfl⟩ := fappIn_cases hf h
  · exact .raised ..
  · exact Row.of_setCircuit rfl (by decide) (by simp) ⟨rfl, rfl⟩ (by simp) (fun _ => setFilter_coefs rfl) (by simp)

theorem cprepIn_row {c : Byte} {fs blksz : Word} (hf : isFaulted s = false)
    (h : cprepIn N c fs blksz s = .next t) : Row .cprep s t := by
  obtain ⟨e, rfl⟩ | ⟨-, -, -, k, -, rfl⟩ := cprepIn_cases hf h
  · exact .raised ..
  · exact Row.of_setCircuit rfl (by decide) (fun _ => rfl) ⟨rfl, rfl⟩ (by simp) (by simp) (by simp)

theorem updfIn_row {c : Byte} {drive tone : Word} (hf : isFaulted s = false)
    (h : updfIn N c drive tone s = .next t) : Row .updf s t := by
  obtain ⟨e, rfl⟩ | ⟨-, -, -, -, k, -, rfl⟩ := updfIn_cases hf h
  · exact .raised ..
  · exact Row.of_setCircuit rfl (by decide) (fun _ => rfl) ⟨rfl, rfl⟩ (fun _ f => by cases f <;> exact ⟨rfl, rfl⟩)
      (by simp) (by simp)

theorem psmpIn_row {c : Byte} {x drive tone level : Word} (hf : isFaulted s = false)
    (h : psmpIn N c x drive tone level s = .next t) : Row .psmp s t := by
  obtain ⟨e, rfl⟩ | ⟨-, -, -, -, -, -, rfl⟩ := psmpIn_cases hf h
  · exact .raised ..
  · exact Row.of_setCircuit rfl (by decide) (by simp) ⟨rfl, rfl⟩ (by simp) (fun _ => rfl) (fun _ => ⟨rfl, rfl⟩)

/-- `CFG` keeps the results, the buffer, the latches and the model's own fields. -/
theorem cfgIn_row {fs blksz nch : Word} (hf : isFaulted s = false) (h : cfgIn N fs blksz nch s = .next t) :
    Row .cfg s t := by
  obtain ⟨e, rfl⟩ | ⟨-, -, -, -, -, -, k, -, rfl⟩ := cfgIn_cases hf h
  · exact .raised ..
  · constructor <;> simp [configure, sameModelFields, sameLatches]

/-- No part of a block writes which circuits are Ready, nor their rates. -/
theorem runBlock_rate (len d t l : Word) (s : State) :
    Both (fun u => ∀ c, (getCircuit u c).rdy = (getCircuit s c).rdy ∧ (getCircuit u c).fs = (getCircuit s c).fs)
      (runBlock N len d t l s) := by
  have hset : ∀ (u : State) c q, q.rdy = (getCircuit u c).rdy → q.fs = (getCircuit u c).fs →
      (∀ c, (getCircuit u c).rdy = (getCircuit s c).rdy ∧ (getCircuit u c).fs = (getCircuit s c).fs) →
      ∀ c', (getCircuit (setCircuit u c q) c').rdy = (getCircuit s c').rdy ∧
        (getCircuit (setCircuit u c q) c').fs = (getCircuit s c').fs := by
    intro u c q hr hfs hu c'
    rw [getCircuit_setCircuit_keeps Circuit.rdy u c q hr, getCircuit_setCircuit_keeps Circuit.fs u c q hfs]
    exact hu c'
  refine runBlock_keeps { seq := ?_, raised := ?_, targets := ?_, latch := ?_, refreshed := ?_, frame := ?_, sample := ?_ }
    len d t l s fun _ => ⟨rfl, rfl⟩
  · exact fun _ _ _ _ h => h
  · exact fun _ _ _ _ h => h
  · exact fun _ _ _ _ h => h
  · exact fun _ h => h
  · intro u c q hu hq
    obtain ⟨k, -, rfl⟩ := (circuitUpdate_eq_ok_iff ..).1 hq
    exact hset u c _ rfl rfl hu
  · exact fun _ _ h => h
  · exact fun u n c hu _ => hset u c _ rfl rfl hu

/-- What a block answers, finished or not, has a property of both outcomes. -/
theorem Both.of_answer {P : State → Prop} {r : Except State State} (h : Both P r) (ht : r = .ok t ∨ r = .error t) :
    P t := by
  rcases ht with rfl | rfl <;> exact h

theorem blkIn_row {len d t' l : Word} (hf : isFaulted s = false) (h : blkIn N len d t' l s = .next t) :
    Row .blk s t := by
  obtain ⟨e, rfl⟩ | ⟨-, -, -, -, -, -, -, -, -, hrun⟩ := blkIn_cases hf h
  · exact .raised ..
  · obtain ⟨hres, hpst, hnch, hblksz, hpar, hport, hdraws, -⟩ := (runBlock_fields len d t' l s).of_answer hrun
    have hrate := (runBlock_rate len d t' l s).of_answer hrun
    constructor <;> simp [sameModelFields, sameControl, *]

/-- Rule R33's table, for the machine over any `NUM`. -/
theorem execIn_row {i : Instr} (h : execIn N i s = .next t) : Row i.op s t := by
  cases hf : isFaulted s with
  | true =>
    rw [execIn_of_faulted i hf, Host.Outcome.next.injEq] at h
    exact h ▸ .refl ..
  | false =>
    cases i with
    | cfg => exact cfgIn_row hf h
    | blk => exact blkIn_row hf h
    | wrs => exact execWrs_row hf h
    | rds => exact execRds_row hf h
    | smcfg => exact smcfgIn_row hf h
    | smtgt => exact smtgtIn_row hf h
    | smcur => exact execSmcur_row hf h
    | smnxt => exact smnxtIn_row hf h
    | coef => exact coefIn_row hf h
    | fapp => exact fappIn_row hf h
    | clip => exact clipIn_row hf h
    | cprep => exact cprepIn_row hf h
    | updf => exact updfIn_row hf h
    | psmp => exact psmpIn_row hf h

theorem exec_row {i : Instr} (h : exec i s = .next t) : Row i.op s t := execIn_row (exec_eq_execIn i s ▸ h)

/-- Settles O43: each command has its row of rule R33's table. -/
theorem accessMatrix : Obligations.AccessMatrix := by
  intro N i s t h
  obtain ⟨hm, hr, hr', hs, hc, hh, hk, hf, hp, hb, hl⟩ : Row i.op s t := h.elim exec_row execIn_row
  exact ⟨hm, hr, hr', hs, hc, hh, hk, hf, hp, hb, hl⟩

/-! ### One step -/

/-- No command writes the model's own fields. -/
theorem exec_model {i : Instr} (h : exec i s = .next t) : sameModelFields s t := (exec_row h).model

/-- An accepted word, whatever it starts, leaves the model's own fields alone. -/
theorem acceptWord_model {w : Word} (h : acceptWord exec w s = .next t) : sameModelFields s t := by
  obtain ⟨-, rfl⟩ | ⟨-, ⟨w0, why, -, rfl⟩ | ⟨-, rfl⟩ | ⟨i, rest, -, hrun⟩⟩ := acceptWord_cases h
  · exact ⟨rfl, rfl, rfl⟩
  · exact ⟨rfl, rfl, rfl⟩
  · exact ⟨rfl, rfl, rfl⟩
  · exact exec_model (s := { s with cmdq := [] }) hrun

/-- Settles O9: the port loses its oldest event whichever event that is. -/
theorem stepConsumesOneEvent : Obligations.StepConsumesOneEvent := by
  intro s t h
  obtain ⟨-, ⟨hport, rfl⟩ | ⟨e, rest, hport, hcase⟩⟩ := step_cases h
  · simp [hport]
  · rw [hport, List.tail_cons]
    obtain ⟨w, -, hw⟩ | ⟨-, rfl⟩ | ⟨w, u, -, -, rfl⟩ := hcase
    · obtain ⟨hpar, hrest, -⟩ := acceptWord_model hw
      exact ⟨hrest, hpar⟩
    · exact ⟨rfl, rfl⟩
    · exact ⟨rfl, rfl⟩

/-- Settles O10, by the two branches of `step` and the empty port. -/
theorem idleAndForeignStates : Obligations.IdleAndForeignStates := by
  refine ⟨fun s hp hport => ?_, fun s hp => ?_⟩
  · rw [step, if_pos hp, portStep, hport]
  · rw [step, hp, if_neg Bool.false_ne_true]

end Sys2Proof.Machine
end

section
/-! PROOFS. The place of a result in the order of the comparisons (spec/00_scope.md rule R12): `roundKey` is the place of
the rounding of an exact signed quotient, and the operations of `NUM32` are that rounding. -/

namespace Sys2Proof.Machine

/-! ### Signs and magnitudes -/

/-- A magnitude that `roundMag` gives fits below the sign bit. -/
theorem roundMag_lt (num den : Nat) : roundMag num den < 2 ^ 31 :=
  lt_of_le_of_lt (roundMag_le num den) (by decide)

@[simp] theorem roundMag_zero (den : Nat) : roundMag 0 den = 0 := by
  simp [roundMag, lastPlace, roundHalfEven]

theorem isNaN32_packSign {neg : Bool} {m : Nat} (h : m ≤ infMag) : isNaN32 (packSign neg m) = false := by
  rw [isNaN32_eq_false_iff, magBits_packSign (lt_of_le_of_lt h (by decide))]
  exact h

theorem orderKey_packSign {neg : Bool} {m : Nat} (h : m < 2 ^ 31) :
    orderKey (packSign neg m) = if neg then -(m : Int) else m := by
  rw [orderKey, signBit_packSign h, magBits_packSign h]

/-- A value is finite exactly when its place lies strictly between the infinities. -/
theorem isFinite32_iff_orderKey (a : Word) :
    isFinite32 a = true ↔ -(infMag : Int) < orderKey a ∧ orderKey a < infMag := by
  rw [isFinite32_iff, orderKey]
  split <;> omega

theorem natAbs_signedUnits (a : Word) : (signedUnits a).natAbs = units a := by
  rw [signedUnits]
  split <;> simp

/-- The magnitude in units is 0 only for the zeros. -/
theorem units_eq_zero_iff (a : Word) : units a = 0 ↔ magBits a = 0 := by
  rw [units, ← magUnits_zero, magUnits_strictMono.injective.eq_iff, magUnits_zero]

theorem isInf32_of_finite {a : Word} (h : isFinite32 a = true) : isInf32 a = false := by
  rw [isFinite32_iff] at h
  rw [isInf32, decide_eq_false_iff_not]
  omega

theorem isNaN32_of_inf {a : Word} (h : isInf32 a = true) : isNaN32 a = false := by
  rw [isInf32, decide_eq_true_eq] at h
  rw [isNaN32_eq_false_iff, h]

/-- A value that is not a NaN is finite or an infinity. -/
theorem finite_or_inf {a : Word} (h : isNaN32 a = false) : isFinite32 a = true ∨ isInf32 a = true := by
  rw [isNaN32_eq_false_iff] at h
  rw [isFinite32_iff, isInf32, decide_eq_true_eq]
  omega

theorem isNaN32_someNaN (op : ArithOp) (a b : Word) : isNaN32 (someNaN op a b) = true := by
  rw [someNaN]
  split
  · assumption
  · decide

/-! ### The inverted sign -/

@[simp] theorem signBit_fneg32 (a : Word) : signBit (fneg32 a) = !signBit a := by
  simp [signBit, fneg32]

@[simp] theorem magBits_fneg32 (a : Word) : magBits (fneg32 a) = magBits a := by
  rw [magBits, magBits, fneg32, BitVec.toNat_xor, Nat.xor_mod_two_pow]
  simp

@[simp] theorem isNaN32_fneg32 (a : Word) : isNaN32 (fneg32 a) = isNaN32 a := by
  rw [isNaN32, isNaN32, magBits_fneg32]

@[simp] theorem isInf32_fneg32 (a : Word) : isInf32 (fneg32 a) = isInf32 a := by
  rw [isInf32, isInf32, magBits_fneg32]

@[simp] theorem isFinite32_fneg32 (a : Word) : isFinite32 (fneg32 a) = isFinite32 a := by
  rw [isFinite32, isFinite32, magBits_fneg32]

@[simp] theorem signedUnits_fneg32 (a : Word) : signedUnits (fneg32 a) = -signedUnits a := by
  rw [signedUnits, signedUnits, units, units, magBits_fneg32, signBit_fneg32]
  cases signBit a <;> simp

@[simp] theorem orderKey_fneg32 (a : Word) : orderKey (fneg32 a) = -orderKey a := by
  rw [orderKey, orderKey, magBits_fneg32, signBit_fneg32]
  cases signBit a <;> simp

/-! ### The place of a rounded value -/

/-- The place, in the order of the comparisons, of `num / den` units of 2^-149 rounded. -/
def roundKey (num : Int) (den : Nat) : Int :=
  if num < 0 then -(roundMag num.natAbs den : Int) else roundMag num.natAbs den

/-- A pattern with the sign of `num` (a zero may have either) and its rounded magnitude is at `roundKey`. -/
theorem orderKey_packSign_roundMag {num : Int} (den : Nat) {neg : Bool} (hpos : 0 < num → neg = false)
    (hneg : num < 0 → neg = true) : orderKey (packSign neg (roundMag num.natAbs den)) = roundKey num den := by
  rw [orderKey_packSign (roundMag_lt ..), roundKey]
  rcases lt_trichotomy num 0 with h | rfl | h
  · rw [hneg h, if_pos rfl, if_pos h]
  · simp
  · rw [hpos h, if_neg Bool.false_ne_true, if_neg (by omega)]

theorem roundKey_mono {num num' : Int} {den : Nat} (hd : 0 < den) (h : num ≤ num') :
    roundKey num den ≤ roundKey num' den := by
  have hmag : ∀ {m n : Nat}, m ≤ n → roundMag m den ≤ roundMag n den :=
    fun hmn => roundMag_mono hd hd (Nat.mul_le_mul_right _ hmn)
  simp only [roundKey]
  split
  · split
    · have := hmag (m := num'.natAbs) (n := num.natAbs) (by omega)
      omega
    · omega
  · rw [if_neg (by omega)]
    have := hmag (m := num.natAbs) (n := num'.natAbs) (by omega)
    omega

/-- Rounding keeps the exact values. -/
theorem roundKey_signedUnits {a : Word} (h : isNaN32 a = false) : roundKey (signedUnits a) 1 = orderKey a := by
  rw [isNaN32_eq_false_iff] at h
  have hmag : roundMag (units a) 1 = magBits a := by
    rw [units, ← Nat.mul_one (magUnits (magBits a)), roundMag_exact h Nat.one_pos]
  rw [roundKey, natAbs_signedUnits, hmag]
  by_cases h0 : magBits a = 0
  · simp [orderKey, h0]
  · have hu : units a ≠ 0 := fun hu => h0 ((units_eq_zero_iff a).1 hu)
    by_cases hs : signBit a = true
    · rw [orderKey, signedUnits, if_pos hs, if_pos hs, if_pos (by omega)]
    · rw [orderKey, signedUnits, if_neg hs, if_neg hs, if_neg (by omega)]

/-- A value that rounds above the zeros is above 0. -/
theorem pos_of_roundKey_pos {num : Int} {den : Nat} (h : 0 < roundKey num den) : 0 < num := by
  rw [roundKey] at h
  split at h
  · omega
  · rcases eq_or_ne num 0 with rfl | hne
    · simp at h
    · omega

/-- A value that rounds below the zeros is below 0. -/
theorem neg_of_roundKey_neg {num : Int} {den : Nat} (h : roundKey num den < 0) : num < 0 := by
  rw [roundKey] at h
  split at h <;> omega

/-! ### Sums and differences -/

section Sums

variable {a b : Word}

/-- The sum of finite values: the exact sum rounded once. -/
theorem addCore_of_finite (op : ArithOp) (x y : Word) (ha : isFinite32 a = true) (hb : isFinite32 b = true) :
    addCore op x y a b =
      packSign (if signedUnits a + signedUnits b = 0 then signBit a && signBit b
        else decide (signedUnits a + signedUnits b < 0)) (roundMag (signedUnits a + signedUnits b).natAbs 1) := by
  simp only [addCore, isNaN32_of_finite ha, isNaN32_of_finite hb, isInf32_of_finite ha, isInf32_of_finite hb,
    Bool.or_self, Bool.false_eq_true, if_false]
  split
  · rename_i h
    simp [h]
  · rfl

theorem orderKey_addCore (op : ArithOp) (x y : Word) (ha : isFinite32 a = true) (hb : isFinite32 b = true) :
    orderKey (addCore op x y a b) = roundKey (signedUnits a + signedUnits b) 1 := by
  rw [addCore_of_finite op x y ha hb]
  apply orderKey_packSign_roundMag
  · intro h
    rw [if_neg (by omega), decide_eq_false (by omega)]
  · intro h
    rw [if_neg (by omega), decide_eq_true h]

theorem isNaN32_addCore (op : ArithOp) (x y : Word) (ha : isFinite32 a = true) (hb : isFinite32 b = true) :
    isNaN32 (addCore op x y a b) = false := by
  rw [addCore_of_finite op x y ha hb]
  exact isNaN32_packSign (roundMag_le ..)

/-- A finite value plus an infinity is that infinity. -/
theorem addCore_inf_right (op : ArithOp) (x y : Word) (ha : isFinite32 a = true) (hb : isInf32 b = true) :
    addCore op x y a b = b := by
  simp [addCore, isNaN32_of_finite ha, isNaN32_of_inf hb, isInf32_of_finite ha, hb]

/-- An infinity plus a finite value is that infinity. -/
theorem addCore_inf_left (op : ArithOp) (x y : Word) (ha : isInf32 a = true) (hb : isFinite32 b = true) :
    addCore op x y a b = a := by
  simp [addCore, isNaN32_of_finite hb, isNaN32_of_inf ha, isInf32_of_finite hb, ha]

theorem orderKey_fadd32 (ha : isFinite32 a = true) (hb : isFinite32 b = true) :
    orderKey (fadd32 a b) = roundKey (signedUnits a + signedUnits b) 1 := orderKey_addCore _ _ _ ha hb

theorem orderKey_fsub32 (ha : isFinite32 a = true) (hb : isFinite32 b = true) :
    orderKey (fsub32 a b) = roundKey (signedUnits a - signedUnits b) 1 := by
  rw [fsub32, orderKey_addCore _ _ _ ha (by simpa using hb), signedUnits_fneg32, Int.sub_eq_add_neg]

theorem isNaN32_fsub32 (ha : isFinite32 a = true) (hb : isFinite32 b = true) : isNaN32 (fsub32 a b) = false :=
  isNaN32_addCore _ _ _ ha (by simpa using hb)

/-- A finite value plus a value that is not a NaN is not a NaN. -/
theorem isNaN32_fadd32 (ha : isFinite32 a = true) (hb : isNaN32 b = false) : isNaN32 (fadd32 a b) = false := by
  rcases finite_or_inf hb with hf | hi
  · exact isNaN32_addCore _ _ _ ha hf
  · rw [fadd32, addCore_inf_right _ _ _ ha hi, hb]

theorem signedUnits_nonneg_iff : 0 ≤ signedUnits a ↔ 0 ≤ orderKey a := signedUnits_le_iff 0#32 a

theorem signedUnits_nonpos_iff : signedUnits a ≤ 0 ↔ orderKey a ≤ 0 := signedUnits_le_iff a 0#32

/-- Adding a value that is not below 0 does not go down. -/
theorem orderKey_le_fadd32 (ha : isFinite32 a = true) (hb : isNaN32 b = false) (h : 0 ≤ orderKey b) :
    orderKey a ≤ orderKey (fadd32 a b) := by
  rcases finite_or_inf hb with hf | hi
  · have hz := signedUnits_nonneg_iff.2 h
    rw [orderKey_fadd32 ha hf, ← roundKey_signedUnits (isNaN32_of_finite ha)]
    exact roundKey_mono Nat.one_pos (by omega)
  · rw [fadd32, addCore_inf_right _ _ _ ha hi]
    rw [isInf32, decide_eq_true_eq] at hi
    rw [isFinite32_iff_orderKey] at ha
    have hkey : orderKey b = if signBit b then -(infMag : Int) else infMag := by rw [orderKey, hi]
    rw [hkey] at h ⊢
    split at h
    · simp [infMag] at h
    · rw [if_neg (by assumption)]
      omega

/-- Adding a value that is not above 0 does not go up. -/
theorem fadd32_le_orderKey (ha : isFinite32 a = true) (hb : isNaN32 b = false) (h : orderKey b ≤ 0) :
    orderKey (fadd32 a b) ≤ orderKey a := by
  rcases finite_or_inf hb with hf | hi
  · have hz := signedUnits_nonpos_iff.2 h
    rw [orderKey_fadd32 ha hf, ← roundKey_signedUnits (isNaN32_of_finite ha)]
    exact roundKey_mono Nat.one_pos (by omega)
  · rw [fadd32, addCore_inf_right _ _ _ ha hi]
    rw [isInf32, decide_eq_true_eq] at hi
    rw [isFinite32_iff_orderKey] at ha
    have hkey : orderKey b = if signBit b then -(infMag : Int) else infMag := by rw [orderKey, hi]
    rw [hkey] at h ⊢
    split at h
    · rw [if_pos (by assumption)]
      omega
    · simp [infMag] at h

end Sums

/-! ### Quotients and counts -/

/-- A quotient by a finite positive value is not a NaN and lies on the dividend's side of 0. -/
theorem fdiv32_of_pos {a b : Word} (ha : isNaN32 a = false) (hb : isFinite32 b = true) (hpos : 0 < orderKey b) :
    isNaN32 (fdiv32 a b) = false ∧ (0 < orderKey (fdiv32 a b) → 0 < orderKey a) ∧
      (orderKey (fdiv32 a b) < 0 → orderKey a < 0) := by
  have hsign : signBit b = false := by
    cases hs : signBit b with
    | false => rfl
    | true =>
      rw [orderKey, if_pos hs] at hpos
      omega
  have hb0 : magBits b ≠ 0 := by
    intro h
    simp [orderKey, h] at hpos
  obtain ⟨m, hm, h0, heq⟩ : ∃ m, m ≤ infMag ∧ (magBits a = 0 → m = 0) ∧ fdiv32 a b = packSign (signBit a) m := by
    rcases finite_or_inf ha with hf | hi
    · refine ⟨roundMag (units a * 2 ^ 149) (units b), roundMag_le .., fun h => ?_, ?_⟩
      · rw [(units_eq_zero_iff a).2 h, Nat.zero_mul, roundMag_zero]
      · simp [fdiv32, ha, isNaN32_of_finite hb, isInf32_of_finite hf, isInf32_of_finite hb, hb0, hsign]
    · refine ⟨infMag, le_refl _, fun h => ?_, ?_⟩
      · rw [isInf32, decide_eq_true_eq, h] at hi
        exact absurd hi (by decide)
      · simp [fdiv32, ha, isNaN32_of_finite hb, isInf32_of_finite hb, hi, hsign]
  rw [heq, orderKey_packSign (lt_of_le_of_lt hm (by decide)), orderKey]
  refine ⟨isNaN32_packSign hm, ?_, ?_⟩ <;> cases signBit a <;> simp <;> omega

/-- A count that fits a register is a finite value, above 0 unless it is 0. -/
theorem u2f32_of_lt {n : Nat} (hpos : 0 < n) (hlt : n < 2 ^ 32) :
    isFinite32 (u2f32 n) = true ∧ 0 < orderKey (u2f32 n) := by
  have hlo : 1 ≤ roundMag (n * 2 ^ 149) 1 := by
    refine le_roundMag_of_le (by decide) Nat.one_pos ?_
    rw [show magUnits 1 = 1 by decide]
    have : 0 < n * 2 ^ 149 := by positivity
    omega
  have hhi : roundMag (n * 2 ^ 149) 1 ≤ 0x4F800000 := by
    refine roundMag_le_of_le (by decide) Nat.one_pos ?_
    rw [show magUnits 0x4F800000 = 2 ^ 181 by decide]
    omega
  rw [isFinite32_iff_orderKey, u2f32, orderKey_packSign (roundMag_lt ..), if_neg Bool.false_ne_true]
  simp only [infMag]
  omega

end Sys2Proof.Machine
end

section
/-! PROOFS. The smoothers' part of the invariant (spec/10_state.md rule R35 (d) to (f)): every smoother operation of
spec/40_smoother.md keeps `SmootherInv`. -/

namespace Sys2Proof.Machine

variable {p : Params} {q : Smoother Word}

/-- The law of ramps in flight, through the places of the values. -/
theorem rampTowardTarget_iff (hc : isFinite32 q.cur = true) (ht : isFinite32 q.tgt = true) :
    rampTowardTarget q ↔ isNaN32 q.step = false ∧ (0 < orderKey q.step → orderKey q.cur ≤ orderKey q.tgt) ∧
      (orderKey q.step < 0 → orderKey q.tgt ≤ orderKey q.cur) := by
  refine and_congr_right fun hn => ?_
  rw [flt32_iff (by decide) hn, flt32_iff hn (by decide), fle32_iff (isNaN32_of_finite hc) (isNaN32_of_finite ht),
    fle32_iff (isNaN32_of_finite ht) (isNaN32_of_finite hc)]
  rfl

/-- When an increment passes the target, through the places of the values. -/
theorem passesTarget_iff {v : Word} (hs : isNaN32 q.step = false) (ht : isNaN32 q.tgt = false) (hv : isNaN32 v = false) :
    passesTarget (num32 p) q v = true ↔ (0 < orderKey q.step ∧ orderKey q.tgt < orderKey v) ∨
      (orderKey q.step < 0 ∧ orderKey v < orderKey q.tgt) := by
  simp only [passesTarget, num32_flt, num32_zero, Bool.or_eq_true, Bool.and_eq_true, flt32_iff ht hv, flt32_iff hv ht]
  rw [flt32_iff (by decide) hs, flt32_iff hs (by decide)]
  rfl

/-- No ramp in flight leads anywhere. -/
theorem rampTowardTarget_of_step_zero (h : q.step = 0#32) : rampTowardTarget q := by
  have h0 : flt32 0#32 0#32 = false := by decide
  rw [rampTowardTarget, h, h0]
  exact ⟨by decide, by simp, by simp⟩

/-- A smoother at rest on a finite target. -/
theorem SmootherInv.landed_at (hc : q.cur = q.tgt) (hs : q.step = 0#32) (hn : q.cnt = 0#32)
    (ht : isFinite32 q.tgt = true) (hl : q.nsteps = BitVec.ofNat 32 (floorN32 (fmul32 q.fs q.win))) : SmootherInv q where
  cnt_le := by simp [hn]
  landed := fun _ => hs
  tgt_finite := ht
  cur_finite := hc ▸ ht
  length_eq := hl
  toward := rampTowardTarget_of_step_zero hs

theorem smootherInv_atReset {pdef : Word} (h : isFinite32 pdef = true) : SmootherInv (smootherAtReset pdef) :=
  .landed_at rfl rfl rfl h (show 0#32 = BitVec.ofNat 32 (floorN32 (fmul32 0#32 0#32)) by decide)

/-- The increment of a fresh ramp leads from `cur` toward `tgt`. -/
theorem rampTowardTarget_increment {n : Nat} (hpos : 0 < n) (hlt : n < 2 ^ 32) (hc : isFinite32 q.cur = true)
    (ht : isFinite32 q.tgt = true) (hs : q.step = fdiv32 (fsub32 q.tgt q.cur) (u2f32 n)) : rampTowardTarget q := by
  obtain ⟨hufin, hupos⟩ := u2f32_of_lt hpos hlt
  obtain ⟨hnan, hup, hdown⟩ := fdiv32_of_pos (isNaN32_fsub32 ht hc) hufin hupos
  rw [orderKey_fsub32 ht hc] at hup hdown
  rw [rampTowardTarget_iff hc ht, hs, ← signedUnits_le_iff, ← signedUnits_le_iff]
  refine ⟨hnan, fun h => ?_, fun h => ?_⟩
  · have hd := pos_of_roundKey_pos (hup h)
    omega
  · have hd := neg_of_roundKey_neg (hdown h)
    omega

/-- A restarted ramp meets the invariant, whatever ramp was in flight. -/
theorem smootherInv_ramp (hc : isFinite32 q.cur = true) (ht : isFinite32 q.tgt = true)
    (hl : q.nsteps = BitVec.ofNat 32 (floorN32 (fmul32 q.fs q.win))) : SmootherInv (smoothRamp (num32 p) q) := by
  rw [smoothRamp]
  split
  · exact { cnt_le := Nat.zero_le _, landed := fun _ => rfl, tgt_finite := ht, cur_finite := hc, length_eq := hl
            toward := rampTowardTarget_of_step_zero rfl }
  · rename_i hne
    have hn : q.nsteps ≠ 0#32 := by
      intro h
      simp [h] at hne
    have hpos : 0 < q.nsteps.toNat := Nat.pos_of_ne_zero fun h => hn (BitVec.eq_of_toNat_eq h)
    exact { cnt_le := Nat.le_refl _, landed := fun h => absurd h hn, tgt_finite := ht, cur_finite := hc, length_eq := hl
            toward := rampTowardTarget_increment hpos q.nsteps.isLt hc ht rfl }

theorem smootherInv_configure (fs win : Word) (h : SmootherInv q) : SmootherInv (smoothConfigure (num32 p) fs win q) :=
  smootherInv_ramp h.cur_finite h.tgt_finite rfl

theorem smootherInv_setTarget {v : Word} (hv : isFinite32 v = true) (h : SmootherInv q) :
    SmootherInv (smoothSetTarget (num32 p) v q) := by
  rw [smoothSetTarget]
  split
  · exact h
  · exact smootherInv_ramp h.cur_finite hv h.length_eq

/-- An increment toward the target that does not pass it leads to a finite value, from which it still leads toward the
target. -/
theorem advance_of_not_passesTarget (h : SmootherInv q)
    (hp : passesTarget (num32 p) q (fadd32 q.cur q.step) = false) :
    isFinite32 (fadd32 q.cur q.step) = true ∧ rampTowardTarget { q with cur := fadd32 q.cur q.step } := by
  obtain ⟨hnan, hup, hdown⟩ := (rampTowardTarget_iff h.cur_finite h.tgt_finite).1 h.toward
  have hge := orderKey_le_fadd32 h.cur_finite hnan
  have hle := fadd32_le_orderKey h.cur_finite hnan
  have hcf := (isFinite32_iff_orderKey q.cur).1 h.cur_finite
  have htf := (isFinite32_iff_orderKey q.tgt).1 h.tgt_finite
  rw [← Bool.not_eq_true, passesTarget_iff hnan (isNaN32_of_finite h.tgt_finite) (isNaN32_fadd32 h.cur_finite hnan)] at hp
  have hfin : isFinite32 (fadd32 q.cur q.step) = true := by
    rw [isFinite32_iff_orderKey]
    omega
  refine ⟨hfin, (rampTowardTarget_iff (q := { q with cur := fadd32 q.cur q.step }) hfin h.tgt_finite).2
    ⟨hnan, fun hs => ?_, fun hs => ?_⟩⟩ <;> dsimp only at hs ⊢ <;> omega

/-- One sample of a ramp keeps the invariant. -/
theorem smootherInv_next (h : SmootherInv q) : SmootherInv (smoothNext (num32 p) q) := by
  have hland : SmootherInv { q with cur := q.tgt, cnt := 0#32, step := 0#32 } :=
    .landed_at rfl rfl rfl h.tgt_finite h.length_eq
  rw [smoothNext]
  split
  · rename_i hc
    have hc : q.cnt = 0#32 := by simpa using hc
    exact .landed_at rfl (h.landed hc) hc h.tgt_finite h.length_eq
  · rename_i hc
    split
    · exact hland
    · rename_i hc1
      dsimp only
      split
      · exact hland
      · rename_i hp
        obtain ⟨hfin, htoward⟩ := advance_of_not_passesTarget (p := p) h (by simpa using hp)
        have hcnt := h.cnt_le
        exact { cnt_le := by
                  simp only [beq_iff_eq] at hc
                  bv_omega
                landed := fun h1 => absurd h1 (by simpa using hc1)
                tgt_finite := h.tgt_finite, cur_finite := hfin, length_eq := h.length_eq, toward := htoward }

end Sys2Proof.Machine
end

section
/-! PROOFS. The invariant of spec/10_state.md rule R35: each write of a register group keeps it, hence each command, each
event of the host and each step. Inside `BLK` the property carried through the loops is the invariant of the state with
its sequencer put back to idle. -/

namespace Sys2Proof.Machine

/-! ### The loops of a block, with their bounds -/

/-- `P` holds at the end of a part of `BLK`, or held where it faulted. -/
def Ends (P : State → Prop) : Except State State → Prop
  | .ok u => P u
  | .error u => ∃ e ch idx v, P v ∧ u = raise e Op.blk.code ch idx v

/-- A property kept by steps 3 and 4 of a block of `len` frames over `nch` channels (spec/44_block.md rule R107). -/
structure KeptByLoops (N : Num Word) (nch len : Nat) (P : State → Prop) : Prop where
  seq : ∀ s ph n c, P s → P (setSeq s ph n c)
  refreshed : ∀ s c q, c < nch → P s → circuitUpdate N (getCircuit s c) s.df s.tf = .ok q → P (setCircuit s c q)
  frame : ∀ s n, P s → P (blkFrameStart N n s)
  sample : ∀ s n c q v, c < nch → n < len → P s → q.rdy = (getCircuit s c).rdy → q.fs = (getCircuit s c).fs →
    coefsOf q = coefsOf (getCircuit s c) → P { setCircuit s c q with buf := memWrite s.buf c n v }

section Loops

variable {N : Num Word} {nch len : Nat} {P : State → Prop}

theorem blkRefresh_ends (h : KeptByLoops N nch len P) :
    ∀ count c s, c + count ≤ nch → P s → Ends P (blkRefresh N count c s)
  | 0, _, _, _, hs => hs
  | count + 1, c, s, hc, hs => by
    have hq := h.seq s .refresh 0 c hs
    rw [blkRefresh]
    split
    · exact ⟨_, _, _, _, hq, rfl⟩
    · rename_i hu
      exact blkRefresh_ends h count (c + 1) _ (by omega) (h.refreshed _ _ _ (by omega) hq hu)

theorem blkSample_ends (h : KeptByLoops N nch len P) {n c : Nat} {s : State} (hc : c < nch) (hn : n < len) (hs : P s) :
    Ends P (blkSample N n c s) := by
  have hq := h.seq s .frames n c hs
  rw [blkSample]
  dsimp only
  split
  · exact h.sample _ n c _ _ hc hn hq rfl rfl rfl
  · exact ⟨_, _, _, _, hq, rfl⟩

theorem blkChannels_ends (h : KeptByLoops N nch len P) {n : Nat} (hn : n < len) :
    ∀ count c s, c + count ≤ nch → P s → Ends P (blkChannels N n count c s)
  | 0, _, _, _, hs => hs
  | count + 1, c, s, hc, hs => by
    have hp := blkSample_ends h (by omega : c < nch) hn hs
    rw [blkChannels]
    split <;> rename_i heq <;> rw [heq] at hp
    · exact hp
    · exact blkChannels_ends h hn count (c + 1) _ (by omega) hp

theorem blkFrames_ends (h : KeptByLoops N nch len P) :
    ∀ count n s, n + count ≤ len → P s → Ends P (blkFrames N nch count n s)
  | 0, _, _, _, hs => hs
  | count + 1, n, s, hn, hs => by
    have hp := blkChannels_ends h (by omega : n < len) nch 0 _ (by omega) (h.frame s n hs)
    rw [blkFrames]
    split <;> rename_i heq <;> rw [heq] at hp
    · exact hp
    · exact blkFrames_ends h count (n + 1) _ (by omega) hp

/-- What the loops keep from the latched state on holds where the block ends, the sequencer put to idle. -/
theorem runBlock_ends {l d t lv : Word} {s r : State} (h : KeptByLoops N s.nch.toNat l.toNat P)
    (hs : P (blkLatch (blkTargets N d t lv s)))
    (hr : runBlock N l d t lv s = .ok r ∨ runBlock N l d t lv s = .error r) :
    (∃ v, P v ∧ r = setSeq v .idle 0 0) ∨ ∃ e ch idx v, P v ∧ r = raise e Op.blk.code ch idx v := by
  have hp := blkRefresh_ends h s.nch.toNat 0 _ (by omega) hs
  rw [runBlock] at hr
  split at hr <;> rename_i u heq <;> rw [heq] at hp
  · cases hr.resolve_left nofun
    exact .inr hp
  · have hf := blkFrames_ends h l.toNat 0 _ (by omega) hp
    split at hr <;> rename_i u' heq' <;> rw [heq'] at hf
    · cases hr.resolve_left nofun
      exact .inr hf
    · cases hr.resolve_right nofun
      exact .inl ⟨u', hf, rfl⟩

end Loops

/-! ### Writes of one register group -/

section Writes

variable {s t : State}

/-- The smoothers' part of the invariant speaks of `sm` only. -/
theorem Inv.smoothers_of_sm (h : Inv s) (hsm : t.sm = s.sm) (k : Knob) : SmootherInv (getSm t k) := by
  have hk : getSm t k = getSm s k := by cases k <;> simp only [getSm, hsm]
  exact hk ▸ h.smoothers k

/-- New smoothers, each within its part of the invariant. -/
theorem Inv.sm_eq (h : Inv s) {m : Smoothers} (hd : SmootherInv m.drive) (ht : SmootherInv m.tone)
    (hl : SmootherInv m.level) : Inv { s with sm := m } :=
  { h with
    smoothers := fun
      | .drive => hd
      | .tone => ht
      | .level => hl }

theorem Inv.raised (h : Inv s) (e : Cause) (op ch : Byte) (idx : Word) : Inv (raise e op ch idx s) :=
  { h with sequencer := rfl, assembling := rfl, status := .inr ⟨e, rfl, rfl⟩
           smoothers := h.smoothers_of_sm rfl }

theorem Inv.res_eq (h : Inv s) (r : Res) : Inv { s with res := r } :=
  { h with smoothers := h.smoothers_of_sm rfl }

theorem Inv.setRes0 (h : Inv s) (v : Word) : Inv (setRes0 s v) := h.res_eq _

theorem Inv.port_eq (h : Inv s) (rest : List HostEvent) : Inv { s with port := rest } :=
  { h with smoothers := h.smoothers_of_sm rfl }

/-- `CMDQ` may hold any words that still wait for more. -/
theorem Inv.cmdq_eq (h : Inv s) {ws : List Word} (hw : decodeWords ws = .incomplete) : Inv { s with cmdq := ws } :=
  { h with assembling := hw, smoothers := h.smoothers_of_sm rfl }

theorem Inv.setSm (h : Inv s) (k : Knob) {q : Smoother Word} (hq : SmootherInv q) : Inv (setSm s k q) := by
  cases k with
  | drive => exact h.sm_eq hq (h.smoothers .tone) (h.smoothers .level)
  | tone => exact h.sm_eq (h.smoothers .drive) hq (h.smoothers .level)
  | level => exact h.sm_eq (h.smoothers .drive) (h.smoothers .tone) hq

/-- A circuit may be replaced by one that is as Ready as it and, where it exists, prepared. -/
theorem Inv.setCircuit (h : Inv s) {c : Nat} {q : Circuit Word} (hr : q.rdy = (getCircuit s c).rdy)
    (hq : c < s.nch.toNat → PreparedCircuit s.par q) : Inv (setCircuit s c q) :=
  { h with
    circuits := (length_setCircuit s c q).trans h.circuits
    ready := fun c' hc' => by
      rw [getCircuit_setCircuit_keeps Circuit.rdy s c q hr]
      exact h.ready c' hc'
    prepared := fun c' hc' => by
      by_cases hc : c' = c
      · subst hc
        have hlen := h.circuits
        have hnch := h.nch_le
        rw [getCircuit_setCircuit_same q (Nat.lt_of_lt_of_le hc' (hlen ▸ hnch))]
        exact hq hc'
      · rw [getCircuit_setCircuit_other s q hc]
        exact h.prepared c' hc'
    smoothers := h.smoothers_of_sm rfl }

/-- A circuit that keeps its rate and its coefficients stays prepared. -/
theorem Inv.setCircuit_of_coefs_eq (h : Inv s) {c : Nat} {q : Circuit Word} (hr : q.rdy = (getCircuit s c).rdy)
    (hf : q.fs = (getCircuit s c).fs) (hk : coefsOf q = coefsOf (getCircuit s c)) : Inv (Machine.setCircuit s c q) :=
  h.setCircuit hr fun hc => by
    rw [PreparedCircuit, hf, hk]
    exact h.prepared c hc

/-- New coefficients at the circuit's own rate keep it prepared. -/
theorem Inv.setCircuit_withCoefs (h : Inv s) {c : Nat} {tone : Word} {k : CoefBank Word}
    (hk : circuitCoefs (num32 s.par) (getCircuit s c).fs tone = .ok k) :
    Inv (Machine.setCircuit s c (withCoefs (getCircuit s c) k)) :=
  h.setCircuit rfl fun hc => ⟨(h.prepared c hc).1, tone, hk⟩

/-- An existing cell may be written. -/
theorem Inv.memWrite (h : Inv s) {c i : Nat} (v : Word) (hc : c < s.par.nchMax) (hi : i < s.par.blkMax) :
    Inv { s with buf := memWrite s.buf c i v } :=
  { h with
    smoothers := h.smoothers_of_sm rfl
    canonical := wf_memWrite c i v h.canonical
    inRange := fun kv hkv => by
      rcases mem_insert hkv with rfl | hold
      · exact ⟨c, i, hc, hi, rfl⟩
      · exact h.inRange kv hold }

/-- The registers that `CFG` writes, its checks passed, meet the invariant together. -/
theorem Inv.configure (h : Inv s) {fs blksz nch : Word} {k : CoefBank Word} (hfs : rateOk (num32 s.par) fs = true)
    (hb0 : blksz ≠ 0#32) (hb : blksz.toNat ≤ s.par.blkMax) (hn0 : nch ≠ 0#32) (hn : nch.toNat ≤ s.par.nchMax)
    (hk : circuitCoefs (num32 s.par) fs s.par.pdefTone = .ok k) : Inv (configure (num32 s.par) fs blksz nch k s) := by
  have hget : ∀ c, c < s.par.nchMax → getCircuit (Machine.configure (num32 s.par) fs blksz nch k s) c =
      if c < nch.toNat then preparedCircuit (num32 s.par) fs k else circuitAtReset := by
    intro c hc
    simp [getCircuit, Machine.configure, configuredCircuits, hc]
  exact
    { h with
      circuits := by simp [Machine.configure, configuredCircuits]
      unconfigured := by simp [Machine.configure, hb0, hn0]
      nch_le := hn
      blksz_le := hb
      ready := fun c hc => by
        rw [hget c hc]
        show _ ↔ c < nch.toNat
        split <;> simp [circuitAtReset, *]
      prepared := fun c hc => by
        have hc : c < nch.toNat := hc
        rw [hget c (Nat.lt_of_lt_of_le hc hn), if_pos hc]
        exact ⟨hfs, s.par.pdefTone, hk⟩
      smoothers := fun
        | .drive => smootherInv_configure _ _ (h.smoothers .drive)
        | .tone => smootherInv_configure _ _ (h.smoothers .tone)
        | .level => smootherInv_configure _ _ (h.smoothers .level) }

/-- Reset registers meet the invariant around any buffer that does. -/
theorem Inv.reset (h : Inv s) : Inv (applyReset s) := by
  have hpdef : isFinite32 s.par.pdefDrive = true ∧ isFinite32 s.par.pdefTone = true ∧
      isFinite32 s.par.pdefLevel = true := by
    have hp := h.params
    simp only [paramsOk, paramsOkIn, Bool.and_eq_true, num32_isfinite] at hp
    obtain ⟨⟨⟨-, hd, -⟩, ht, -⟩, hl, -⟩ := hp
    exact ⟨hd, ht, hl⟩
  obtain ⟨hd, ht, hl⟩ := hpdef
  exact
    { h with
      circuits := by simp
      unconfigured := by simp
      nch_le := Nat.zero_le _
      blksz_le := Nat.zero_le _
      ready := fun c hc => by simp [getCircuit, circuitAtReset]
      prepared := fun c hc => absurd hc (by simp)
      smoothers := fun
        | .drive => smootherInv_atReset hd
        | .tone => smootherInv_atReset ht
        | .level => smootherInv_atReset hl
      sequencer := rfl
      assembling := rfl
      status := .inl rfl }

/-- A `RESET` that cuts a command short: every cell left in the list is one that the command's own end lists. -/
theorem Inv.resetCut (h : Inv s) (ht : Inv t) (hpar : t.par = s.par) : Inv (applyResetCut s t) :=
  { h.reset with
    smoothers := h.reset.smoothers_of_sm rfl
    canonical := wf_memCut _ _ ht.canonical
    inRange := fun kv hkv => by
      obtain ⟨kv', hmem, hkey⟩ := mem_memCut hkv
      obtain ⟨c, i, hc, hi, hcell⟩ := ht.inRange kv' hmem
      rw [hpar] at hc hi
      exact ⟨c, i, hc, hi, hkey ▸ hcell⟩ }

end Writes

/-! ### The block -/

/-- Inside a block that starts in `s`: the invariant, the sequencer put back to idle, and what bounds the block's
circuits and cells is as it was. -/
structure InvInBlock (s u : State) : Prop where
  inv : Inv (setSeq u .idle 0 0)
  nch : u.nch = s.nch
  par : u.par = s.par

section Block

variable {s u t : State}

/-- The state in which step 3 begins. -/
theorem invInBlock_start (h : Inv s) {d t l : Word} (hd : isFinite32 d = true) (ht : isFinite32 t = true)
    (hl : isFinite32 l = true) : InvInBlock s (blkLatch (blkTargets (num32 s.par) d t l s)) where
  inv :=
    { h with
      sequencer := rfl
      smoothers := fun
        | .drive => smootherInv_setTarget hd (h.smoothers .drive)
        | .tone => smootherInv_setTarget ht (h.smoothers .tone)
        | .level => smootherInv_setTarget hl (h.smoothers .level) }
  nch := rfl
  par := rfl

/-- A frame begins: each smoother advances by one sample. -/
theorem InvInBlock.frame (h : InvInBlock s u) (n : Nat) : InvInBlock s (blkFrameStart (num32 s.par) n u) where
  inv :=
    { h.inv with
      smoothers := fun
        | .drive => smootherInv_next (h.inv.smoothers .drive)
        | .tone => smootherInv_next (h.inv.smoothers .tone)
        | .level => smootherInv_next (h.inv.smoothers .level) }
  nch := h.nch
  par := h.par

/-- Steps 3 and 4 of an accepted block keep the invariant. -/
theorem keptByLoops_invInBlock {len : Nat} (hn : s.nch.toNat ≤ s.par.nchMax) (hlen : len ≤ s.par.blkMax) :
    KeptByLoops (num32 s.par) s.nch.toNat len (InvInBlock s) where
  seq := fun _ _ _ _ h => ⟨h.inv, h.nch, h.par⟩
  frame := fun _ n h => h.frame n
  refreshed := by
    intro u c q _ h hq
    obtain ⟨k, hk, rfl⟩ := (circuitUpdate_eq_ok_iff ..).1 hq
    rw [← h.par] at hk
    exact ⟨h.inv.setCircuit_withCoefs (c := c) hk, h.nch, h.par⟩
  sample := by
    intro u n c q v hc hnlen h hr hf hk
    have hset := h.inv.setCircuit_of_coefs_eq (c := c) hr hf hk
    have hcmax : c < u.par.nchMax := by rw [h.par]; omega
    have hnmax : n < u.par.blkMax := by rw [h.par]; omega
    exact ⟨hset.memWrite v hcmax hnmax, h.nch, h.par⟩

theorem blk_keeps_inv {len d tn l : Word} (h : Inv s) (hf : isFaulted s = false)
    (hr : execBlk len d tn l s = .next t) : Inv t := by
  obtain ⟨e, rfl⟩ | ⟨-, hlen, hd, htn, hl, -, -, -, -, hrun⟩ := blkIn_cases hf hr
  · exact h.raised ..
  · have hkept := keptByLoops_invInBlock (s := s) (len := len.toNat) h.nch_le (hlen.trans h.blksz_le)
    obtain ⟨v, hv, rfl⟩ | ⟨e, ch, idx, v, hv, rfl⟩ := runBlock_ends hkept (invInBlock_start h hd htn hl) hrun
    · exact hv.inv
    · exact hv.inv.raised e _ ch idx

end Block

/-! ### Commands, events, steps -/

section Steps

variable {s t : State}

/-- Every command keeps the invariant, whether it completes or faults. -/
theorem exec_keeps_inv {i : Instr} (h : Inv s) (hr : exec i s = .next t) : Inv t := by
  cases hf : isFaulted s with
  | true =>
    rw [exec_of_faulted i hf, Host.Outcome.next.injEq] at hr
    exact hr ▸ h
  | false =>
    cases i with
    | cfg =>
      obtain ⟨e, rfl⟩ | ⟨hfs, hb0, hb, hn0, hn, -, k, hk, rfl⟩ := cfgIn_cases hf hr
      · exact h.raised ..
      · exact h.configure hfs hb0 hb hn0 hn hk
    | blk => exact blk_keeps_inv h hf hr
    | wrs =>
      obtain ⟨e, rfl⟩ | ⟨hc, hi, rfl⟩ := execWrs_cases hf hr
      · exact h.raised ..
      · exact h.memWrite _ hc hi
    | rds =>
      obtain ⟨e, rfl⟩ | ⟨-, -, rfl⟩ := execRds_cases hf hr
      · exact h.raised ..
      · exact h.res_eq _
    | smcfg =>
      obtain ⟨e, rfl⟩ | ⟨-, -, -, rfl⟩ := smcfgIn_cases hf hr
      · exact h.raised ..
      · exact h.setSm _ (smootherInv_configure _ _ (h.smoothers _))
    | smtgt =>
      obtain ⟨-, rfl⟩ | ⟨hv, rfl⟩ := smtgtIn_cases hf hr
      · exact h.raised ..
      · exact h.setSm _ (smootherInv_setTarget hv (h.smoothers _))
    | smcur =>
      cases (execSmcur_eq hf).symm.trans hr
      exact h.setRes0 _
    | smnxt =>
      cases (smnxtIn_eq hf).symm.trans hr
      exact (h.setSm _ (smootherInv_next (h.smoothers _))).setRes0 _
    | coef =>
      obtain ⟨e, -, rfl⟩ | ⟨k, -, rfl⟩ := coefIn_cases hf hr
      · exact h.raised ..
      · exact h.res_eq _
    | fapp =>
      obtain ⟨e, rfl⟩ | ⟨-, -, -, rfl⟩ := fappIn_cases hf hr
      · exact h.raised ..
      · exact .setRes0 (h.setCircuit_of_coefs_eq (by simp) (by simp) (by exact setFilter_coefs rfl)) _
    | clip =>
      obtain ⟨-, rfl⟩ | ⟨-, rfl⟩ := clipIn_cases hf hr
      · exact h.raised ..
      · exact h.res_eq _
    | cprep =>
      obtain ⟨e, rfl⟩ | ⟨hc, hfs, -, k, hk, rfl⟩ := cprepIn_cases hf hr
      · exact h.raised ..
      · have hready := (h.ready _ (Nat.lt_of_lt_of_le hc h.nch_le)).2 hc
        exact h.setCircuit hready.symm fun _ => ⟨hfs, _, hk⟩
    | updf =>
      obtain ⟨e, rfl⟩ | ⟨-, -, -, -, k, hk, rfl⟩ := updfIn_cases hf hr
      · exact h.raised ..
      · exact h.setCircuit_withCoefs hk
    | psmp =>
      obtain ⟨e, rfl⟩ | ⟨-, -, -, -, -, -, rfl⟩ := psmpIn_cases hf hr
      · exact h.raised ..
      · exact .setRes0 (h.setCircuit_of_coefs_eq (by rfl) (by rfl) (by rfl)) _

/-- An accepted word keeps the invariant: it is discarded, faults at once, waits in `CMDQ` or runs a command. -/
theorem acceptWord_keeps_inv {w : Word} (h : Inv s) (hr : acceptWord exec w s = .next t) : Inv t := by
  obtain ⟨-, rfl⟩ | ⟨-, ⟨w0, why, -, rfl⟩ | ⟨hd, rfl⟩ | ⟨i, rest, -, hrun⟩⟩ := acceptWord_cases hr
  · exact h
  · exact h.raised ..
  · exact h.cmdq_eq hd
  · exact exec_keeps_inv (h.cmdq_eq rfl) hrun

/-- Settles O40: each of the three events of the host keeps the invariant. -/
theorem stepKeepsInv : Obligations.StepKeepsInv := by
  intro s t h hstep
  obtain ⟨-, ⟨-, rfl⟩ | ⟨e, rest, -, ⟨w, -, hw⟩ | ⟨-, rfl⟩ | ⟨w, u, -, hw, rfl⟩⟩⟩ := step_cases hstep
  · exact h
  · exact acceptWord_keeps_inv (h.port_eq rest) hw
  · exact (h.port_eq rest).reset
  · exact (h.port_eq rest).resetCut (acceptWord_keeps_inv (h.port_eq rest) hw) (acceptWord_model hw).1

end Steps

end Sys2Proof.Machine
end

section
/-! PROOFS. Correct rounding (spec/00_scope.md rules R12, R37): the pattern that `roundMag` takes is a nearest one among all
magnitude patterns, ties to even, and it reaches the infinity exactly at the overflow threshold; then the signed results
and IEEE 754's special values, one lemma for each operation. -/

namespace Sys2Proof.Machine

theorem isInf32_packSign (neg : Bool) : isInf32 (packSign neg infMag) = true := by
  cases neg <;> decide

/-! ### Nearest whole number -/

/-- A quotient half a unit away from its rounding was a tie, which goes to the even neighbour. -/
theorem roundHalfEven_even_of_tie {num den : Nat} (hd : 0 < den)
    (h : 2 * (roundHalfEven num den * den) = 2 * num + den ∨ 2 * num = 2 * (roundHalfEven num den * den) + den) :
    roundHalfEven num den % 2 = 0 := by
  have hdiv := Nat.div_add_mod num den
  have hr := Nat.mod_lt num hd
  have hm : num / den * den = den * (num / den) := Nat.mul_comm _ _
  simp only [roundHalfEven] at h ⊢
  split at h
  · rw [if_pos (by assumption)]
    rw [Nat.add_mul] at h
    omega
  · rw [if_neg (by assumption)]
    omega

/-- No whole number is nearer than the rounded one, and another one as near means that the rounded one is even. -/
theorem roundHalfEven_nearest (num k : Nat) {den : Nat} (hd : 0 < den) :
    (((roundHalfEven num den * den : Nat) : Int) - num).natAbs ≤ (((k * den : Nat) : Int) - num).natAbs ∧
      ((((k * den : Nat) : Int) - num).natAbs = (((roundHalfEven num den * den : Nat) : Int) - num).natAbs →
        k = roundHalfEven num den ∨ roundHalfEven num den % 2 = 0) := by
  obtain ⟨hlo, hhi⟩ := roundHalfEven_within num hd
  have heven := roundHalfEven_even_of_tie (num := num) hd
  rcases Nat.lt_trichotomy k (roundHalfEven num den) with hk | rfl | hk
  · have hgap : (k + 1) * den ≤ roundHalfEven num den * den := Nat.mul_le_mul_right _ hk
    rw [Nat.add_mul] at hgap
    omega
  · exact ⟨le_refl _, fun _ => .inl rfl⟩
  · have hgap : (roundHalfEven num den + 1) * den ≤ k * den := Nat.mul_le_mul_right _ hk
    rw [Nat.add_mul] at hgap
    omega

/-! ### Nearest magnitude -/

/-- The pattern that `roundMag` takes before it caps it at the infinity. -/
def roundPattern (num den : Nat) : Nat :=
  lastPlace num den * 2 ^ 23 + roundHalfEven num (den * 2 ^ lastPlace num den)

theorem roundMag_eq_min (num den : Nat) : roundMag num den = min (roundPattern num den) infMag := rfl

/-- The magnitude of the pattern, as if the exponents went on above the infinity. -/
theorem magUnits_roundPattern (num den : Nat) :
    magUnits (roundPattern num den) =
      roundHalfEven num (den * 2 ^ lastPlace num den) * 2 ^ lastPlace num den := by
  obtain ⟨hhi, hlo⟩ := keptBits_bounds num den
  rw [roundPattern]
  generalize roundHalfEven num (den * 2 ^ lastPlace num den) = m at hhi hlo ⊢
  generalize lastPlace num den = e at hlo ⊢
  rcases Nat.lt_or_ge m (2 ^ 23) with hm | hm
  · have he : e = 0 := by
      by_contra he
      have := hlo he
      omega
    subst he
    rw [Nat.zero_mul, Nat.zero_add, magUnits, if_pos hm, pow_zero, Nat.mul_one]
  · rcases Nat.lt_or_ge m (2 ^ 24) with hm' | hm'
    · exact magUnits_pack hm hm'
    · -- all kept bits carried out
      have hm : m = 2 ^ 24 := by omega
      rw [hm, show e * 2 ^ 23 + 2 ^ 24 = (e + 1) * 2 ^ 23 + 2 ^ 23 by omega, magUnits_pack (le_refl _) (by norm_num)]
      ring

/-- A magnitude is a multiple of the last place `2^e`, or below all that have it as their last place. -/
theorem magUnits_multiple_or_small (e m : Nat) :
    (∃ k, magUnits m = k * 2 ^ e) ∨ (e ≠ 0 ∧ magUnits m < 2 ^ 23 * 2 ^ e) := by
  by_cases he : e = 0
  · exact .inl ⟨magUnits m, by rw [he, pow_zero, Nat.mul_one]⟩
  rcases magBits_cases m with hm | ⟨e', k, hlo, hhi, rfl⟩
  · refine .inr ⟨he, ?_⟩
    rw [magUnits, if_pos hm]
    exact Nat.lt_of_lt_of_le hm (Nat.le_mul_of_pos_right _ (by positivity))
  · rw [magUnits_pack hlo hhi]
    rcases Nat.lt_or_ge e' e with hlt | hge
    · refine .inr ⟨he, ?_⟩
      calc k * 2 ^ e' < 2 ^ 24 * 2 ^ e' := Nat.mul_lt_mul_of_pos_right hhi (by positivity)
        _ = 2 ^ 23 * 2 ^ (e' + 1) := by ring
        _ ≤ 2 ^ 23 * 2 ^ e := Nat.mul_le_mul_left _ (Nat.pow_le_pow_right (by norm_num) hlt)
    · refine .inl ⟨k * 2 ^ (e' - e), ?_⟩
      rw [Nat.mul_assoc, ← Nat.pow_add, Nat.sub_add_cancel hge]

/-- How far a magnitude of `u` units is from `num / den` units, times `den`. -/
def gap (num den u : Nat) : Nat := (((u * den : Nat) : Int) - num).natAbs

/-- No magnitude is nearer than the rounded one, and another one as near means that its last bit is 0. -/
theorem roundPattern_nearest (num m : Nat) {den : Nat} (hd : 0 < den) :
    gap num den (magUnits (roundPattern num den)) ≤ gap num den (magUnits m) ∧
      (gap num den (magUnits m) = gap num den (magUnits (roundPattern num den)) →
        m = roundPattern num den ∨ roundPattern num den % 2 = 0) := by
  have hu := magUnits_roundPattern num den
  have hparity : roundPattern num den % 2 = roundHalfEven num (den * 2 ^ lastPlace num den) % 2 := by
    rw [roundPattern]
    omega
  have hlow := (lastPlace_bounds num den).2
  revert hu hparity hlow
  generalize lastPlace num den = e
  intro hu hparity hlow
  have hD : 0 < den * 2 ^ e := by positivity
  have hscale : ∀ k, k * 2 ^ e * den = k * (den * 2 ^ e) := fun k => by ring
  rcases magUnits_multiple_or_small e m with ⟨k, hk⟩ | ⟨he, hsmall⟩
  · obtain ⟨hle, htie⟩ := roundHalfEven_nearest num k hD
    simp only [gap, hu, hk, hscale]
    refine ⟨hle, fun h => (htie h).imp (fun hkr => ?_) fun hev => hparity.trans hev⟩
    exact magUnits_strictMono.injective (by rw [hu, hk, hkr])
  · -- `m` lies below the binade of the quotient, whose first magnitude is nearer than `m`
    obtain ⟨hle, -⟩ := roundHalfEven_nearest num (2 ^ 23) hD
    have hfirst : 2 ^ 23 * (den * 2 ^ e) ≤ num := by
      have h1 := hlow he
      rw [Nat.le_div_iff_mul_le hd] at h1
      calc 2 ^ 23 * (den * 2 ^ e) = 2 ^ (e + 23) * den := by ring
        _ ≤ num := h1
    have hlt : magUnits m * den < 2 ^ 23 * (den * 2 ^ e) := by
      calc magUnits m * den < 2 ^ 23 * 2 ^ e * den := Nat.mul_lt_mul_of_pos_right hsmall hd
        _ = 2 ^ 23 * (den * 2 ^ e) := by ring
    simp only [gap, hu, hscale]
    omega

/-- The rounding reaches the infinity exactly from the overflow threshold on. -/
theorem roundPattern_lt_infMag_iff (num : Nat) {den : Nat} (hd : 0 < den) :
    roundPattern num den < infMag ↔ num < overflowUnits * den := by
  obtain ⟨hmax, -⟩ := roundPattern_nearest num (infMag - 1) hd
  obtain ⟨hinf, htie⟩ := roundPattern_nearest num infMag hd
  have humax : magUnits (infMag - 1) = (2 ^ 24 - 1) * 2 ^ 253 := by decide
  have huinf : magUnits infMag = 2 ^ 24 * 2 ^ 253 := by decide
  simp only [gap, humax, huinf, overflowUnits] at hmax hinf htie ⊢
  constructor
  · intro hlt
    by_contra hge
    rcases Nat.lt_or_eq_of_le (Nat.le_sub_one_of_lt hlt) with hbelow | hlast
    · have hle : magUnits (roundPattern num den) * den < (2 ^ 24 - 1) * 2 ^ 253 * den :=
        Nat.mul_lt_mul_of_pos_right (humax ▸ magUnits_strictMono hbelow) hd
      omega
    · -- the greatest finite magnitude is odd, so it loses the tie with the infinity
      have hodd : roundPattern num den % 2 = 1 := by rw [hlast]; decide
      rw [hlast, humax] at hinf htie
      omega
  · intro hlt
    by_contra hge
    have hle : 2 ^ 24 * 2 ^ 253 * den ≤ magUnits (roundPattern num den) * den :=
      Nat.mul_le_mul_right _ (huinf ▸ magUnits_strictMono.monotone (by omega))
    omega

/-! ### Signed results -/

@[simp] theorem roundPattern_zero (den : Nat) : roundPattern 0 den = 0 := by
  simp [roundPattern, lastPlace, roundHalfEven]

/-- A finite value in units, times `den`, by its sign. -/
theorem signedUnits_mul_natCast (den : Nat) (w : Word) :
    signedUnits w * den = if signBit w then -((units w * den : Nat) : Int) else (units w * den : Nat) := by
  rw [signedUnits]
  split <;> simp

/-- The distance to a signed value is at least that of the magnitudes. -/
theorem gap_le_natAbs_sub (num : Int) (den : Nat) (w : Word) :
    gap num.natAbs den (units w) ≤ (signedUnits w * den - num).natAbs := by
  rw [gap, signedUnits_mul_natCast]
  split <;> omega

/-- Below the overflow threshold a pattern with the sign of `num` and the rounded magnitude is at `num`'s side of 0. -/
theorem signedUnits_packSign_roundMag {num : Int} {den : Nat} {neg : Bool} (hd : 0 < den)
    (hpos : 0 < num → neg = false) (hneg : num < 0 → neg = true) (h : num.natAbs < overflowUnits * den) :
    signedUnits (packSign neg (roundMag num.natAbs den)) * den =
      if num < 0 then -((magUnits (roundPattern num.natAbs den) * den : Nat) : Int)
      else (magUnits (roundPattern num.natAbs den) * den : Nat) := by
  have hfin := (roundPattern_lt_infMag_iff num.natAbs hd).2 h
  rw [signedUnits, units, signBit_packSign (roundMag_lt ..), magBits_packSign (roundMag_lt ..), roundMag_eq_min,
    Nat.min_eq_left hfin.le]
  rcases lt_trichotomy num 0 with h0 | rfl | h0
  · simp [hneg h0, h0]
  · simp
  · simp [hpos h0, h0.le]

/-- The distance of the rounded value is that of its magnitude. -/
theorem natAbs_sub_packSign_roundMag {num : Int} {den : Nat} {neg : Bool} (hd : 0 < den)
    (hpos : 0 < num → neg = false) (hneg : num < 0 → neg = true) (h : num.natAbs < overflowUnits * den) :
    (signedUnits (packSign neg (roundMag num.natAbs den)) * den - num).natAbs =
      gap num.natAbs den (magUnits (roundPattern num.natAbs den)) := by
  rw [signedUnits_packSign_roundMag hd hpos hneg h, gap]
  clear h
  split <;> omega

/-- A value of the rounded magnitude that is as near to `num / den` as the rounded value is the rounded value. -/
theorem signedUnits_eq_of_units_eq {num : Int} {den : Nat} {neg : Bool} {w : Word} (hd : 0 < den)
    (hpos : 0 < num → neg = false) (hneg : num < 0 → neg = true) (h : num.natAbs < overflowUnits * den)
    (hw : magBits w = roundPattern num.natAbs den)
    (heq : (signedUnits w * den - num).natAbs =
      (signedUnits (packSign neg (roundMag num.natAbs den)) * den - num).natAbs) :
    signedUnits w = signedUnits (packSign neg (roundMag num.natAbs den)) := by
  have hzero : num = 0 → units w = 0 := fun h0 => by
    rw [units, hw, h0, Int.natAbs_zero, roundPattern_zero, magUnits_zero]
  have hr := signedUnits_packSign_roundMag hd hpos hneg h
  have hx := signedUnits_mul_natCast den w
  have hd' : (den : Int) ≠ 0 := by omega
  refine Int.eq_of_mul_eq_mul_right hd' ?_
  rw [← hw, ← units] at hr
  rw [hr] at heq ⊢
  clear h hr
  rw [hx] at heq ⊢
  rcases eq_or_ne num 0 with h0 | h0
  · simp [hzero h0]
  · split_ifs at heq ⊢ <;> omega

/-- A pattern with the sign of `num` and the rounded magnitude is `num / den` units correctly rounded. -/
theorem nearestEven_packSign (num : Int) {den : Nat} {neg : Bool} (hd : 0 < den) (hpos : 0 < num → neg = false)
    (hneg : num < 0 → neg = true) : NearestEven num den (packSign neg (roundMag num.natAbs den)) := by
  have hlt := roundMag_lt num.natAbs den
  have hthr := roundPattern_lt_infMag_iff num.natAbs hd
  have hmag : magBits (packSign neg (roundMag num.natAbs den)) = min (roundPattern num.natAbs den) infMag :=
    (magBits_packSign hlt).trans (roundMag_eq_min ..)
  exact
    { nearest := fun h => by
        refine ⟨by rw [isFinite32_iff, hmag, Nat.min_eq_left (hthr.2 h).le]; exact hthr.2 h, fun w _ => ?_⟩
        rw [natAbs_sub_packSign_roundMag hd hpos hneg h]
        exact (roundPattern_nearest num.natAbs (magBits w) hd).1.trans (gap_le_natAbs_sub num den w)
      even := fun h w _ heq => by
        obtain ⟨hle, htie⟩ := roundPattern_nearest num.natAbs (magBits w) hd
        have hw := gap_le_natAbs_sub num den w
        rw [heq, natAbs_sub_packSign_roundMag hd hpos hneg h] at hw
        rw [hmag, Nat.min_eq_left (hthr.2 h).le]
        exact (htie (le_antisymm hw hle)).imp (fun hm => signedUnits_eq_of_units_eq hd hpos hneg h hm heq) id
      overflow := fun h => by
        rw [isInf32, decide_eq_true_eq, hmag]
        exact Nat.min_eq_right (Nat.le_of_not_lt fun hlt => Nat.not_lt.2 h (hthr.1 hlt))
      positive := fun h => (signBit_packSign hlt).trans (hpos h)
      negative := fun h => (signBit_packSign hlt).trans (hneg h) }

/-! ### The operations on finite values -/

section Finite

variable {a b : Word}

theorem nearestEven_addCore (op : ArithOp) (x y : Word) (ha : isFinite32 a = true) (hb : isFinite32 b = true) :
    NearestEven (signedUnits a + signedUnits b) 1 (addCore op x y a b) := by
  rw [addCore_of_finite op x y ha hb]
  apply nearestEven_packSign _ Nat.one_pos
  · intro h
    rw [if_neg (by omega), decide_eq_false (by omega)]
  · intro h
    rw [if_neg (by omega), decide_eq_true h]

/-- A zero sum is `-0` only when both summands are negative. -/
theorem addCore_of_sum_zero (op : ArithOp) (x y : Word) (ha : isFinite32 a = true) (hb : isFinite32 b = true)
    (h : signedUnits a + signedUnits b = 0) :
    addCore op x y a b = if signBit a && signBit b then 0x80000000#32 else 0#32 := by
  rw [addCore_of_finite op x y ha hb, if_pos h, h, Int.natAbs_zero, roundMag_zero]
  cases signBit a && signBit b <;> rfl

/-- The sign of a product or quotient of nonzero values, from the signs of its operands. -/
theorem signBit_bne_of_mul {x y : Int} (hx : ∃ u : Nat, x = if signBit a then -(u : Int) else u)
    (hy : ∃ v : Nat, y = if signBit b then -(v : Int) else v) :
    (0 < x * y → (signBit a != signBit b) = false) ∧ (x * y < 0 → (signBit a != signBit b) = true) := by
  obtain ⟨u, rfl⟩ := hx
  obtain ⟨v, rfl⟩ := hy
  have huv : 0 ≤ (u : Int) * v := by positivity
  cases signBit a <;> cases signBit b <;> simp <;> omega

theorem fmul32_of_finite (ha : isFinite32 a = true) (hb : isFinite32 b = true) :
    fmul32 a b = packSign (signBit a != signBit b) (roundMag (units a * units b) (2 ^ 149)) := by
  simp [fmul32, isNaN32_of_finite ha, isNaN32_of_finite hb, isInf32_of_finite ha, isInf32_of_finite hb]

theorem nearestEven_fmul32 (ha : isFinite32 a = true) (hb : isFinite32 b = true) :
    NearestEven (signedUnits a * signedUnits b) (2 ^ 149) (fmul32 a b) := by
  obtain ⟨hpos, hneg⟩ := signBit_bne_of_mul (a := a) (b := b) ⟨_, rfl⟩ ⟨_, rfl⟩
  rw [fmul32_of_finite ha hb, ← natAbs_signedUnits a, ← natAbs_signedUnits b, ← Int.natAbs_mul]
  exact nearestEven_packSign _ (by positivity) hpos hneg

theorem fdiv32_of_finite (ha : isFinite32 a = true) (hb : isFinite32 b = true) (h0 : magBits b ≠ 0) :
    fdiv32 a b = packSign (signBit a != signBit b) (roundMag (units a * 2 ^ 149) (units b)) := by
  simp [fdiv32, isNaN32_of_finite ha, isNaN32_of_finite hb, isInf32_of_finite ha, isInf32_of_finite hb, h0]

theorem nearestEven_fdiv32 (ha : isFinite32 a = true) (hb : isFinite32 b = true) (h0 : magBits b ≠ 0) :
    NearestEven (signedUnits a * 2 ^ 149 * (if signBit b then -1 else 1)) (units b) (fdiv32 a b) := by
  have hunits : units a * 2 ^ 149 = (signedUnits a * 2 ^ 149 * (if signBit b then -1 else 1)).natAbs := by
    have hone : ((if signBit b then -1 else 1 : Int)).natAbs = 1 := by split <;> rfl
    rw [Int.natAbs_mul, Int.natAbs_mul, natAbs_signedUnits, hone, Nat.mul_one]
    rfl
  have hd : 0 < units b := Nat.pos_of_ne_zero fun h => h0 ((units_eq_zero_iff b).1 h)
  obtain ⟨hpos, hneg⟩ := signBit_bne_of_mul (a := a) (b := b) (x := signedUnits a * 2 ^ 149)
    (y := if signBit b then -1 else 1) ⟨units a * 2 ^ 149, by rw [signedUnits]; split <;> simp⟩ ⟨1, by simp⟩
  rw [fdiv32_of_finite ha hb h0, hunits]
  exact nearestEven_packSign _ hd hpos hneg

/-- Division by a zero: a NaN for a zero dividend, else an infinity. -/
theorem fdiv32_by_zero (ha : isFinite32 a = true) (hb : magBits b = 0) :
    if magBits a = 0 then isNaN32 (fdiv32 a b) = true else isInf32 (fdiv32 a b) = true := by
  have hbf : isFinite32 b = true := by rw [isFinite32_iff, hb]; decide
  simp only [fdiv32, isNaN32_of_finite ha, isNaN32_of_finite hbf, isInf32_of_finite ha, isInf32_of_finite hbf, hb,
    Bool.or_self, Bool.false_eq_true, if_false, if_true]
  split
  · exact isNaN32_someNaN ..
  · exact isInf32_packSign _

theorem nearestEven_u2f32 (n : Nat) : NearestEven (n * 2 ^ 149) 1 (u2f32 n) :=
  have hnonneg : (0 : Int) ≤ n * 2 ^ 149 := by positivity
  nearestEven_packSign (n * 2 ^ 149) Nat.one_pos (fun _ => rfl) fun h => absurd h hnonneg.not_gt

end Finite

/-! ### Infinities, NaNs and signs -/

section Special

variable {a b : Word}

/-- A product is a NaN or has the exclusive-or of the signs (rule R37 (f)). -/
theorem signBit_fmul32 (h : isNaN32 (fmul32 a b) = false) : signBit (fmul32 a b) = (signBit a != signBit b) := by
  have hinf : signBit (packSign (signBit a != signBit b) infMag) = (signBit a != signBit b) :=
    signBit_packSign (by decide)
  revert h
  simp only [fmul32]
  split_ifs <;> simp [isNaN32_someNaN, hinf, signBit_packSign (roundMag_lt ..)]

/-- A quotient is a NaN or has the exclusive-or of the signs. -/
theorem signBit_fdiv32 (h : isNaN32 (fdiv32 a b) = false) : signBit (fdiv32 a b) = (signBit a != signBit b) := by
  have hinf : signBit (packSign (signBit a != signBit b) infMag) = (signBit a != signBit b) :=
    signBit_packSign (by decide)
  have hzero : signBit (packSign (signBit a != signBit b) 0) = (signBit a != signBit b) :=
    signBit_packSign (by decide)
  revert h
  simp only [fdiv32]
  split_ifs <;> simp [isNaN32_someNaN, hinf, hzero, signBit_packSign (roundMag_lt ..)]

/-- Every operation gives a NaN for a NaN operand. -/
theorem nan_of_nan_operand (h : isNaN32 a = true ∨ isNaN32 b = true) :
    isNaN32 (fadd32 a b) = true ∧ isNaN32 (fsub32 a b) = true ∧ isNaN32 (fmul32 a b) = true ∧
      isNaN32 (fdiv32 a b) = true := by
  have h' : (isNaN32 a || isNaN32 b) = true := by simpa using h
  simp [fadd32, fsub32, addCore, fmul32, fdiv32, h', isNaN32_someNaN]

/-- A product with an infinity: a NaN for a zero factor, else an infinity. -/
theorem fmul32_inf (ha : isInf32 a = true) (hb : isFinite32 b = true) :
    if magBits b = 0 then isNaN32 (fmul32 a b) = true ∧ isNaN32 (fmul32 b a) = true
    else isInf32 (fmul32 a b) = true ∧ isInf32 (fmul32 b a) = true := by
  simp only [fmul32, isNaN32_of_inf ha, isNaN32_of_finite hb, ha, isInf32_of_finite hb, Bool.or_self,
    Bool.false_eq_true, if_false, if_true]
  split
  · exact ⟨isNaN32_someNaN .., isNaN32_someNaN ..⟩
  · exact ⟨isInf32_packSign _, isInf32_packSign _⟩

theorem fdiv32_inf_left (ha : isInf32 a = true) (hb : isFinite32 b = true) : isInf32 (fdiv32 a b) = true := by
  simp [fdiv32, isNaN32_of_inf ha, isNaN32_of_finite hb, ha, isInf32_of_finite hb, isInf32_packSign]

theorem fdiv32_inf_right (ha : isFinite32 a = true) (hb : isInf32 b = true) : magBits (fdiv32 a b) = 0 := by
  simp [fdiv32, isNaN32_of_inf hb, isNaN32_of_finite ha, hb, isInf32_of_finite ha, magBits_packSign]

/-- The sum of two infinities. -/
theorem addCore_inf_inf (op : ArithOp) (x y : Word) (ha : isInf32 a = true) (hb : isInf32 b = true) :
    addCore op x y a b = if signBit a != signBit b then someNaN op x y else a := by
  simp [addCore, isNaN32_of_inf ha, isNaN32_of_inf hb, ha, hb]

theorem fmul32_inf_inf (ha : isInf32 a = true) (hb : isInf32 b = true) : isInf32 (fmul32 a b) = true := by
  have hb0 : magBits b ≠ 0 := by
    rw [isInf32, decide_eq_true_eq] at hb
    rw [hb]
    decide
  simp [fmul32, isNaN32_of_inf ha, isNaN32_of_inf hb, ha, hb0, isInf32_packSign]

theorem fdiv32_inf_inf (ha : isInf32 a = true) (hb : isInf32 b = true) : isNaN32 (fdiv32 a b) = true := by
  simp [fdiv32, isNaN32_of_inf ha, isNaN32_of_inf hb, ha, hb, isNaN32_someNaN]

/-- Sums and differences of two infinities: the infinity that both give, or a NaN. -/
theorem fadd32_fsub32_inf_inf (ha : isInf32 a = true) (hb : isInf32 b = true) :
    if signBit a = signBit b then fadd32 a b = a ∧ isNaN32 (fsub32 a b) = true
    else isNaN32 (fadd32 a b) = true ∧ fsub32 a b = a := by
  have hb' : isInf32 (fneg32 b) = true := by simpa using hb
  rw [fadd32, fsub32, addCore_inf_inf _ _ _ ha hb, addCore_inf_inf _ _ _ ha hb', signBit_fneg32]
  cases signBit a <;> cases signBit b <;> simp [isNaN32_someNaN]

end Special

/-- Settles O48, operation by operation: finite operands, signs and NaNs, one infinity, two infinities. -/
theorem correctRounding : Obligations.CorrectRounding := by
  refine ⟨fun a b ha hb => ?_, nearestEven_u2f32, fun a b => ⟨signBit_fmul32, signBit_fdiv32, nan_of_nan_operand⟩,
    fun a b ha hb => ?_, fun a b ha hb => ⟨fmul32_inf_inf ha hb, fdiv32_inf_inf ha hb, fadd32_fsub32_inf_inf ha hb⟩⟩
  · have hb' : isFinite32 (fneg32 b) = true := by simpa using hb
    have hsub : signedUnits a - signedUnits b = signedUnits a + signedUnits (fneg32 b) := by
      rw [signedUnits_fneg32, Int.sub_eq_add_neg]
    refine ⟨nearestEven_addCore _ _ _ ha hb, hsub ▸ nearestEven_addCore _ _ _ ha hb', nearestEven_fmul32 ha hb,
      nearestEven_fdiv32 ha hb, addCore_of_sum_zero _ _ _ ha hb, fun h => ?_, fdiv32_by_zero ha⟩
    rw [fsub32, addCore_of_sum_zero _ _ _ ha hb' (by omega), signBit_fneg32]
  · have ha' : isInf32 (fneg32 a) = true := by simpa using ha
    have hb' : isFinite32 (fneg32 b) = true := by simpa using hb
    exact ⟨addCore_inf_left _ _ _ ha hb, addCore_inf_right _ _ _ hb ha, addCore_inf_left _ _ _ ha hb',
      addCore_inf_right _ _ _ hb ha', fdiv32_inf_left ha hb, fdiv32_inf_right hb ha, fmul32_inf ha hb⟩

end Sys2Proof.Machine
end

section
/-! PROOFS. The configuration functions (spec/00_scope.md rule R13): whatever their data is, `ftanh` and `ftan`
have the named properties, and every function that has them is given by some data (logs 5, 6). -/

namespace Sys2Proof.Machine

/-! ### `tanhOf` has the named properties -/

section TanhOf

variable (T : TanhFn) {a b : Word}

/-- `TANH_ZERO`: both zeros are kept. -/
theorem tanhOf_of_zero (h : magBits a = 0) : tanhOf T a = a := by
  have hn : isNaN32 a = false := by rw [isNaN32_eq_false_iff, h]; decide
  have hi : isInf32 a = false := by rw [isInf32, h]; decide
  simp [tanhOf, hn, hi, h]

theorem isNaN32_tanhOf_of_nan (h : isNaN32 a = true) : isNaN32 (tanhOf T a) = true := by
  simp only [tanhOf, h, if_true]
  split
  · assumption
  · decide

/-- The magnitude of `tanhOf` at any value that is not a NaN. -/
def tanhMagOf (T : TanhFn) (a : Word) : Nat :=
  if isInf32 a then oneMag else if magBits a = 0 then 0 else tanhMag T a

theorem tanhMagOf_le (a : Word) : tanhMagOf T a ≤ oneMag := by
  rw [tanhMagOf]
  split_ifs
  · exact le_refl _
  · exact Nat.zero_le _
  · exact tanhMag_le T a

theorem tanhMagOf_mono (hs : signBit a = signBit b) (hb : isNaN32 b = false) (h : magBits a ≤ magBits b) :
    tanhMagOf T a ≤ tanhMagOf T b := by
  rcases finite_or_inf hb with hf | hi
  · have ha : isFinite32 a = true := by
      rw [isFinite32_iff] at hf ⊢
      omega
    rw [tanhMagOf, tanhMagOf, isInf32_of_finite ha, isInf32_of_finite hf, if_neg Bool.false_ne_true,
      if_neg Bool.false_ne_true]
    by_cases ha0 : magBits a = 0
    · rw [if_pos ha0]
      exact Nat.zero_le _
    · rw [if_neg ha0, if_neg (by omega)]
      exact tanhMag_mono T hs h
  · rw [show tanhMagOf T b = oneMag by rw [tanhMagOf, if_pos hi]]
    exact tanhMagOf_le T a

theorem orderKey_tanhOf_eq (ha : isNaN32 a = false) :
    orderKey (tanhOf T a) = if signBit a then -(tanhMagOf T a : Int) else tanhMagOf T a := by
  rw [orderKey_tanhOf T ha, tanhMagOf]
  cases signBit a <;> simp only [if_true, Bool.false_eq_true, if_false, one_mul, neg_one_mul]

theorem isNaN32_tanhOf (ha : isNaN32 a = false) : isNaN32 (tanhOf T a) = false := by
  have hkey := orderKey_tanhOf_eq T ha
  have hle := tanhMagOf_le T a
  have hone : oneMag < infMag := by decide
  refine isNaN32_of_finite ((isFinite32_iff_orderKey _).2 ?_)
  rw [hkey]
  split <;> omega

/-- `TANH_MONO`: equal signs compare by magnitude, different signs are on their own sides of 0. -/
theorem tanhOf_mono (h : fle32 a b = true) : fle32 (tanhOf T a) (tanhOf T b) = true := by
  obtain ⟨ha, hb⟩ := notNaN_of_fle32 h
  rw [fle32_iff ha hb, orderKey, orderKey] at h
  rw [fle32_iff (isNaN32_tanhOf T ha) (isNaN32_tanhOf T hb), orderKey_tanhOf_eq T ha, orderKey_tanhOf_eq T hb]
  cases hsa : signBit a <;> cases hsb : signBit b <;>
    simp only [hsa, hsb, if_true, Bool.false_eq_true, if_false] at h ⊢
  · have := tanhMagOf_mono T (hsa.trans hsb.symm) hb (by omega)
    omega
  · have hzero : ∀ {c : Word}, magBits c = 0 → tanhMagOf T c = 0 := fun {c} hc => by
      have hi : isInf32 c = false := by rw [isInf32, hc]; decide
      rw [tanhMagOf, hi, if_neg Bool.false_ne_true, if_pos hc]
    rw [hzero (c := a) (by omega), hzero (c := b) (by omega)]
    omega
  · omega
  · have := tanhMagOf_mono T (hsb.trans hsa.symm) ha (by omega)
    omega

/-- Whatever its data is, `ftanh` has the named properties. -/
theorem tanhLaws_tanhOf : TanhLaws (tanhOf T) where
  zero := ⟨tanhOf_of_zero T (by decide), tanhOf_of_zero T (by decide)⟩
  sign := fun a hf h0 => by
    have hle := tanhMag_le T a
    rw [tanhOf_finite hf h0, isFinite32_iff, magBits_packSign (tanhMag_lt T a), signBit_packSign (tanhMag_lt T a)]
    refine ⟨lt_of_le_of_lt hle (by decide), ?_⟩
    by_cases hm : tanhMag T a = 0
    · exact .inl hm
    · exact .inr (if_neg hm)
  mono := fun _ _ => tanhOf_mono T
  bound := fun a ha => by
    have hn := isNaN32_tanhOf T ha
    have hkey := orderKey_tanhOf_eq T ha
    have hle := tanhMagOf_le T a
    have hlo : orderKey 0xBF800000#32 = -(oneMag : Int) := by decide
    have hhi : orderKey 0x3F800000#32 = oneMag := by decide
    rw [fle32_iff (by decide) hn, fle32_iff hn (by decide), hkey, hlo, hhi]
    split <;> omega
  inf := ⟨rfl, rfl⟩
  nan := fun _ => isNaN32_tanhOf_of_nan T

end TanhOf

/-! ### Every function with the properties is a `tanhOf` -/

section ExistsTanh

variable {T : Word → Word} {a : Word}

theorem eq_zero_of_magBits (h : magBits a = 0) : a = 0x00000000#32 ∨ a = 0x80000000#32 := by
  cases hs : signBit a
  · exact .inl (packSign_inj hs h)
  · exact .inr (packSign_inj hs h)

theorem eq_inf_of_isInf32 (h : isInf32 a = true) : a = 0x7F800000#32 ∨ a = 0xFF800000#32 := by
  rw [isInf32, decide_eq_true_eq] at h
  cases hs : signBit a
  · exact .inl (packSign_inj hs h)
  · exact .inr (packSign_inj hs h)

theorem TanhLaws.of_zero (hT : TanhLaws T) (h : magBits a = 0) : T a = a := by
  rcases eq_zero_of_magBits h with rfl | rfl
  · exact hT.zero.1
  · exact hT.zero.2

/-- A value of `ftanh` at a finite operand is finite and on the operand's side of 0. -/
theorem TanhLaws.orderKey_finite (hT : TanhLaws T) (hf : isFinite32 a = true) :
    isFinite32 (T a) = true ∧ orderKey (T a) = if signBit a then -(magBits (T a) : Int) else magBits (T a) := by
  by_cases h0 : magBits a = 0
  · rw [hT.of_zero h0]
    exact ⟨hf, rfl⟩
  · obtain ⟨hfin, hm | hs⟩ := hT.sign a hf h0
    · simp [orderKey, hm, hfin]
    · exact ⟨hfin, by rw [orderKey, hs]⟩

/-- Of two finite operands with one sign the greater has a value of at least the magnitude. -/
theorem TanhLaws.magBits_mono (hT : TanhLaws T) {b : Word} (hs : signBit a = signBit b) (hb : isFinite32 b = true)
    (h : magBits a ≤ magBits b) : magBits (T a) ≤ magBits (T b) := by
  have ha : isFinite32 a = true := by
    rw [isFinite32_iff] at hb ⊢
    omega
  obtain ⟨hfa, hka⟩ := hT.orderKey_finite ha
  obtain ⟨hfb, hkb⟩ := hT.orderKey_finite hb
  have hmono := hT.mono a b
  have hmono' := hT.mono b a
  rw [fle32_iff (isNaN32_of_finite ha) (isNaN32_of_finite hb),
    fle32_iff (isNaN32_of_finite hfa) (isNaN32_of_finite hfb), hka, hkb, orderKey, orderKey, hs] at hmono
  rw [fle32_iff (isNaN32_of_finite hb) (isNaN32_of_finite ha),
    fle32_iff (isNaN32_of_finite hfb) (isNaN32_of_finite hfa), hka, hkb, orderKey, orderKey, hs] at hmono'
  cases hsb : signBit b <;> simp only [hsb, if_true, Bool.false_eq_true, if_false] at hmono hmono' <;> omega

theorem TanhLaws.magBits_le_one (hT : TanhLaws T) (ha : isNaN32 a = false) : magBits (T a) ≤ oneMag := by
  obtain ⟨hlo, hhi⟩ := hT.bound a ha
  obtain ⟨-, hn⟩ := notNaN_of_fle32 hlo
  rw [fle32_iff (by decide) hn, show orderKey 0xBF800000#32 = -(oneMag : Int) by decide, orderKey] at hlo
  rw [fle32_iff hn (by decide), show orderKey 0x3F800000#32 = oneMag by decide, orderKey] at hhi
  cases hs : signBit (T a) <;> simp only [hs, if_true, Bool.false_eq_true, if_false] at hlo hhi <;> omega

/-- The magnitudes of `T` at the finite operands of one sign, as a function of the operand's magnitude. -/
def magnitudesOf (T : Word → Word) (neg : Bool) (m : Nat) : Nat := magBits (T (packSign neg (min m (infMag - 1))))

theorem monotone_magnitudesOf (hT : TanhLaws T) (neg : Bool) : Monotone (magnitudesOf T neg) := by
  intro m n hmn
  have hlt : ∀ k, min k (infMag - 1) < infMag := fun k => lt_of_le_of_lt (Nat.min_le_right _ _) (by decide)
  have hlt' : ∀ k, min k (infMag - 1) < 2 ^ 31 := fun k => (hlt k).trans (by decide)
  refine hT.magBits_mono ?_ ?_ ?_
  · rw [signBit_packSign (hlt' m), signBit_packSign (hlt' n)]
  · rw [isFinite32_iff, magBits_packSign (hlt' n)]
    exact hlt n
  · rw [magBits_packSign (hlt' m), magBits_packSign (hlt' n)]
    exact min_le_min_right _ hmn

theorem magnitudesOf_magBits (hf : isFinite32 a = true) : magnitudesOf T (signBit a) (magBits a) = magBits (T a) := by
  rw [isFinite32_iff] at hf
  rw [magnitudesOf, Nat.min_eq_left (by omega), packSign_eta]

/-- The data whose rises are the magnitudes of `T` and whose pieces are `T` gives `T`. -/
theorem TanhLaws.tanhOf_eq (hT : TanhLaws T) {F : TanhFn}
    (hpos : ∀ m, m < infMag → risesAt F.pos m = magnitudesOf T false m)
    (hneg : ∀ m, m < infMag → risesAt F.neg m = magnitudesOf T true m)
    (hloose : ∀ w : Word, valueAt F.loose w.toNat = T w) (a : Word) : tanhOf F a = T a := by
  cases hn : isNaN32 a with
  | true =>
    have := hT.nan a hn
    simp [tanhOf, hn, hloose, this]
  | false =>
    rcases finite_or_inf hn with hf | hi
    · by_cases h0 : magBits a = 0
      · rw [tanhOf_of_zero F h0, hT.of_zero h0]
      · have hmag : tanhMag F a = magBits (T a) := by
          have hlt := (isFinite32_iff a).1 hf
          have hrise : risesAt (if signBit a then F.neg else F.pos) (magBits a) = magBits (T a) := by
            rw [← magnitudesOf_magBits hf]
            cases signBit a
            · exact hpos _ hlt
            · exact hneg _ hlt
          rw [tanhMag, hrise, Nat.min_eq_left (hT.magBits_le_one hn)]
        rw [tanhOf_finite hf h0, hmag, hloose]
        split
        · exact packSign_eta _
        · rename_i hm
          rw [← (hT.sign a hf h0).2.resolve_left hm, packSign_eta]
    · rcases eq_inf_of_isInf32 hi with rfl | rfl
      · exact hT.inf.1.symm
      · exact hT.inf.2.symm

theorem TanhLaws.exists_tanhFn (hT : TanhLaws T) : ∃ F : TanhFn, tanhOf F = T := by
  obtain ⟨pos, hpos⟩ := exists_rises _ (monotone_magnitudesOf hT false) infMag
  obtain ⟨neg, hneg⟩ := exists_rises _ (monotone_magnitudesOf hT true) infMag
  obtain ⟨loose, hloose⟩ := exists_pieces T
  exact ⟨⟨pos, neg, loose⟩, funext (hT.tanhOf_eq hpos hneg hloose)⟩

end ExistsTanh

/-! ### `ftan` -/

section Tan

variable {a : Word}

theorem realOf_eq_units (h : signBit a = false) : realOf a = (units a : ℝ) / 2 ^ 149 := by
  simp [realOf, signedUnits, h]

/-- A value is above 0 exactly when it is a nonzero one with the sign clear. -/
theorem realOf_pos_iff : 0 < realOf a ↔ signBit a = false ∧ magBits a ≠ 0 := by
  have hreal : 0 < realOf a ↔ 0 < signedUnits a := by
    rw [realOf, div_pos_iff_of_pos_right (by positivity), Int.cast_pos]
  have hu := units_eq_zero_iff a
  rw [hreal, signedUnits]
  cases signBit a <;> simp
  omega

/-- `halfPiMag` is the greatest magnitude pattern below pi/2. -/
theorem realOf_lt_half_pi_iff (h : signBit a = false) : realOf a < Real.pi / 2 ↔ magBits a ≤ halfPiMag := by
  have hgt := Real.pi_gt_d20
  have hlt := Real.pi_lt_d20
  have hlast : magUnits halfPiMag = 13176794 * 2 ^ 126 := by decide
  have hnext : magUnits (halfPiMag + 1) = 13176795 * 2 ^ 126 := by decide
  rw [realOf_eq_units h, units, div_lt_iff₀ (by positivity)]
  constructor
  · intro hpi
    by_contra hm
    have hle : magUnits (halfPiMag + 1) ≤ magUnits (magBits a) := magUnits_strictMono.monotone (by omega)
    rw [hnext] at hle
    have hle : ((13176795 * 2 ^ 126 : Nat) : ℝ) ≤ magUnits (magBits a) := by exact_mod_cast hle
    push_cast at hle
    linarith
  · intro hm
    have hle : magUnits (magBits a) ≤ magUnits halfPiMag := magUnits_strictMono.monotone hm
    rw [hlast] at hle
    have hle : (magUnits (magBits a) : ℝ) ≤ (13176794 * 2 ^ 126 : Nat) := by exact_mod_cast hle
    push_cast at hle
    linarith

/-- The domain of `TAN_POS` by patterns: what `tanOf` tests. -/
theorem tan_domain_iff : (isFinite32 a = true ∧ 0 < realOf a ∧ realOf a < Real.pi / 2) ↔
    (signBit a || magBits a == 0 || decide (halfPiMag < magBits a)) = false := by
  simp only [Bool.or_eq_false_iff, beq_eq_false_iff_ne, decide_eq_false_iff_not, Nat.not_lt, realOf_pos_iff, isFinite32_iff]
  constructor
  · rintro ⟨-, ⟨hs, h0⟩, hpi⟩
    exact ⟨⟨hs, h0⟩, (realOf_lt_half_pi_iff hs).1 hpi⟩
  · rintro ⟨⟨hs, h0⟩, hm⟩
    exact ⟨lt_of_le_of_lt hm (by decide), ⟨hs, h0⟩, (realOf_lt_half_pi_iff hs).2 hm⟩

/-- Whatever its data is, `ftan` is finite and positive on the domain of `TAN_POS`. -/
theorem tanPos_tanOf (T : Pieces) : TanPos (tanOf T) := by
  intro a hf h0 hpi
  simp only [tanOf, tan_domain_iff.1 ⟨hf, h0, hpi⟩, Bool.false_eq_true, if_false]
  split
  · rename_i h
    simpa using h
  · decide

/-- A function with `TAN_POS` is given by its own pieces. -/
theorem TanPos.exists_pieces {T : Word → Word} (hT : TanPos T) : ∃ F : Pieces, tanOf F = T := by
  obtain ⟨F, hF⟩ := Machine.exists_pieces T
  refine ⟨F, funext fun a => ?_⟩
  simp only [tanOf, hF]
  split
  · rfl
  · rename_i hdom
    obtain ⟨hf, h0, hpi⟩ := tan_domain_iff.2 (by simpa using hdom)
    obtain ⟨hfin, hpos⟩ := hT a hf h0 hpi
    simp [hfin, hpos]

end Tan

/-- Settles O49: the data forms of `ftanh` and `ftan` hold the named properties, and lose no function that has them. -/
theorem namedProperties : Obligations.NamedProperties := by
  refine ⟨fun p => ⟨tanhLaws_tanhOf _, tanPos_tanOf _⟩, fun T hT => ?_, fun T hT => ?_⟩
  · obtain ⟨F, hF⟩ := hT.exists_tanhFn
    exact ⟨F, fun p hp => by rw [← hF]; funext a; rw [ftanh32, hp, Option.getD_some]⟩
  · obtain ⟨F, hF⟩ := hT.exists_pieces
    exact ⟨F, fun p hp => by rw [← hF]; funext a; rw [ftan32, hp, Option.getD_some]⟩

end Sys2Proof.Machine
end

section
/-! PROOFS. The unit functions under exact arithmetic, `NUM_REAL` (spec/00_scope.md rule R15): the ramp of
spec/40_smoother.md, the clip of spec/42_clip.md, the coefficient design of spec/41_filter.md. -/

namespace Sys2Proof.Machine

/-! ### The operations of `numReal` -/

@[simp] theorem numReal_fadd (a b : ℝ) : numReal.fadd a b = a + b := rfl
@[simp] theorem numReal_fsub (a b : ℝ) : numReal.fsub a b = a - b := rfl
@[simp] theorem numReal_fmul (a b : ℝ) : numReal.fmul a b = a * b := rfl
@[simp] theorem numReal_fdiv (a b : ℝ) : numReal.fdiv a b = a / b := rfl
@[simp] theorem numReal_fneg (a : ℝ) : numReal.fneg a = -a := rfl
@[simp] theorem numReal_flt_iff (a b : ℝ) : numReal.flt a b = true ↔ a < b := decide_eq_true_iff
@[simp] theorem numReal_fle_iff (a b : ℝ) : numReal.fle a b = true ↔ a ≤ b := decide_eq_true_iff
@[simp] theorem numReal_feq_iff (a b : ℝ) : numReal.feq a b = true ↔ a = b := decide_eq_true_iff
@[simp] theorem numReal_isfinite (a : ℝ) : numReal.isfinite a = true := rfl
@[simp] theorem numReal_u2f (n : Nat) : numReal.u2f n = n := rfl
@[simp] theorem numReal_ftanh (a : ℝ) : numReal.ftanh a = Real.tanh a := rfl
@[simp] theorem numReal_ftan (a : ℝ) : numReal.ftan a = Real.tan a := rfl
@[simp] theorem numReal_c0_8 : numReal.c0_8 = 0.8 := rfl
@[simp] theorem numReal_c1_2 : numReal.c1_2 = 1.2 := rfl
@[simp] theorem numReal_c1 : numReal.c1 = 1 := rfl
@[simp] theorem numReal_chalf : numReal.chalf = 0.5 := rfl
@[simp] theorem numReal_cpi : numReal.cpi = Real.pi := rfl
@[simp] theorem numReal_zero : numReal.zero = 0 := rfl

/-! ### The ramp -/

/-- The smoother `j` samples into the ramp from `q.cur` to `q.tgt`, before it lands (rule R76 (a)). -/
noncomputable def rampAt (q : Smoother ℝ) (j : Nat) : Smoother ℝ :=
  { q with
    cur := q.cur + j * (q.tgt - q.cur) / q.nsteps.toNat
    cnt := BitVec.ofNat 32 (q.nsteps.toNat - j)
    step := (q.tgt - q.cur) / q.nsteps.toNat }

/-- The smoother after its ramp has landed. -/
noncomputable def landed (q : Smoother ℝ) : Smoother ℝ := { q with cur := q.tgt, cnt := 0#32, step := 0 }

section Ramp

variable {q : Smoother ℝ} {j : Nat}

theorem smoothRamp_eq_rampAt (hne : q.cur ≠ q.tgt) (hn : 1 ≤ q.nsteps.toNat) : smoothRamp numReal q = rampAt q 0 := by
  have h0 : q.nsteps ≠ 0#32 := by
    intro h
    simp [h] at hn
  rw [smoothRamp, if_neg (by simp [h0, hne])]
  simp [rampAt]

theorem rampAt_cnt_eq_iff (m : Nat) (hm : m < 2 ^ 32) :
    (rampAt q j).cnt = BitVec.ofNat 32 m ↔ q.nsteps.toNat - j = m := by
  have := q.nsteps.isLt
  rw [rampAt, ← BitVec.toNat_inj, BitVec.toNat_ofNat, BitVec.toNat_ofNat, Nat.mod_eq_of_lt (by omega),
    Nat.mod_eq_of_lt hm]

/-- Before its last sample the line has not passed the target. -/
theorem passesTarget_rampAt (hj : j + 1 < q.nsteps.toNat) :
    passesTarget numReal (rampAt q j) (rampAt q (j + 1)).cur = false := by
  have hn : (0 : ℝ) < q.nsteps.toNat := by exact_mod_cast (by omega : 0 < q.nsteps.toNat)
  have hj' : ((j + 1 : Nat) : ℝ) ≤ q.nsteps.toNat := by exact_mod_cast hj.le
  have hend : q.tgt = q.cur + q.nsteps.toNat * ((q.tgt - q.cur) / q.nsteps.toNat) := by
    field_simp
    ring
  rw [← Bool.not_eq_true, passesTarget]
  simp only [rampAt, Bool.or_eq_true, Bool.and_eq_true, numReal_flt_iff, numReal_zero, mul_div_assoc, not_or, not_and,
    not_lt]
  constructor
  · intro hs
    have := mul_le_mul_of_nonneg_right hj' hs.le
    linarith
  · intro hs
    have := mul_le_mul_of_nonpos_right hj' hs.le
    linarith

/-- A sample before the last moves one increment along the line. -/
theorem smoothNext_rampAt (hj : j + 1 < q.nsteps.toNat) : smoothNext numReal (rampAt q j) = rampAt q (j + 1) := by
  have h0 := (rampAt_cnt_eq_iff (q := q) (j := j) 0 (by norm_num)).not.2 (by omega)
  have h1 := (rampAt_cnt_eq_iff (q := q) (j := j) 1 (by norm_num)).not.2 (by omega)
  have hcur : (rampAt q j).cur + (rampAt q j).step = (rampAt q (j + 1)).cur := by
    simp only [rampAt]
    push_cast
    ring
  have hcnt : (rampAt q j).cnt - 1#32 = (rampAt q (j + 1)).cnt := by
    simp only [rampAt]
    have := q.nsteps.isLt
    bv_omega
  have h1' : (rampAt q j).cnt - 1#32 ≠ 0#32 := fun h => h1 (by bv_omega)
  rw [smoothNext, if_neg (by simpa using h0), if_neg (by simpa using h1')]
  simp only [numReal_fadd, hcur, hcnt, passesTarget_rampAt hj, Bool.false_eq_true, if_false]
  rfl

/-- The last sample lands. -/
theorem smoothNext_rampAt_last (hj : j + 1 = q.nsteps.toNat) : smoothNext numReal (rampAt q j) = landed q := by
  have h0 := (rampAt_cnt_eq_iff (q := q) (j := j) 0 (by norm_num)).not.2 (by omega)
  have h1 := (rampAt_cnt_eq_iff (q := q) (j := j) 1 (by norm_num)).2 (by omega)
  rw [smoothNext, if_neg (by simpa using h0), if_pos (by simp [h1])]
  rfl

/-- A landed smoother stays where it is. -/
theorem smoothNext_landed : smoothNext numReal (landed q) = landed q := by
  simp [smoothNext, landed]

/-- The line, sample by sample, until the ramp lands. -/
theorem iterate_smoothNext_rampAt (hj : j < q.nsteps.toNat) :
    (smoothNext numReal)^[j] (rampAt q 0) = rampAt q j := by
  induction j with
  | zero => rfl
  | succ j ih => rw [Function.iterate_succ_apply', ih (by omega), smoothNext_rampAt hj]

/-- From call `nsteps` on the ramp has landed. -/
theorem iterate_smoothNext_landed (hn : 1 ≤ q.nsteps.toNat) (i : Nat) :
    (smoothNext numReal)^[q.nsteps.toNat + i] (rampAt q 0) = landed q := by
  induction i with
  | zero =>
    obtain ⟨m, hm⟩ := Nat.exists_eq_add_of_le' hn
    rw [Nat.add_zero, hm, Function.iterate_succ_apply', iterate_smoothNext_rampAt (by omega),
      smoothNext_rampAt_last hm.symm]
  | succ i ih => rw [← Nat.add_assoc, Function.iterate_succ_apply', ih, smoothNext_landed]

end Ramp

/-- Settles O58: the ramp is `rampAt`, then `landed`. -/
theorem realRampIsLinear : Obligations.RealRampIsLinear := by
  intro q hne hn
  dsimp only
  rw [smoothRamp_eq_rampAt hne hn]
  refine ⟨fun j hj => ?_, fun j hj => ?_⟩
  · rw [iterate_smoothNext_rampAt hj]
    rfl
  · obtain ⟨i, rfl⟩ := Nat.exists_eq_add_of_le hj
    rw [iterate_smoothNext_landed hn]
    rfl

/-! ### The clip -/

theorem monotone_tanh : Monotone Real.tanh := by
  intro x y h
  have hmem : ∀ z, Real.tanh z ∈ Set.Ioo (-1 : ℝ) 1 := fun z => ⟨Real.neg_one_lt_tanh z, Real.tanh_lt_one z⟩
  rwa [← Real.artanh_le_artanh_iff (hmem x) (hmem y), Real.artanh_tanh, Real.artanh_tanh]

theorem continuous_tanh : Continuous Real.tanh := by
  rw [show Real.tanh = fun x => Real.sinh x / Real.cosh x from funext Real.tanh_eq_sinh_div_cosh]
  exact Real.continuous_sinh.div Real.continuous_cosh fun x => (Real.cosh_pos x).ne'

theorem tanh_nonneg {x : ℝ} (h : 0 ≤ x) : 0 ≤ Real.tanh x := Real.tanh_zero ▸ monotone_tanh h

theorem tanh_nonpos {x : ℝ} (h : x ≤ 0) : Real.tanh x ≤ 0 := Real.tanh_zero ▸ monotone_tanh h

theorem clip_of_nonneg {x : ℝ} (h : 0 ≤ x) : clip numReal x = Real.tanh x := by
  rw [clip, if_pos (by simpa using h), numReal_ftanh]

theorem clip_of_neg {x : ℝ} (h : x < 0) : clip numReal x = Real.tanh (0.8 * x) * 1.2 := by
  rw [clip, if_neg (by simpa using h)]
  rfl

/-- Both branches of the clip agree at 0. -/
theorem clip_of_nonpos {x : ℝ} (h : x ≤ 0) : clip numReal x = Real.tanh (0.8 * x) * 1.2 := by
  rcases h.lt_or_eq with hlt | rfl
  · exact clip_of_neg hlt
  · simp [clip_of_nonneg]

/-- Settles O59, branch by branch; the branches meet at 0. -/
theorem realClipRangeAndOrder : Obligations.RealClipRangeAndOrder := by
  refine ⟨fun x => ?_, ?_, ?_, ?_⟩
  · rcases le_or_gt 0 x with hx | hx
    · rw [clip_of_nonneg hx]
      exact ⟨lt_of_lt_of_le (by norm_num) (tanh_nonneg hx), Real.tanh_lt_one x⟩
    · rw [clip_of_neg hx]
      have hlo := Real.neg_one_lt_tanh (0.8 * x)
      have hhi := tanh_nonpos (show 0.8 * x ≤ 0 by linarith)
      constructor <;> linarith
  · rw [clip_of_nonneg le_rfl, Real.tanh_zero]
  · have hneg : MonotoneOn (clip numReal) (Set.Iic 0) := by
      intro x hx y hy h
      rw [clip_of_nonpos hx, clip_of_nonpos hy]
      have := monotone_tanh (show 0.8 * x ≤ 0.8 * y by linarith)
      linarith
    have hpos : MonotoneOn (clip numReal) (Set.Ici 0) := by
      intro x hx y hy h
      rw [clip_of_nonneg hx, clip_of_nonneg hy]
      exact monotone_tanh h
    exact hneg.Iic_union_Ici hpos
  · have hbranches : clip numReal = fun x => if 0 ≤ x then Real.tanh x else Real.tanh (0.8 * x) * 1.2 := by
      funext x
      split
      · exact clip_of_nonneg (by assumption)
      · exact clip_of_neg (not_le.1 (by assumption))
    rw [hbranches]
    refine continuous_tanh.if_le ((continuous_tanh.comp (continuous_const.mul continuous_id)).mul continuous_const)
      continuous_const continuous_id fun x hx => ?_
    simp [← hx]

/-! ### The coefficient design -/

/-- The tangent half-angle form of the half power law of rule R87: `t` is the tangent of half the angle. -/
theorem half_power_lowPass {t : ℝ} (ht : 0 < t) :
    2 * ((t / (t + 1) + t / (t + 1) * ((1 - t ^ 2) / (1 + t ^ 2))) ^ 2 +
        (t / (t + 1) * (2 * t / (1 + t ^ 2))) ^ 2) =
      (1 + (t - 1) / (t + 1) * ((1 - t ^ 2) / (1 + t ^ 2))) ^ 2 + ((t - 1) / (t + 1) * (2 * t / (1 + t ^ 2))) ^ 2 := by
  field_simp
  ring

theorem half_power_highPass {t : ℝ} (ht : 0 < t) :
    2 * ((1 / (t + 1) + -(1 / (t + 1)) * ((1 - t ^ 2) / (1 + t ^ 2))) ^ 2 +
        (-(1 / (t + 1)) * (2 * t / (1 + t ^ 2))) ^ 2) =
      (1 + (t - 1) / (t + 1) * ((1 - t ^ 2) / (1 + t ^ 2))) ^ 2 + ((t - 1) / (t + 1) * (2 * t / (1 + t ^ 2))) ^ 2 := by
  field_simp
  ring

/-- The feedback coefficient is strictly inside (-1, 1) for a positive tangent (rule R85). -/
theorem abs_feedback_lt_one {t : ℝ} (ht : 0 < t) : |(t - 1) / (t + 1)| < 1 := by
  rw [abs_lt, lt_div_iff₀ (by linarith), div_lt_one (by linarith)]
  constructor <;> linarith

section Design

variable {fs fc : ℝ}

/-- The design's angle is below a quarter turn for a cutoff below half the rate. -/
theorem coefAngle_mem (hfs : 0 < fs) (hfc : 0 < fc) (h : fc < fs / 2) :
    0 < coefAngle numReal fs fc ∧ coefAngle numReal fs fc < Real.pi / 2 := by
  have hpi := Real.pi_pos
  simp only [coefAngle, numReal_fdiv, numReal_fmul, numReal_cpi]
  refine ⟨by positivity, ?_⟩
  rw [div_lt_iff₀ hfs]
  nlinarith

/-- Over the reals the five checks pass for every cutoff below half the rate. -/
theorem coef_numReal (kind : FilterKind) (hfs : 0 < fs) (hfc : 0 < fc) (h : fc < fs / 2) :
    coef numReal kind fs fc = .ok (coefSet numReal kind (Real.tan (coefAngle numReal fs fc))) := by
  obtain ⟨hpos, hlt⟩ := coefAngle_mem hfs hfc h
  have ht := Real.tan_pos_of_pos_of_lt_pi_div_two hpos hlt
  obtain ⟨hlo, hhi⟩ := abs_lt.1 (abs_feedback_lt_one ht)
  rw [coef_eq_ok_iff]
  refine ⟨by simpa [rateOk] using hfs, by simpa using hfc, ?_, by simpa using ht, ?_, rfl⟩
  · simp only [numReal_flt_iff, numReal_fmul, numReal_chalf]
    linarith
  · simpa [insideUnit, coefFeedback] using ⟨hlo, hhi⟩

/-- The cosine and sine of twice the design's angle through its tangent. -/
theorem cos_sin_two_angle {θ : ℝ} (h0 : 0 < θ) (h1 : θ < Real.pi / 2) :
    Real.cos (2 * θ) = (1 - Real.tan θ ^ 2) / (1 + Real.tan θ ^ 2) ∧
      Real.sin (2 * θ) = 2 * Real.tan θ / (1 + Real.tan θ ^ 2) := by
  have hhalf : 2 * θ / 2 = θ := by ring
  have hsin : 0 < Real.sin (2 * θ) := Real.sin_pos_of_pos_of_lt_pi (by linarith) (by linarith)
  have hcos : Real.cos (2 * θ) ≠ -1 := by
    intro hc
    have := Real.sin_sq_add_cos_sq (2 * θ)
    rw [hc] at this
    nlinarith
  have hc := Real.cos_eq_two_mul_tan_half_div_one_sub_tan_half_sq (2 * θ) hcos
  have hs := Real.sin_eq_two_mul_tan_half_div_one_add_tan_half_sq (2 * θ)
  rw [hhalf] at hc hs
  exact ⟨hc, hs⟩

end Design

/-- Settles O60: the set of the tangent `t`, with `cos` and `sin` of the cutoff written in `t`. -/
theorem realDesignHalfPower : Obligations.RealDesignHalfPower := by
  intro kind fs fc hfs hfc h
  obtain ⟨hpos, hlt⟩ := coefAngle_mem hfs hfc h
  have ht := Real.tan_pos_of_pos_of_lt_pi_div_two hpos hlt
  obtain ⟨hcos, hsin⟩ := cos_sin_two_angle hpos hlt
  have hw : 2 * Real.pi * fc / fs = 2 * coefAngle numReal fs fc := by
    simp only [coefAngle, numReal_fdiv, numReal_fmul, numReal_cpi]
    ring
  refine ⟨_, coef_numReal kind hfs hfc h, ?_, ?_, ?_⟩
  · cases kind <;> exact abs_feedback_lt_one ht
  · cases kind <;> simp only [coefSet, coefFeedback, numReal_fdiv, numReal_fadd, numReal_fsub, numReal_fneg, numReal_c1]
    · constructor
      · ring
      · field_simp
        ring
    · constructor
      · field_simp
        ring
      · ring
  · dsimp only
    rw [hw, hcos, hsin]
    cases kind
    · exact half_power_highPass ht
    · exact half_power_lowPass ht

end Sys2Proof.Machine
end

section
/-! PROOFS. Words that wait at the command port (spec/30_encoding.md rule R55): some, not all, of a command's
words decode to nothing yet, so the word that comes is only collected. -/

namespace Sys2Proof.Machine

open Sys2Proof.Laws in
/-- Every command's encoding has the length its opcode gives it, and its command word reads back. -/
theorem commandWordLegal (i : Instr) : CommandWordLegal.Statement i := by
  cases i with
  | cfg => exact CommandWordLegal.cfg ..
  | blk => exact CommandWordLegal.blk ..
  | wrs => exact CommandWordLegal.wrs ..
  | rds => exact CommandWordLegal.rds ..
  | smcfg => exact CommandWordLegal.smcfg ..
  | smtgt => exact CommandWordLegal.smtgt ..
  | smcur => exact CommandWordLegal.smcur ..
  | smnxt => exact CommandWordLegal.smnxt ..
  | coef => exact CommandWordLegal.coef ..
  | fapp => exact CommandWordLegal.fapp ..
  | clip => exact CommandWordLegal.clip ..
  | cprep => exact CommandWordLegal.cprep ..
  | updf => exact CommandWordLegal.updf ..
  | psmp => exact CommandWordLegal.psmp ..

theorem head_op (i : Instr) : i.head.op = i.op := by cases i <;> rfl

/-- With fewer words than its opcode asks for, no command is assembled. -/
theorem assemble_eq_none {h : Head} {ws : List Word} (hlt : ws.length < h.op.operandCount) : assemble h ws = none := by
  fun_cases assemble h ws
  case case15 => rfl
  all_goals
    rename_i hop
    simp only [hop, Op.operandCount, List.length_cons] at hlt
    omega

/-- The command word and some, not all, of the operand words of a command. -/
theorem decodeWords_take_encode {i : Instr} {n : Nat} (hn : n + 1 < (encode i).length) :
    decodeWords ((encode i).take (n + 1)) = .incomplete := by
  obtain ⟨hlen, -, hhead⟩ := commandWordLegal i
  have hshort : (i.operands.take n).length < i.head.op.operandCount := by
    rw [head_op, List.length_take]
    omega
  rw [encode, List.take_succ_cons, decodeWords, hhead]
  simp only [assemble_eq_none hshort]

/-- A word at the port that completes no command joins `CMDQ`. -/
theorem step_of_incomplete {s : State} {w : Word} {rest : List HostEvent} (hp : paramsOk s.par = true)
    (hf : isFaulted s = false) (hport : s.port = .word w :: rest) (hd : decodeWords (s.cmdq ++ [w]) = .incomplete) :
    step s = .next { s with port := rest, cmdq := s.cmdq ++ [w] } := by
  have hf' : isFaulted { s with port := rest } = false := hf
  simp only [step, hp, portStep, hport, hostStep, acceptWord, hf', hd, if_true, Bool.false_eq_true, if_false]

/-- Settles O5: with the word that comes the command is still not whole, so `CMDQ` takes the word. -/
theorem partialCommandsWait : Obligations.PartialCommandsWait := by
  intro s i n w rest hp hf hn hq hw hport
  have htake : s.cmdq ++ [w] = (encode i).take (n + 1) := by rw [hq, List.take_add_one, hw, Option.toList_some]
  rw [step_of_incomplete hp hf hport (htake ▸ decodeWords_take_encode hn), htake]

end Sys2Proof.Machine
end

section
/-! PROOFS. Where the invariant of spec/10_state.md rule R35 starts, and two consequences of it: which commands change the
control registers (rule R135), and that `UPDF` is idempotent (spec/43_circuit.md rule R99). -/

namespace Sys2Proof.Machine

variable {N : Num Word} {s t : State}

/-! ### Power-up -/

/-- The smoothers start at finite values: rule R7 asks it of `PDEF`. -/
theorem pdef_finite {p : Params} (hp : paramsOk p = true) :
    isFinite32 p.pdefDrive = true ∧ isFinite32 p.pdefTone = true ∧ isFinite32 p.pdefLevel = true := by
  simp only [paramsOk, paramsOkIn, Bool.and_eq_true, num32_isfinite] at hp
  obtain ⟨⟨⟨-, hd, -⟩, ht, -⟩, hl, -⟩ := hp
  exact ⟨hd, ht, hl⟩

theorem inv_powerUp {p : Params} (hp : paramsOk p = true) : Inv (State.powerUp p) := by
  obtain ⟨hd, ht, hl⟩ := pdef_finite hp
  exact
    { params := hp
      circuits := List.length_replicate ..
      unconfigured := ⟨iff_of_true rfl rfl, iff_of_true rfl rfl⟩
      nch_le := Nat.zero_le _
      blksz_le := Nat.zero_le _
      ready := fun c hc => by simp [getCircuit, State.powerUp, circuitAtReset]
      prepared := fun c hc => absurd hc (Nat.not_lt_zero c)
      smoothers := fun
        | .drive => smootherInv_atReset hd
        | .tone => smootherInv_atReset ht
        | .level => smootherInv_atReset hl
      sequencer := rfl
      assembling := rfl
      status := .inl rfl
      canonical := rfl
      inRange := nofun }

theorem paramsOk_working : paramsOk Params.working = true := by decide

/-- Settles O39: `State.reset` is the power-up of the working parameters, which are legal. -/
theorem powerUpKeepsInv : Obligations.PowerUpKeepsInv :=
  ⟨inv_powerUp paramsOk_working, fun _ hp => inv_powerUp hp⟩

/-! ### The control registers -/

/-- `CPREP` re-prepares a circuit of the collection, which is Ready already. -/
theorem cprepIn_rdy (h : Inv s) {c : Byte} {fs blksz : Word} (hr : cprepIn N c fs blksz s = .next t) (c' : Nat) :
    (getCircuit t c').rdy = (getCircuit s c').rdy := by
  cases hf : isFaulted s with
  | true =>
    cases (unlessFaulted_of_faulted hf).symm.trans hr
    rfl
  | false =>
    obtain ⟨e, rfl⟩ | ⟨hc, -, -, k, -, rfl⟩ := cprepIn_cases hf hr
    · rfl
    · have hready := (h.ready _ (Nat.lt_of_lt_of_le hc h.nch_le)).2 hc
      exact getCircuit_setCircuit_keeps Circuit.rdy s _ _ hready.symm c'

/-- Settles O41: by rule R33's table every command but `CFG` and `CPREP` keeps `rdy`; `CPREP` writes the 1 that the
invariant says is there. -/
theorem onlyCfgChangesControl : Obligations.OnlyCfgChangesControl := by
  intro i s t h hr hi
  have hrow := exec_row hr
  refine ⟨hrow.control hi, fun c => ?_⟩
  cases i with
  | cfg => exact absurd rfl hi
  | cprep c' fs blksz => exact cprepIn_rdy h hr c
  | _ => exact (hrow.rate (by simp [Instr.op]) c).1

/-! ### `UPDF` twice -/

/-- `UPDF`, its checks passed and the coefficients of its circuit's rate in existence. -/
theorem updfIn_eq {c : Byte} {drive tone : Word} {k : CoefBank Word} (hf : isFaulted s = false)
    (hc : c.toNat < s.par.nchMax) (hr : (getCircuit s c.toNat).rdy = true) (hd : N.isfinite drive = true)
    (ht : N.isfinite tone = true) (hk : circuitCoefs N (getCircuit s c.toNat).fs tone = .ok k) :
    updfIn N c drive tone s = .next (setCircuit s c.toNat (withCoefs (getCircuit s c.toNat) k)) := by
  simp [updfIn, hf, firstFailure, asF, hc, hr, hd, ht, circuitUpdate, hk]

/-- The coefficients of the two high-passes depend on the rate only (spec/43_circuit.md rule R96). -/
theorem circuitCoefs_highPass {fs tone tone' : Word} {k k' : CoefBank Word} (h : circuitCoefs N fs tone = .ok k)
    (h' : circuitCoefs N fs tone' = .ok k') : k'.ihp = k.ihp ∧ k'.ohp = k.ohp := by
  obtain ⟨hi, -, ho⟩ := (circuitCoefs_eq_ok_iff ..).1 h
  obtain ⟨hi', -, ho'⟩ := (circuitCoefs_eq_ok_iff ..).1 h'
  rw [hi, Except.ok.injEq] at hi'
  rw [ho, Except.ok.injEq] at ho'
  exact ⟨hi'.symm, ho'.symm⟩

/-- Writing a circuit's coefficients twice is writing them once. -/
theorem withCoefs_withCoefs (q : Circuit Word) (k : CoefBank Word) : withCoefs (withCoefs q k) k = withCoefs q k := rfl

theorem setCircuit_setCircuit (s : State) (c : Nat) (q q' : Circuit Word) :
    setCircuit (setCircuit s c q) c q' = setCircuit s c q' := by
  simp [setCircuit]

/-- Settles O46: the second `UPDF` finds the same rate, so it writes the same coefficients; those of the high-passes are
what the invariant says is there. -/
theorem updateIsIdempotent : Obligations.UpdateIsIdempotent := by
  intro c drive tone s t h hr hend
  have hrun : isFaulted s = false := by
    by_contra hf
    cases (exec_of_faulted _ (by simpa using hf)).symm.trans hr
    exact hf hend
  obtain ⟨e, rfl⟩ | ⟨hc, hready, hd, ht, k, hk, rfl⟩ := updfIn_cases hrun hr
  · simp [endsNormally] at hend
  · have hget := getCircuit_setCircuit_same (withCoefs (getCircuit s c.toNat) k) (h.circuits ▸ hc)
    obtain ⟨-, tone', hk'⟩ := h.prepared _ ((h.ready _ hc).1 hready)
    obtain ⟨hihp, hohp⟩ := circuitCoefs_highPass hk' hk
    refine ⟨?_, ?_, ?_⟩
    · have hagain := updfIn_eq (k := k) hend hc (by rw [hget]; exact hready) hd ht (by rw [hget]; exact hk)
      rw [hget, withCoefs_withCoefs, setCircuit_setCircuit] at hagain
      exact hagain
    · rw [hget, withCoefs_ihp, hihp]
      rfl
    · rw [hget, withCoefs_ohp, hohp]
      rfl

end Sys2Proof.Machine
end

section
/-! PROOFS. What a block leaves alone (spec/10_state.md rule R33, spec/20_memory.md rule R46, spec/44_block.md rule R107),
whether it completes or faults: the circuits outside the collection and the cells outside the block. -/

namespace Sys2Proof.Machine

variable {N : Num Word} {s t : State} {len drive tone level : Word}

/-- Between `s` and `u` no circuit from `nch` on has changed, and no cell but those of `len` frames of `nch` channels. -/
structure OutsideBlock (nch len : Nat) (s u : State) : Prop where
  circuits : ∀ c, nch ≤ c → getCircuit u c = getCircuit s c
  cells : ∀ c i, i < 2 ^ 32 → ¬(c < nch ∧ i < len) → cell u c i = cell s c i

theorem OutsideBlock.refl (nch len : Nat) (s : State) : OutsideBlock nch len s s := ⟨fun _ _ => rfl, fun _ _ _ _ => rfl⟩

/-- A circuit of the collection may be written. -/
theorem OutsideBlock.setCircuit {nch len c : Nat} {u : State} (h : OutsideBlock nch len s u) (hc : c < nch)
    (q : Circuit Word) : OutsideBlock nch len s (setCircuit u c q) where
  circuits c' hc' := (getCircuit_setCircuit_other u q (by omega)).trans (h.circuits c' hc')
  cells := h.cells

/-- A cell of the block may be written. -/
theorem OutsideBlock.memWrite {nch len c n : Nat} {u : State} (h : OutsideBlock nch len s u) (hc : c < nch) (hn : n < len)
    (hlen : len ≤ 2 ^ 32) (v : Word) : OutsideBlock nch len s { u with buf := memWrite u.buf c n v } where
  circuits := h.circuits
  cells c' i hi hout := by
    have hne : ¬(c' = c ∧ i = n) := by omega
    exact (memRead_memWrite_other u.buf v (by omega) hi hne).trans (h.cells c' i hi hout)

/-- Steps 3 and 4 of a block write circuits of the collection and cells of the block only. -/
theorem keptByLoops_outsideBlock (nch : Nat) (s : State) :
    KeptByLoops N nch len.toNat (OutsideBlock nch len.toNat s) where
  seq _ _ _ _ h := ⟨h.circuits, h.cells⟩
  refreshed _ _ q hc h _ := h.setCircuit hc q
  frame _ _ h := ⟨h.circuits, h.cells⟩
  sample _ _ _ q v hc hn h _ _ _ := (h.setCircuit hc q).memWrite hc hn len.isLt.le v

theorem runBlock_outsideBlock
    (hr : runBlock N len drive tone level s = .ok t ∨ runBlock N len drive tone level s = .error t) :
    OutsideBlock s.nch.toNat len.toNat s t := by
  have hstart : OutsideBlock s.nch.toNat len.toNat s (blkLatch (blkTargets N drive tone level s)) :=
    ⟨fun _ _ => rfl, fun _ _ _ _ => rfl⟩
  obtain ⟨v, hv, rfl⟩ | ⟨e, ch, idx, v, hv, rfl⟩ := runBlock_ends (keptByLoops_outsideBlock _ s) hstart hr
  · exact ⟨hv.circuits, hv.cells⟩
  · exact ⟨hv.circuits, hv.cells⟩

/-- What a `BLK` leaves alone beyond rule R33's table. -/
theorem blkIn_frame (hr : blkIn N len drive tone level s = .next t) :
    t.cir.length = s.cir.length ∧ OutsideBlock s.nch.toNat len.toNat s t := by
  cases hf : isFaulted s with
  | true =>
    cases (unlessFaulted_of_faulted hf).symm.trans hr
    exact ⟨rfl, .refl ..⟩
  | false =>
    obtain ⟨e, rfl⟩ | ⟨-, -, -, -, -, -, -, -, -, hrun⟩ := blkIn_cases hf hr
    · exact ⟨rfl, fun _ _ => rfl, fun _ _ _ _ => rfl⟩
    · obtain ⟨-, -, -, -, -, -, -, hlen⟩ := (runBlock_fields len drive tone level s).of_answer hrun
      exact ⟨hlen, runBlock_outsideBlock hrun⟩

/-- Settles O34: the row of `BLK` in rule R33's table, and the frame of its loops. -/
theorem blockFrame : Obligations.BlockFrame := by
  intro len drive tone level s t h
  have hrow : Row .blk s t := exec_row h
  obtain ⟨hlen, hout⟩ := blkIn_frame h
  exact ⟨hrow.res (by decide), hrow.control (by decide), hrow.model, hlen, hrow.rate (by decide), hout.circuits,
    hout.cells⟩

end Sys2Proof.Machine
end

section
/-! PROOFS. Commands with a channel field (spec/10_state.md rule R33, last paragraph): what such a command does is one of six
writes that name its own channel only, and which one it is depends on no other channel. -/

namespace Sys2Proof.Machine

variable {N : Num Word} {i : Instr} {c : Nat} {s s' t t' : State} {F : State → State}

/-! ### States that agree on a channel -/

theorem AgreeOnChannel.par (h : AgreeOnChannel c s s') : s'.par = s.par := by rw [h.rest]

theorem AgreeOnChannel.nch (h : AgreeOnChannel c s s') : s'.nch = s.nch := by rw [h.rest]

theorem AgreeOnChannel.isFaulted (h : AgreeOnChannel c s s') : isFaulted s' = isFaulted s := by rw [h.rest]; rfl

/-- The writes a command with channel field `c` can make. -/
inductive ChannelWrite (c : Nat) : (State → State) → Prop where
  | nothing : ChannelWrite c id
  | raised (e : Cause) (op ch : Byte) : ChannelWrite c (raise e op ch 0#32)
  | result (v : Word) : ChannelWrite c fun s => setRes0 s v
  | circuit (q : Circuit Word) : ChannelWrite c fun s => setCircuit s c q
  | circuitResult (q : Circuit Word) (v : Word) : ChannelWrite c fun s => setRes0 (setCircuit s c q) v
  | cell (n : Nat) (v : Word) (hn : n < 2 ^ 32) : ChannelWrite c fun s => { s with buf := memWrite s.buf c n v }

/-- The same write to channel `c` on both sides keeps the agreement. -/
theorem AgreeOnChannel.write (h : AgreeOnChannel c s s') (hF : ChannelWrite c F) : AgreeOnChannel c (F s) (F s') := by
  obtain ⟨hrest, hlen, hcir, hcell⟩ := h
  have hset : ∀ q, getCircuit (setCircuit s' c q) c = getCircuit (setCircuit s c q) c := by
    intro q
    by_cases hc : c < s.cir.length
    · rw [getCircuit_setCircuit_same q hc, getCircuit_setCircuit_same q (hlen ▸ hc)]
    · rw [setCircuit, setCircuit, List.set_eq_of_length_le (by omega), List.set_eq_of_length_le (by omega)]
      exact hcir
  have hlen' : ∀ q, (setCircuit s' c q).cir.length = (setCircuit s c q).cir.length := by simp [hlen]
  cases hF with
  | nothing => exact ⟨hrest, hlen, hcir, hcell⟩
  | raised e op ch => exact ⟨by rw [hrest]; rfl, hlen, hcir, hcell⟩
  | result v => exact ⟨by rw [hrest]; rfl, hlen, hcir, hcell⟩
  | circuit q => exact ⟨by rw [hrest]; rfl, hlen' q, hset q, hcell⟩
  | circuitResult q v => exact ⟨by rw [hrest]; rfl, hlen' q, hset q, hcell⟩
  | cell n v hn =>
    refine ⟨by rw [hrest], hlen, hcir, fun m hm => ?_⟩
    simp only [cell]
    by_cases hmn : m = n
    · rw [hmn, memRead_memWrite_same, memRead_memWrite_same]
    · rw [memRead_memWrite_other _ _ hn hm (by omega), memRead_memWrite_other _ _ hn hm (by omega)]
      exact hcell m hm

/-- A write to channel `c` is seen by no other channel. -/
theorem ChannelWrite.other (hF : ChannelWrite c F) (s : State) {c' : Nat} (hc : c' ≠ c) :
    getCircuit (F s) c' = getCircuit s c' ∧ ∀ n, n < 2 ^ 32 → Machine.cell (F s) c' n = Machine.cell s c' n := by
  cases hF with
  | circuit q => exact ⟨getCircuit_setCircuit_other s q hc, fun _ _ => rfl⟩
  | circuitResult q v => exact ⟨getCircuit_setCircuit_other s q hc, fun _ _ => rfl⟩
  | cell m v hm => exact ⟨rfl, fun n hn => memRead_memWrite_other _ _ hm hn (by omega)⟩
  | _ => exact ⟨rfl, fun _ _ => rfl⟩

/-! ### The six commands -/

/-- Two answers are the same write to channel `c`, to `s` and to `s'`. -/
def SameWrite (c : Nat) (s s' : State) (r r' : Result) : Prop :=
  ∃ F, ChannelWrite c F ∧ r = .next (F s) ∧ r' = .next (F s')

theorem SameWrite.fail (e : Cause) (o : Op) (ch : Byte) : SameWrite c s s' (fail e o ch s) (fail e o ch s') :=
  ⟨_, .raised e o.code ch, rfl, rfl⟩

/-- A faulted core writes nothing. -/
theorem SameWrite.unlessFaulted {r r' : Result} (h : AgreeOnChannel c s s') (hr : SameWrite c s s' r r') :
    SameWrite c s s' (unlessFaulted s r) (unlessFaulted s' r') := by
  rw [Machine.unlessFaulted, Machine.unlessFaulted, h.isFaulted]
  split
  · exact ⟨id, .nothing, rfl, rfl⟩
  · exact hr

/-- What a command with channel field `c` does depends on nothing that the two states do not share. -/
theorem execIn_sameWrite (hi : channelOf i = some c) (h : AgreeOnChannel c s s') :
    SameWrite c s s' (execIn N i s) (execIn N i s') := by
  have hpar := h.par
  have hnch := h.nch
  have hcir := h.circuit
  cases i with
  | wrs ch idx v =>
    cases hi
    refine .unlessFaulted h ?_
    rw [hpar]
    split
    · exact .fail ..
    · exact ⟨_, .cell _ v idx.isLt, rfl, by rw [hpar]⟩
  | rds ch idx =>
    cases hi
    refine .unlessFaulted h ?_
    have hcell := h.cells _ idx.isLt
    rw [cell, cell] at hcell
    rw [hpar, hcell]
    split
    · exact .fail ..
    · exact ⟨_, .result _, rfl, rfl⟩
  | fapp ch f x =>
    cases hi
    refine .unlessFaulted h ?_
    rw [hpar, hcir]
    dsimp only
    split
    · exact .fail ..
    · exact ⟨_, .circuitResult _ _, rfl, rfl⟩
  | cprep ch fs blksz =>
    cases hi
    refine .unlessFaulted h ?_
    rw [hpar, hnch]
    split
    · exact .fail ..
    · split
      · exact .fail ..
      · exact ⟨_, .circuit _, rfl, rfl⟩
  | updf ch drive tone =>
    cases hi
    refine .unlessFaulted h ?_
    rw [hpar, hcir]
    split
    · exact .fail ..
    · split
      · exact .fail ..
      · exact ⟨_, .circuit _, rfl, rfl⟩
  | psmp ch x drive tone level =>
    cases hi
    refine .unlessFaulted h ?_
    rw [hpar, hcir]
    dsimp only
    split
    · exact .fail ..
    · exact ⟨_, .circuitResult _ _, rfl, rfl⟩
  | _ => cases hi

/-- Settles O42: both runs make one and the same write to channel `c`. -/
theorem channelCommandsSeeOneChannel : Obligations.ChannelCommandsSeeOneChannel := by
  intro i c s s' t t' hi h hs hs'
  rw [exec_eq_execIn] at hs hs'
  rw [h.par] at hs'
  obtain ⟨F, hF, hr, hr'⟩ := execIn_sameWrite (N := num32 s.par) hi h
  cases hr.symm.trans hs
  cases hr'.symm.trans hs'
  exact ⟨h.write hF, fun c' hc => (hF.other s hc).1, fun c' n hc => (hF.other s hc).2 n⟩

end Sys2Proof.Machine
end

section
/-! PROOFS. Which faults a command raises (spec/60_exceptions.md rules R121, R126): the causes of its own checks, those of
the coefficient design at the rates it designs for, and in a block's samples `PV_NONFINITE`. -/

namespace Sys2Proof.Machine

variable {N : Num Word} {s t : State}

/-! ### Causes of checks -/

/-- A cause that is reported is one of those the checks name. -/
theorem cause_mem {l : List (Bool × Cause)} {causes : List Cause} {e : Cause} (h : firstFailure l = some e)
    (hl : l.map Prod.snd ⊆ causes) : e ∈ causes := by
  obtain ⟨before, after, rfl, -⟩ := firstFailure_eq_some h
  exact hl (by simp)

theorem firstFailure_cons_eq_some {ok : Bool} {l : List (Bool × Cause)} {e e' : Cause}
    (h : firstFailure ((ok, e') :: l) = some e) : (ok = false ∧ e = e') ∨ firstFailure l = some e := by
  cases ok with
  | false => exact .inl ⟨rfl, (Option.some.inj h).symm⟩
  | true => exact .inr h

/-- The causes of the coefficient design at a sample rate (rule R81 (2) to (5)). -/
def designCauses : List Cause := [.icCutoff, .icNyquist, .icDegenerate]

/-- `coef` raises `IC_FS` only at a rate that is none (rule R81). -/
theorem coef_cause {kind : FilterKind} {fs fc : Word} {e : Cause} (h : coef N kind fs fc = .error e) :
    (rateOk N fs = false ∧ e = .icFs) ∨ e ∈ designCauses := by
  rw [coef] at h
  split at h
  · rename_i hc
    cases h
    exact (firstFailure_cons_eq_some hc).imp_right fun hc => cause_mem hc (by simp [designCauses])
  · cases h

/-- A circuit's coefficients fail to exist where one of its three sets does (rule R96). -/
theorem circuitCoefs_eq_error {fs tone : Word} {e : Cause} (h : circuitCoefs N fs tone = .error e) :
    ∃ kind fc, coef N kind fs fc = .error e := by
  rw [circuitCoefs] at h
  split at h
  · rename_i h1
    cases h
    exact ⟨_, _, h1⟩
  · split at h
    · rename_i h2
      cases h
      exact ⟨_, _, h2⟩
    · split at h
      · rename_i h3
        cases h
        exact ⟨_, _, h3⟩
      · cases h

theorem circuitCoefs_cause {fs tone : Word} {e : Cause} (h : circuitCoefs N fs tone = .error e) :
    (rateOk N fs = false ∧ e = .icFs) ∨ e ∈ designCauses := by
  obtain ⟨kind, fc, hc⟩ := circuitCoefs_eq_error h
  exact coef_cause hc

theorem circuitCoefs_cause_of_rateOk {fs tone : Word} {e : Cause} (hfs : rateOk N fs = true)
    (h : circuitCoefs N fs tone = .error e) : e ∈ designCauses :=
  (circuitCoefs_cause h).resolve_left fun hno => by simp [hfs] at hno

theorem circuitUpdate_cause_of_rateOk {q : Circuit Word} {drive tone : Word} {e : Cause} (hfs : rateOk N q.fs = true)
    (h : circuitUpdate N q drive tone = .error e) : e ∈ designCauses := by
  rw [circuitUpdate] at h
  split at h
  · rename_i hc
    cases h
    exact circuitCoefs_cause_of_rateOk hfs hc
  · cases h

theorem circuitPrepare_cause {pdefTone fs blksz : Word} {e : Cause}
    (h : circuitPrepare N pdefTone fs blksz = .error e) : e ∈ [Cause.icFs, .icBlocksize] ∨ e ∈ designCauses := by
  rw [circuitPrepare] at h
  split at h
  · rename_i hc
    cases h
    exact .inl (cause_mem hc (by simp))
  · split at h
    · rename_i hc
      cases h
      obtain ⟨-, rfl⟩ | he := circuitCoefs_cause hc
      · exact .inl (by simp)
      · exact .inr he
    · cases h

/-! ### Causes of a block -/

/-- Where step 3 of a block does not succeed there is a first circuit at which it fails. -/
theorem exists_first_failing_circuit {m : Nat} (h : ¬RefreshSucceeds s m) :
    ∃ c e, c < m ∧ RefreshSucceeds s c ∧
      firstFailure (circuitChecks s.par (getCircuit s c).fs s.sm.tone.cur) = some e := by
  induction m with
  | zero => exact absurd (fun c hc => absurd hc (Nat.not_lt_zero c)) h
  | succ m ih =>
    by_cases hm : RefreshSucceeds s m
    · have hbad : ¬CoefsExist s.par (getCircuit s m).fs s.sm.tone.cur := fun hgood =>
        h fun c hc => (Nat.lt_succ_iff_lt_or_eq.1 hc).elim (hm c) (fun hcm => hcm ▸ hgood)
      obtain ⟨e, he⟩ := Option.ne_none_iff_exists'.1 hbad
      exact ⟨m, e, Nat.lt_succ_self m, hm, he⟩
    · obtain ⟨c, e, hc, hrest⟩ := ih hm
      exact ⟨c, e, Nat.lt_succ_of_lt hc, hrest⟩

/-- Where a block holds a cell that is not finite there is a first one, frame by frame. -/
theorem exists_first_nonfinite_cell {len : Word} (h : ¬SamplesFinite s len) :
    ∃ c0 n0, c0 < s.nch.toNat ∧ n0 < len.toNat ∧ isFinite32 (cell s c0 n0) = false ∧
      ∀ c n, c < s.nch.toNat → n < n0 ∨ (n = n0 ∧ c < c0) → isFinite32 (cell s c n) = true := by
  have hex : ∃ n c, c < s.nch.toNat ∧ n < len.toNat ∧ isFinite32 (cell s c n) = false := by
    simp only [SamplesFinite, not_forall, Bool.not_eq_true] at h
    obtain ⟨c, n, hc, hn, hbad⟩ := h
    exact ⟨n, c, hc, hn, hbad⟩
  classical
  have hfirst := Nat.find_spec hex
  obtain ⟨hc, hn, hbad⟩ := Nat.find_spec hfirst
  refine ⟨_, _, hc, hn, hbad, fun c n hc' hbefore => ?_⟩
  by_contra hnf
  rw [Bool.not_eq_true] at hnf
  obtain hlt | ⟨rfl, hlt⟩ := hbefore
  · exact Nat.find_min hex hlt ⟨c, hc', hlt.trans hn, hnf⟩
  · exact Nat.find_min hfirst hlt ⟨hc', hn, hnf⟩

/-- What a block can end in (rule R126): its end, with `FSR` as it was, or the fault of a sample or of a circuit. -/
theorem runBlock_outcome {len d tn l : Word} (hlen : s.nch.toNat ≤ s.cir.length) :
    (∃ u, runBlock (num32 s.par) len d tn l s = .ok u ∧ u.fsr = s.fsr) ∨
      ∃ e ch idx u, runBlock (num32 s.par) len d tn l s = .error (raise e Op.blk.code ch idx u) ∧
        (e = .pvNonfinite ∨ ∃ c, c < s.nch.toNat ∧
          circuitCoefs (num32 s.par) (getCircuit s c).fs s.sm.tone.cur = .error e) := by
  by_cases href : RefreshSucceeds s s.nch.toNat
  · by_cases hfin : SamplesFinite s len
    · obtain ⟨u, hu, hp, -⟩ := runBlock_completes (d := d) (t := tn) (l := l) len hlen href hfin
      exact .inl ⟨_, hu, by rw [setSeq_fsr, hp.fields]⟩
    · obtain ⟨c0, n0, hc0, hn0, hbad, hbefore⟩ := exists_first_nonfinite_cell hfin
      obtain ⟨u, hu, -⟩ := runBlock_sampleFault (d := d) (t := tn) (l := l) len hlen href hc0 hn0 hbad hbefore
      exact .inr ⟨_, _, _, u, hu, .inl rfl⟩
  · obtain ⟨c0, e, hc0, hbefore, hbad⟩ := exists_first_failing_circuit href
    obtain ⟨u, hu, -⟩ := runBlock_refreshFault (d := d) (t := tn) (l := l) len hlen hc0 hbefore hbad
    exact .inr ⟨e, _, _, u, hu, .inr ⟨c0, hc0, by rw [circuitCoefs_eq_checks, hbad]⟩⟩

/-! ### Causes of a command -/

/-- The first check of `l` that does not pass faults command `o`; when all pass, the answer is `body` (rule R123). -/
def afterChecks (l : List (Bool × Cause)) (o : Op) (ch : Byte) (s : State) (body : Result) : Result :=
  match firstFailure l with
  | some e => fail e o ch s
  | none => body

/-- If command `o`, run in `s`, answers a next state, `FSR` there is as it was or records one of the command's causes. -/
def RaisesOwn (o : Op) (s : State) (r : Result) : Prop :=
  ∀ t, r = .next t → t.fsr = s.fsr ∨
    ∃ e ∈ causesOf o, t.fsr.cls = causeClass e ∧ t.fsr.cause = causeCode e ∧ t.fsr.op = o.code

theorem RaisesOwn.raised {o : Op} {e : Cause} (he : e ∈ causesOf o) (ch : Byte) (idx : Word) (u : State) :
    RaisesOwn o s (.next (raise e o.code ch idx u)) := by
  rintro t ⟨⟩
  exact .inr ⟨e, he, rfl, rfl, rfl⟩

theorem RaisesOwn.next {o : Op} (h : t.fsr = s.fsr) : RaisesOwn o s (.next t) := by
  rintro u ⟨⟩
  exact .inl h

/-- A command's list of checks, then its body: the checks name causes of the command, and where they all pass the body
raises such causes only. -/
theorem RaisesOwn.checked {o : Op} {l : List (Bool × Cause)} {ch : Byte} {body : Result}
    (hl : l.map Prod.snd ⊆ causesOf o) (hbody : firstFailure l = none → RaisesOwn o s body) :
    RaisesOwn o s (unlessFaulted s (afterChecks l o ch s body)) := by
  rw [unlessFaulted, afterChecks]
  split
  · exact .next rfl
  · split
    · rename_i hc
      exact .raised (cause_mem hc hl) ch 0#32 s
    · rename_i hc
      exact hbody hc

/-- A command whose one condition is that it runs. -/
theorem RaisesOwn.unchecked {o : Op} {body : Result} (hbody : RaisesOwn o s body) :
    RaisesOwn o s (unlessFaulted s body) :=
  .checked (l := []) (ch := 0#8) (by simp) fun _ => hbody

/-- The design causes, for a command that has them all. -/
theorem designCauses_subset {o : Op} (h : o ∈ [.cfg, .blk, .coef, .cprep, .updf]) : designCauses ⊆ causesOf o := by
  revert h
  cases o <;> decide

theorem coefIn_raises (kind : FilterKind) (fs fc : Word) : RaisesOwn .coef s (coefIn N kind fs fc s) := by
  refine .unchecked ?_
  split
  · rename_i e hc
    refine .raised ?_ 0#8 0#32 s
    obtain ⟨-, rfl⟩ | he := coef_cause hc
    · decide
    · exact designCauses_subset (by decide) he
  · exact .next rfl

theorem cprepIn_raises (c : Byte) (fs blksz : Word) : RaisesOwn .cprep s (cprepIn N c fs blksz s) := by
  refine .checked (by simp [causesOf]) fun _ => ?_
  split
  · rename_i e hc
    refine .raised ?_ c 0#32 s
    obtain he | he := circuitPrepare_cause hc
    · exact (by decide : [Cause.icFs, .icBlocksize] ⊆ causesOf .cprep) he
    · exact designCauses_subset (by decide) he
  · exact .next rfl

theorem cfgIn_raises (fs blksz nch : Word) : RaisesOwn .cfg s (cfgIn N fs blksz nch s) := by
  refine .checked (by simp [causesOf]) fun _ => ?_
  split
  · rename_i e hc
    refine .raised ?_ 0#8 0#32 s
    obtain ⟨-, rfl⟩ | he := circuitCoefs_cause hc
    · decide
    · exact designCauses_subset (by decide) he
  · split
    · rename_i hc
      exact .raised (cause_mem hc (by simp [causesOf])) 0#8 0#32 s
    · exact .next rfl

/-- The circuit that passes the checks of `UPDF` is Ready, so its rate is a sample rate (rule R35 (c)). -/
theorem execUpdf_raises (h : Inv s) (c : Byte) (drive tone : Word) :
    RaisesOwn .updf s (execUpdf c drive tone s) := by
  refine .checked (by simp [causesOf]) fun hc => ?_
  rw [firstFailure_eq_none] at hc
  have hmax : c.toNat < s.par.nchMax := by simpa using hc _ (.head _)
  have hready : (getCircuit s c.toNat).rdy = true := hc _ (.tail _ (.head _))
  have hfs := (h.prepared _ ((h.ready _ hmax).1 hready)).1
  split
  · rename_i e hbad
    exact .raised (designCauses_subset (by decide) (circuitUpdate_cause_of_rateOk hfs hbad)) c 0#32 s
  · exact .next rfl

theorem execBlk_raises (h : Inv s) (len drive tone level : Word) :
    RaisesOwn .blk s (execBlk len drive tone level s) := by
  refine .checked (by simp [causesOf]) fun _ => ?_
  split
  · have hlen : s.nch.toNat ≤ s.cir.length := h.circuits ▸ h.nch_le
    obtain ⟨u, hu, hfsr⟩ | ⟨e, ch, idx, u, hu, he⟩ :=
      runBlock_outcome (len := len) (d := drive) (tn := tone) (l := level) hlen
    · rw [asF, asF, asF, hu]
      exact .next hfsr
    · rw [asF, asF, asF, hu]
      refine .raised ?_ ch idx u
      obtain rfl | ⟨c, hc, hbad⟩ := he
      · decide
      · exact designCauses_subset (by decide) (circuitCoefs_cause_of_rateOk (h.prepared c hc).1 hbad)
  · rintro t ⟨⟩

/-- Every command raises its own causes only, on a state that meets the invariant. -/
theorem exec_raises (h : Inv s) (i : Instr) : RaisesOwn i.op s (exec i s) := by
  cases i with
  | cfg fs blksz nch => exact cfgIn_raises fs blksz nch
  | blk len drive tone level => exact execBlk_raises h len drive tone level
  | wrs => exact .checked (by simp [causesOf, Instr.op]) fun _ => .next rfl
  | rds => exact .checked (by simp [causesOf, Instr.op]) fun _ => .next rfl
  | smcfg => exact .checked (by simp [causesOf, Instr.op]) fun _ => .next (setSm_fsr ..)
  | smtgt => exact .checked (by simp [causesOf, Instr.op]) fun _ => .next (setSm_fsr ..)
  | smcur => exact .unchecked (.next rfl)
  | smnxt => exact .unchecked (.next (setSm_fsr ..))
  | coef kind fs fc => exact coefIn_raises kind fs fc
  | fapp => exact .checked (by simp [causesOf, Instr.op]) fun _ => .next rfl
  | clip => exact .checked (by simp [causesOf, Instr.op]) fun _ => .next rfl
  | cprep c fs blksz => exact cprepIn_raises c fs blksz
  | updf c drive tone => exact execUpdf_raises h c drive tone
  | psmp => exact .checked (by simp [causesOf, Instr.op]) fun _ => .next rfl

/-- Settles O16: a core that was not faulted and is has an `FSR` that changed, so it records a cause of the command. -/
theorem causesOfEachCommand : Obligations.CausesOfEachCommand := by
  intro i s t h hf hr ht
  refine (exec_raises h i t hr).resolve_left fun hfsr => ?_
  rw [isFaulted, hfsr] at ht
  exact Bool.false_ne_true (hf.symm.trans ht)

end Sys2Proof.Machine
end

section
/-! PROOFS. The sample buffer from outside (spec/20_memory.md): what `WRS`, `RDS`, `FILL` do to its cells, what a whole block
leaves in them, and what is left of a command's cells when a `RESET` cuts it short. -/

namespace Sys2Proof.Machine

variable {s t : State} {is js : List Instr}

/-! ### One cell -/

theorem execWrs_eq {c : Byte} {idx : Word} (v : Word) (hf : isFaulted s = false) (hc : c.toNat < s.par.nchMax)
    (hi : idx.toNat < s.par.blkMax) : execWrs c idx v s = .next { s with buf := memWrite s.buf c.toNat idx.toNat v } := by
  simp only [execWrs, unlessFaulted_of_running hf, firstFailure, hc, hi, decide_true, if_true]

theorem execRds_eq {c : Byte} {idx : Word} (hf : isFaulted s = false) (hc : c.toNat < s.par.nchMax)
    (hi : idx.toNat < s.par.blkMax) : execRds c idx s = .next (setRes0 s (cell s c.toNat idx.toNat)) := by
  simp only [execRds, unlessFaulted_of_running hf, firstFailure, hc, hi, decide_true, if_true, cell]

/-- Settles O29: the command is one `memWrite`, and an index word is below 2^32. -/
theorem wrsResult : Obligations.WrsResult := by
  intro c idx v s hf hc hi
  exact ⟨_, execWrs_eq v hf hc hi, rfl, memRead_memWrite_same ..,
    fun c' i hi' hne => memRead_memWrite_other s.buf v idx.isLt hi' hne⟩

/-- Settles O30: the checks pass, and what is left is the write of `RES[0]`. -/
theorem rdsResult : Obligations.RdsResult := fun _ _ _ hf hc hi => execRds_eq hf hc hi

/-! ### `FILL` -/

theorem execAll_append (h : execAll is s = .next t) : execAll (is ++ js) s = execAll js t := by
  induction is generalizing s with
  | nil =>
    cases h
    rfl
  | cons i is ih =>
    simp only [execAll, List.cons_append] at h ⊢
    split at h
    · exact ih h
    · cases h
    · cases h

theorem execAll_singleton {i : Instr} (h : exec i s = .next t) : execAll [i] s = .next t := by
  simp only [execAll, h]

theorem fillCommands_succ (c : Byte) (n : Nat) (v : Word) :
    fillCommands c (n + 1) v = fillCommands c n v ++ [.wrs c (BitVec.ofNat 32 n) v] := by
  simp [fillCommands, List.range_succ]

/-- The buffer after `FILL c, n, v`: one `memWrite` for each cell, in order. -/
def fillMem (m : Memory) (c : Nat) (v : Word) : Nat → Memory
  | 0 => m
  | n + 1 => memWrite (fillMem m c v n) c n v

theorem memRead_fillMem {c n : Nat} (v : Word) (hn : n ≤ 2 ^ 32) (c' : Nat) {i : Nat} (hi : i < 2 ^ 32) :
    memRead (fillMem m c v n) c' i = if c' = c ∧ i < n then v else memRead m c' i := by
  induction n with
  | zero => simp [fillMem]
  | succ n ih =>
    rw [fillMem]
    by_cases hcell : c' = c ∧ i = n
    · obtain ⟨rfl, rfl⟩ := hcell
      rw [memRead_memWrite_same, if_pos ⟨rfl, Nat.lt_succ_self i⟩]
    · have hiff : (c' = c ∧ i < n + 1) ↔ (c' = c ∧ i < n) := by omega
      rw [memRead_memWrite_other _ v hn hi hcell, ih (by omega), if_congr hiff rfl rfl]

theorem execAll_fillCommands {c : Byte} {n : Nat} (v : Word) (hf : isFaulted s = false) (hc : c.toNat < s.par.nchMax)
    (hn : n ≤ s.par.blkMax) (hn' : n ≤ 2 ^ 32) :
    execAll (fillCommands c n v) s = .next { s with buf := fillMem s.buf c.toNat v n } := by
  induction n with
  | zero => rfl
  | succ n ih =>
    have hidx : (BitVec.ofNat 32 n).toNat = n := by
      rw [BitVec.toNat_ofNat, Nat.mod_eq_of_lt hn']
    have hlast := execWrs_eq (s := { s with buf := fillMem s.buf c.toNat v n }) v hf hc (hidx.trans_lt hn)
    rw [hidx] at hlast
    rw [fillCommands_succ, execAll_append (ih (by omega) (by omega))]
    exact execAll_singleton hlast

/-- Settles O47: the expansion is `fillMem`, whose cells are known. -/
theorem fillWritesCells : Obligations.FillWritesCells := by
  intro c n v s hf hc hn hn'
  exact ⟨_, execAll_fillCommands v hf hc hn hn', rfl, fun c' i hi => memRead_fillMem v hn' c' hi⟩

/-! ### A whole block -/

/-- A block that meets no fault answers the end of its progress, with the sequencer idle. -/
theorem exec_blk_completes {len d tn l : Word} (hacc : BlockAccepted s len d tn l)
    (href : RefreshSucceeds s s.nch.toNat) (hfin : SamplesFinite s len) :
    ∃ u, exec (.blk len d tn l) s = .next (setSeq u .idle 0 0) ∧
      OutsideBlock s.nch.toNat len.toNat s (setSeq u .idle 0 0) ∧
      Progress s d tn l len.toNat (fun _ => len.toNat) u ∧
      (len.toNat = 0 → u.fd = s.fd ∧ u.ft = s.ft ∧ u.fl = s.fl) ∧ ∀ n, len.toNat = n + 1 → Latched s d tn l n u := by
  obtain ⟨u, hrun, hp, hzero, hlatch⟩ := runBlock_completes len hacc.circuits href hfin
  refine ⟨u, ?_, runBlock_outsideBlock (.inl hrun), hp.congr fun c _ => by simp [doneAt], hzero, hlatch⟩
  rw [exec, execBlk_of_accepted hacc, hrun]

/-- Settles O31: the clauses on the collection are the block's `Progress` at its end, the others its frame. -/
theorem blockIsPerChannelRuns : Obligations.BlockIsPerChannelRuns := by
  intro len d tn l s hacc href hfin N
  obtain ⟨u, hexec, hout, hp, hzero, hlatch⟩ := exec_blk_completes hacc href hfin
  have hrunning : endsNormally (setSeq u .idle 0 0) := by
    rw [endsNormally, isFaulted, setSeq_fsr, hp.fields]
    exact hacc.running
  refine ⟨_, hexec, hrunning, ?_, ?_, hzero, hlatch, fun c hc => ⟨hp.circuit c hc, hp.output c hc⟩, hout.circuits,
    hout.cells⟩
  · rw [setSeq, hp.fields]
  · rw [setSeq_sm, hp.fields]

/-! ### `RESET` while a command runs -/

/-- A cut list has no word for a cell that the list of after has none for, and else that list's word or the old one's. -/
theorem find_memCut (draw : Nat) (old new : Memory) (k : Nat) :
    (memCut draw old new).find k =
      (new.find k).bind fun v => if Config.cutKeepsOld draw k then old.find k else some v := by
  induction new with
  | nil => rfl
  | cons p rest ih =>
    obtain ⟨a, v⟩ := p
    rw [memCut, List.filterMap_cons, ← memCut]
    by_cases hk : a = k
    · subst hk
      cases hkeep : Config.cutKeepsOld draw a with
      | false => simp [Memory.find]
      | true => cases hold : old.find a <;> simp [Memory.find, ih, hkeep, hold]
    · have hskip : Memory.find ((a, v) :: rest) k = Memory.find rest k := if_neg hk
      rw [hskip, ← ih]
      cases Config.cutKeepsOld draw a with
      | false => simp [Memory.find, hk]
      | true => cases old.find a <;> simp [Memory.find, hk]

/-- After a cut a cell reads as before the command or as after it: `cutKeepsOld` chooses where the list of after has a
word for the cell, and where it has none the cut list has none either. -/
theorem memRead_memCut (draw : Nat) (old new : Memory) (c i : Nat) :
    memRead (memCut draw old new) c i = memRead old c i ∨ memRead (memCut draw old new) c i = memRead new c i := by
  simp only [memRead, find_memCut]
  cases new.find (cellKey c i) with
  | none => exact .inr rfl
  | some v =>
    cases hkeep : Config.cutKeepsOld draw (cellKey c i) with
    | true => exact .inl (by simp)
    | false => exact .inr (by simp)

@[simp] theorem getCircuit_powerUp (p : Params) (c : Nat) : getCircuit (State.powerUp p) c = circuitAtReset := by
  simp only [getCircuit, State.powerUp, List.getD_eq_getElem?_getD, List.getElem?_replicate]
  split <;> rfl

/-- The registers of rule R34 stand in the power-up state whatever `BUF` and the model's own fields are. -/
theorem resetRegisters_powerUp (p : Params) (b : Memory) (port : List HostEvent) (draws : Nat) :
    ResetRegisters p { State.powerUp p with buf := b, port := port, draws := draws } where
  res := rfl
  sm k := by cases k <;> rfl
  circuits := List.length_replicate ..
  cir c _ := by
    have hcir : getCircuit { State.powerUp p with buf := b, port := port, draws := draws } c = circuitAtReset :=
      getCircuit_powerUp p c
    rw [hcir]
    exact ⟨rfl, rfl, ⟨rfl, rfl, rfl, rfl, rfl, rfl⟩, fun f => by cases f <;> rfl⟩
  pstCfg := rfl
  nch := rfl
  blksz := rfl
  fsr := rfl
  cmdq := rfl
  seq := rfl

theorem step_word_eq {w : Word} {rest : List HostEvent} (hp : paramsOk s.par = true) :
    step { s with port := .word w :: rest } = acceptWord exec w { s with port := rest } := if_pos hp

/-- A step whose command a `RESET` cuts short: what the command would have left goes into the cut only. -/
theorem step_of_wordCut {w : Word} {rest : List HostEvent} (hp : paramsOk s.par = true)
    (hport : s.port = .wordCut w :: rest) (h : acceptWord exec w { s with port := rest } = .next t) :
    step s = .next (applyResetCut { s with port := rest } t) := by
  rw [step, if_pos hp, portStep, hport]
  simp only [hostStep, acceptWordCut, h]

/-- Settles O12: the registers are those of `applyReset`, the cells those of `memCut`. -/
theorem resetInMidCommand : Obligations.ResetInMidCommand := by
  intro s t w rest hp hport ht
  exact ⟨_, step_of_wordCut hp hport (step_word_eq hp ▸ ht), resetRegisters_powerUp .., rfl,
    memRead_memCut s.draws s.buf t.buf⟩

end Sys2Proof.Machine
end

section
/-! PROOFS. The decoder and the encoder undo each other, and a command word is illegal exactly by the five clauses
(spec/30_encoding.md rules R56 to R63). -/

namespace Sys2Proof.Machine

/-! ### Opcodes and selectors -/

theorem knobOfSel_eq_some {b : Byte} {k : Knob} : knobOfSel b = some k ↔ b = k.sel := by
  revert b
  cases k <;> decide

theorem kindOfSel_eq_some {b : Byte} {kind : FilterKind} : kindOfSel b = some kind ↔ b = kind.sel := by
  revert b
  cases kind <;> decide

theorem filterOfSel_eq_some {b : Byte} {f : FilterIx} : filterOfSel b = some f ↔ b = f.sel := by
  revert b
  cases f <;> decide

@[simp] theorem knobOfSel_sel (k : Knob) : knobOfSel k.sel = some k := knobOfSel_eq_some.2 rfl

@[simp] theorem kindOfSel_sel (kind : FilterKind) : kindOfSel kind.sel = some kind := kindOfSel_eq_some.2 rfl

@[simp] theorem filterOfSel_sel (f : FilterIx) : filterOfSel f.sel = some f := filterOfSel_eq_some.2 rfl

theorem opOfCode_eq_some {b : Byte} {o : Op} : opOfCode b = some o ↔ b = o.code := by
  revert b
  cases o <;> decide

theorem opOfCode_eq_none {b : Byte} : opOfCode b = none ↔
    b.toNat ∉ [0x01, 0x02, 0x03, 0x04, 0x10, 0x11, 0x12, 0x13, 0x20, 0x21, 0x30, 0x40, 0x41, 0x42] := by
  revert b
  decide

theorem operandCount_le (o : Op) : o.operandCount ≤ 4 := by cases o <;> decide

/-! ### Legal heads -/

/-- A head is legal when none of the clauses (b) to (e) of rule R61 holds of it. -/
theorem head_wellFormed_iff {h : Head} : h.wellFormed = true ↔
    h.rsv = 0 ∧ (h.op.format.hasCh = false → h.ch = 0) ∧ (h.op.format.hasSel = false → h.sel = 0) ∧
      (h.op.format.hasSel = true → h.sel.toNat < h.op.selCount) := by
  simp [Head.wellFormed, Head.rsvOk, Head.chOk, Head.selZeroOk, Head.selRangeOk, and_assoc, or_iff_not_imp_left]

/-- Legal heads of one opcode that agree in the fields its format uses are the same head. -/
theorem head_eq_of_wellFormed {h h' : Head} (hw : h.wellFormed = true) (hw' : h'.wellFormed = true)
    (hop : h.op = h'.op) (hch : h.op.format.hasCh = true → h.ch = h'.ch)
    (hsel : h.op.format.hasSel = true → h.sel = h'.sel) : h = h' := by
  obtain ⟨hrsv, hch0, hsel0, -⟩ := head_wellFormed_iff.1 hw
  obtain ⟨hrsv', hch0', hsel0', -⟩ := head_wellFormed_iff.1 hw'
  obtain ⟨op, ch, sel, rsv⟩ := h
  obtain ⟨op', ch', sel', rsv'⟩ := h'
  cases hop
  have hc : ch = ch' := by
    cases hform : op.format.hasCh with
    | false => exact (hch0 hform).trans (hch0' hform).symm
    | true => exact hch hform
  have hs : sel = sel' := by
    cases hform : op.format.hasSel with
    | false => exact (hsel0 hform).trans (hsel0' hform).symm
    | true => exact hsel hform
  rw [Head.mk.injEq]
  exact ⟨rfl, hc, hs, hrsv.trans hrsv'.symm⟩

/-! ### The command word -/

/-- The four fields side by side are the word (rule R56). -/
theorem fields_append (w : Word) : fieldOpc w ++ fieldCh w ++ fieldSel w ++ fieldRsv w = w := by
  have hi : w.extractLsb' 24 8 ++ w.extractLsb' 16 8 = w.extractLsb' 16 16 :=
    BitVec.extractLsb'_append_extractLsb'_eq_extractLsb' rfl
  have mid : w.extractLsb' 16 16 ++ w.extractLsb' 8 8 = w.extractLsb' 8 24 :=
    BitVec.extractLsb'_append_extractLsb'_eq_extractLsb' rfl
  have lo : w.extractLsb' 8 24 ++ w.extractLsb' 0 8 = w.extractLsb' 0 32 :=
    BitVec.extractLsb'_append_extractLsb'_eq_extractLsb' rfl
  rw [fieldOpc, fieldCh, fieldSel, fieldRsv, hi, mid, lo, BitVec.extractLsb'_eq_self]

/-- The fields of a word whose opcode names `o`, as the decoder reads them. -/
def headOf (o : Op) (w : Word) : Head := ⟨o, fieldCh w, fieldSel w, fieldRsv w⟩

theorem headWord_headOf {o : Op} {w : Word} (ho : fieldOpc w = o.code) : headWord (headOf o w) = w := by
  rw [headWord, headOf, ← ho, fields_append]

theorem decodeHead_of_undefined {w : Word} (ho : opOfCode (fieldOpc w) = none) : decodeHead w = .error .opcode := by
  rw [decodeHead, ho]

theorem decodeHead_of_legal {o : Op} {w : Word} (ho : opOfCode (fieldOpc w) = some o)
    (hw : (headOf o w).wellFormed = true) : decodeHead w = .ok (headOf o w) := by
  simp only [Head.wellFormed, headOf, Bool.and_eq_true] at hw
  simp [decodeHead, ho, hw, headOf]

/-- A command word that the decoder reads has a defined opcode, and its fields are legal. -/
theorem decodeHead_eq_ok {w : Word} {h : Head} (hd : decodeHead w = .ok h) :
    ∃ o, opOfCode (fieldOpc w) = some o ∧ h = headOf o w ∧ h.wellFormed = true := by
  revert hd
  fun_cases decodeHead w
  case case6 o ho _ hrsv hch hsel hrange =>
    intro hd
    obtain rfl := Except.ok.inj hd
    simp only [Bool.not_eq_true', Bool.not_eq_false] at hrsv hch hsel hrange
    exact ⟨o, ho, rfl, by rw [Head.wellFormed, hrsv, hch, hsel, hrange]; rfl⟩
  all_goals rintro ⟨⟩

/-! ### Whole commands -/

/-- A command's fields and operands assemble to it, whatever words follow. -/
theorem assemble_head_operands (i : Instr) (rest : List Word) :
    assemble i.head (i.operands ++ rest) = some (i, rest) := by
  cases i <;> simp [assemble, Instr.head, Instr.operands]

/-- What a command is assembled from: its opcode, the fields its format uses, its operands, then the words left over. -/
theorem assemble_eq_some {h : Head} {ws rest : List Word} {i : Instr} (ha : assemble h ws = some (i, rest)) :
    h.op = i.head.op ∧ (h.op.format.hasCh = true → h.ch = i.head.ch) ∧
      (h.op.format.hasSel = true → h.sel = i.head.sel) ∧ ws = i.operands ++ rest := by
  revert ha
  fun_cases assemble h ws
  -- the rows without a selector
  case case1 | case2 | case3 | case4 | case11 | case12 | case13 | case14 =>
    rename_i hop
    rintro ⟨⟩
    simp [hop, Instr.head, Instr.operands, Op.format, Format.hasCh, Format.hasSel]
  -- the rows with one, which names `k`
  case case5 | case6 | case7 | case8 | case9 | case10 =>
    rename_i hop
    rw [Option.map_eq_some_iff]
    rintro ⟨k, hk, ⟨⟩⟩
    simp only [knobOfSel_eq_some, kindOfSel_eq_some, filterOfSel_eq_some] at hk
    simp [hop, hk, Instr.head, Instr.operands, Op.format, Format.hasCh, Format.hasSel]
  -- words are missing
  case case15 => simp

theorem decodeWords_encode_append (i : Instr) (rest : List Word) :
    decodeWords (encode i ++ rest) = .command i rest := by
  obtain ⟨-, -, hhead⟩ := commandWordLegal i
  rw [encode, List.cons_append, decodeWords, hhead]
  simp only [assemble_head_operands]

/-- A whole command in a list of words: its command word is legal, and it is assembled from the words after that. -/
theorem decodeWords_eq_command {ws rest : List Word} {i : Instr} (hd : decodeWords ws = .command i rest) :
    ∃ w tail h, ws = w :: tail ∧ decodeHead w = .ok h ∧ assemble h tail = some (i, rest) := by
  revert hd
  fun_cases decodeWords ws
  case case3 w tail h hhead _ _ ha =>
    rintro ⟨⟩
    exact ⟨w, tail, h, rfl, hhead, ha⟩
  all_goals rintro ⟨⟩

/-- Settles O1, from the command word that reads back and the operands that assemble. -/
theorem decodeOfEncode : Obligations.DecodeOfEncode := by
  intro i rest
  obtain ⟨hlen, hlegal, -⟩ := commandWordLegal i
  have hcount := operandCount_le i.op
  exact ⟨hlegal, decodeWords_encode_append i rest, by omega⟩

/-- Settles O2: the head that was read and the head of the command are both legal and agree in every field in use. -/
theorem encodeOfDecode : Obligations.EncodeOfDecode := by
  intro ws rest i hd
  obtain ⟨w, tail, h, rfl, hhead, ha⟩ := decodeWords_eq_command hd
  obtain ⟨o, ho, rfl, hlegal⟩ := decodeHead_eq_ok hhead
  obtain ⟨hop, hch, hsel, htail⟩ := assemble_eq_some ha
  obtain ⟨-, hlegal', -⟩ := commandWordLegal i
  have heq : headOf o w = i.head := head_eq_of_wellFormed hlegal hlegal' hop hch hsel
  rw [encode, ← heq, headWord_headOf (opOfCode_eq_some.1 ho), htail, List.cons_append]

theorem decodeWords_encode (i : Instr) : decodeWords (encode i) = .command i [] := by
  simpa using decodeWords_encode_append i []

/-- Settles O4: the words are those of the encoder. -/
theorem tableWordsDecode : Obligations.TableWordsDecode := by
  refine ⟨?_, ?_, ?_, ?_, ?_⟩
  · exact decodeWords_encode (.psmp 1#8 0x3E800000#32 0x3F800000#32 0x3F000000#32 0x3F800000#32)
  · exact decodeWords_encode (.smnxt .level)
  · exact decodeWords_encode (.fapp 0#8 .ohp 0#32)
  · exact decodeWords_encode (.coef .highPass 0x472C4400#32 0x41A00000#32)
  · exact decodeWords_encode (.cfg 0x472C4400#32 512#32 1#32)

/-! ### The five clauses -/

/-- The rows of rule R59 whose format gives `ch` no value. -/
theorem code_mem_noCh (o : Op) :
    o.code.toNat ∈ [0x01, 0x02, 0x30, 0x10, 0x11, 0x12, 0x13, 0x20] ↔ o.format.hasCh = false := by
  cases o <;> decide

/-- The rows of rule R59 whose format gives `sel` no value. -/
theorem code_mem_noSel (o : Op) :
    o.code.toNat ∈ [0x01, 0x02, 0x30, 0x03, 0x04, 0x40, 0x41, 0x42] ↔ o.format.hasSel = false := by
  cases o <;> decide

/-- The rows of rule R59 that have a selector, each with the values it has not (rule R60). -/
theorem selCount_le_iff (o : Op) (n : Nat) :
    (o.code.toNat ∈ [0x10, 0x11, 0x12, 0x13, 0x21] ∧ 3 ≤ n) ∨ (o.code.toNat = 0x20 ∧ 2 ≤ n) ↔
      o.format.hasSel = true ∧ o.selCount ≤ n := by
  cases o <;> simp [Op.code, Op.format, Format.hasSel, Op.selCount]

theorem illegalWord_of_undefined {w : Word} (ho : opOfCode (fieldOpc w) = none) : IllegalWord w :=
  .inl (opOfCode_eq_none.1 ho)

/-- With a defined opcode only the clauses (b) to (e) are left. -/
theorem illegalWord_iff_of_op {o : Op} {w : Word} (ho : opOfCode (fieldOpc w) = some o) :
    IllegalWord w ↔ (headOf o w).wellFormed = false := by
  have hcode : w.extractLsb' 24 8 = o.code := opOfCode_eq_some.1 ho
  have hdef := mt opOfCode_eq_none.2 (Option.ne_none_iff_exists'.2 ⟨o, ho⟩)
  rw [fieldOpc, hcode] at hdef
  rw [← Bool.not_eq_true, head_wellFormed_iff]
  simp only [IllegalWord, hcode, hdef, code_mem_noCh, code_mem_noSel, selCount_le_iff, false_or]
  have hzero (b : Byte) : b.toNat ≠ 0 ↔ ¬b = 0 := not_congr (BitVec.toNat_inj (y := 0#8))
  simp only [headOf, fieldCh, fieldSel, fieldRsv, hzero, not_and_or, Classical.not_imp, not_lt]

theorem decodeHead_error_iff (w : Word) : (∃ why, decodeHead w = .error why) ↔ IllegalWord w := by
  cases ho : opOfCode (fieldOpc w) with
  | none => exact iff_of_true ⟨_, decodeHead_of_undefined ho⟩ (illegalWord_of_undefined ho)
  | some o =>
    rw [illegalWord_iff_of_op ho]
    cases hw : (headOf o w).wellFormed with
    | true => simp [decodeHead_of_legal ho hw]
    | false =>
      cases hd : decodeHead w with
      | error why => exact iff_of_true ⟨why, rfl⟩ rfl
      | ok h =>
        obtain ⟨o', ho', rfl, hw'⟩ := decodeHead_eq_ok hd
        cases ho.symm.trans ho'
        exact absurd (hw.symm.trans hw') Bool.false_ne_true

end Sys2Proof.Machine
end

section
/-! PROOFS. What the port does with the word that comes (spec/30_encoding.md rules R55, R61, spec/60_exceptions.md rule
R123): an illegal command word faults, the last word of a command runs it, and so the words of a command, one step each,
run it once. -/

namespace Sys2Proof.Machine

variable {s : State} {w : Word} {rest : List HostEvent}

theorem step_of_word (hp : paramsOk s.par = true) (hport : s.port = .word w :: rest) :
    step s = acceptWord exec w { s with port := rest } := by
  rw [← step_word_eq hp, ← hport]

theorem acceptWord_of_illegal {run : Instr → State → Result} {w0 : Word} {why : Illegal} (hf : isFaulted s = false)
    (hd : decodeWords (s.cmdq ++ [w]) = .illegal w0 why) :
    acceptWord run w s = .next (raise .pvIllegal (fieldOpc w0) 0#8 0#32 s) := by
  simp [acceptWord, hf, hd]

theorem acceptWord_of_command {run : Instr → State → Result} {i : Instr} {left : List Word}
    (hf : isFaulted s = false) (hd : decodeWords (s.cmdq ++ [w]) = .command i left) :
    acceptWord run w s = run i { s with cmdq := [] } := by
  simp [acceptWord, hf, hd]

theorem decodeWords_of_illegal {why : Illegal} (hd : decodeHead w = .error why) (ws : List Word) :
    decodeWords (w :: ws) = .illegal w why := by
  rw [decodeWords, hd]

/-- At a command boundary with the sequencer idle a raise changes `FSR` only. -/
theorem raise_at_boundary (hq : s.cmdq = []) (hseq : s.seq = { phase := .idle, n := 0#32, c := 0#32 }) (e : Cause)
    (op ch : Byte) (idx : Word) : raise e op ch idx s =
      { s with fsr := { cls := causeClass e, cause := causeCode e, op := op, ch := ch, idx := idx } } := by
  rw [raise, ← hq, ← hseq]

/-- Settles O3: the clauses are the decoder's, and the core, not faulted, raises for a word that has one. -/
theorem illegalCommandWords : Obligations.IllegalCommandWords := by
  refine ⟨decodeHead_error_iff, ?_, illegalWord_of_undefined (by decide), illegalWord_of_undefined (by decide)⟩
  intro s w rest hp hf hport hq hseq hill
  obtain ⟨why, hwhy⟩ := (decodeHead_error_iff w).2 hill
  have hd : decodeWords (s.cmdq ++ [w]) = .illegal w why := by rw [hq, List.nil_append, decodeWords_of_illegal hwhy]
  rw [step_of_word hp hport, acceptWord_of_illegal (s := { s with port := rest }) hf hd,
    raise_at_boundary (s := { s with port := rest }) hq hseq]
  rfl

/-- Settles O6: the port's word completes the command. -/
theorem stepRunsDecodedCommand : Obligations.StepRunsDecodedCommand := by
  intro s w rest i hp hf hport hd
  rw [step_of_word hp hport, acceptWord_of_command (s := { s with port := rest }) hf hd]

theorem run_succ_of_next {M : Host.Core} {u v : M.State} (h : M.step u = .next v) (k : Nat) :
    M.run (k + 1) u = M.run k v := by
  simp only [Host.Core.run, h]

theorem run_one (M : Host.Core) (u : M.State) : M.run 1 u = M.step u := by
  simp only [Host.Core.run]
  cases M.step u <;> rfl

/-- With the words `pre` of a command received, the other words, `w` the next of them, run it. -/
theorem core_run_remaining {i : Instr} {pre post : List Word} (hp : paramsOk s.par = true) (hf : isFaulted s = false)
    (hi : encode i = pre ++ w :: post) (hq : s.cmdq = pre) (hport : s.port = (w :: post).map HostEvent.word ++ rest) :
    Host.Core.run Sys2Proof.core (w :: post).length s = exec i { s with port := rest, cmdq := [] } := by
  induction post generalizing pre w s with
  | nil =>
    have hd : decodeWords (s.cmdq ++ [w]) = .command i [] := by rw [hq, ← hi, decodeWords_encode]
    exact (run_one core s).trans (stepRunsDecodedCommand s w rest i hp hf hport hd)
  | cons w' post ih =>
    have htake : (encode i).take (pre.length + 1) = pre ++ [w] := by simp [hi, List.take_append]
    have hd : decodeWords (s.cmdq ++ [w]) = .incomplete := by
      rw [hq, ← htake]
      exact decodeWords_take_encode (by simp [hi])
    refine (run_succ_of_next (M := core) (step_of_incomplete hp hf hport hd) _).trans ?_
    exact ih (pre := pre ++ [w]) (s := { s with port := _, cmdq := _ }) hp hf (by simp [hi]) (by rw [hq]) rfl

/-- Settles O7, from the run of the remaining words with none received yet. -/
theorem wholeCommandRuns : Obligations.WholeCommandRuns := by
  intro s i rest hp hf hq hport
  have hrun := core_run_remaining (pre := []) hp hf rfl hq hport
  rw [← hq] at hrun
  exact hrun

end Sys2Proof.Machine
end

section
/-! PROOFS. The smoother operations (spec/40_smoother.md rules R71 to R75), an equation for each of their cases; what the
four smoother commands and `CFG` leave in the smoothers; and that a command with selector `k` sees `SM[k]` only (rule
R79). -/

namespace Sys2Proof.Machine

/-! ### The smoother operations by their cases -/

section Cases

variable {F : Type} {N : Num F} {q : Smoother F}

/-- The ramp is set up by its length and by whether `cur` is already at the target (rule R71). -/
theorem smoothRamp_eq (N : Num F) (q : Smoother F) :
    smoothRamp N q = if q.nsteps.toNat = 0 ∨ N.feq q.cur q.tgt = true then { q with cnt := 0#32, step := N.zero }
      else { q with cnt := q.nsteps, step := N.fdiv (N.fsub q.tgt q.cur) (N.u2f q.nsteps.toNat) } := by
  simp only [smoothRamp, Bool.or_eq_true, beq_iff_eq, BitVec.toNat_eq, BitVec.toNat_ofNat, Nat.zero_mod]

/-- Landed: the next value is the target (rule R75). -/
theorem smoothNext_of_cnt_zero (h : q.cnt.toNat = 0) : smoothNext N q = { q with cur := q.tgt } := by
  have h0 : q.cnt = 0#32 := BitVec.eq_of_toNat_eq h
  rw [smoothNext, if_pos (by rw [h0]; rfl)]

/-- The last sample of a ramp lands. -/
theorem smoothNext_of_cnt_one (h : q.cnt.toNat = 1) :
    smoothNext N q = { q with cur := q.tgt, cnt := 0#32, step := N.zero } := by
  have h1 : q.cnt = 1#32 := BitVec.eq_of_toNat_eq h
  rw [smoothNext, if_neg (by rw [h1]; decide), if_pos (by rw [h1]; decide)]

/-- A sample before the last: one increment, or the target where that would pass it. -/
theorem smoothNext_of_one_lt_cnt (h : 1 < q.cnt.toNat) :
    smoothNext N q = if passesTarget N q (N.fadd q.cur q.step) = true then
        { q with cur := q.tgt, cnt := 0#32, step := N.zero }
      else { q with cur := N.fadd q.cur q.step, cnt := q.cnt - 1#32 } := by
  have h0 : ¬(q.cnt == 0#32) = true := by
    rw [beq_iff_eq]
    bv_omega
  have h1 : ¬(q.cnt - 1#32 == 0#32) = true := by
    rw [beq_iff_eq]
    bv_omega
  rw [smoothNext, if_neg h0, if_neg h1]

@[simp] theorem smoothRamp_cur (N : Num F) (q : Smoother F) : (smoothRamp N q).cur = q.cur := by
  rw [smoothRamp]
  split <;> rfl

@[simp] theorem smoothRamp_tgt (N : Num F) (q : Smoother F) : (smoothRamp N q).tgt = q.tgt := by
  rw [smoothRamp]
  split <;> rfl

@[simp] theorem smoothConfigure_cur (N : Num F) (fs win : F) (q : Smoother F) :
    (smoothConfigure N fs win q).cur = q.cur := smoothRamp_cur ..

@[simp] theorem smoothConfigure_tgt (N : Num F) (fs win : F) (q : Smoother F) :
    (smoothConfigure N fs win q).tgt = q.tgt := smoothRamp_tgt ..

end Cases

variable {N : Num Word} {s s' t t' : State} {k : Knob}

/-! ### The commands, their checks passed -/

theorem smcfgIn_eq {fs win : Word} (hf : isFaulted s = false) (hr : rateOk N fs = true) (hw : windowOk N win = true)
    (hs : stepsOk N fs win = true) :
    smcfgIn N k fs win s = .next (setSm s k (smoothConfigure N fs win (getSm s k))) := by
  simp only [smcfgIn, unlessFaulted_of_running hf, asF, firstFailure, hr, hw, hs, if_true]

theorem smtgtIn_eq {v : Word} (hf : isFaulted s = false) (hv : N.isfinite v = true) :
    smtgtIn N k v s = .next (setSm s k (smoothSetTarget N v (getSm s k))) := by
  simp only [smtgtIn, unlessFaulted_of_running hf, asF, firstFailure, hv, if_true]

theorem cfgIn_eq {fs blksz nch : Word} {b : CoefBank Word} (hf : isFaulted s = false) (hr : rateOk N fs = true)
    (hb0 : blksz ≠ 0#32) (hb : blksz.toNat ≤ s.par.blkMax) (hn0 : nch ≠ 0#32) (hn : nch.toNat ≤ s.par.nchMax)
    (hk : circuitCoefs N fs s.par.pdefTone = .ok b) (hs : stepsOk N fs s.par.windowS = true) :
    cfgIn N fs blksz nch s = .next (configure N fs blksz nch b s) := by
  simp [cfgIn, hf, asF, firstFailure, hr, hb0, hb, hn0, hn, hk, hs]

/-- A step count that fits the counter, in `NUM32` (rule R72 check (3)). -/
theorem stepsOk_num32 {p : Params} {fs win : Word} (hp : isFinite32 (fmul32 fs win) = true)
    (hn : floorN32 (fmul32 fs win) < 2 ^ 32) : stepsOk (num32 p) fs win = true := by
  rw [stepsOk, Bool.and_eq_true, decide_eq_true_eq]
  exact ⟨hp, hn⟩

/-- A write of a smoother touches `sm` only. -/
theorem setSm_eq (s : State) (k : Knob) (q : Smoother Word) : setSm s k q = { s with sm := (setSm s k q).sm } := by
  cases k <;> rfl

/-- `CFG` configures each smoother by itself (spec/44_block.md rule R106). -/
@[simp] theorem getSm_configure (N : Num Word) (fs blksz nch : Word) (b : CoefBank Word) (s : State) (k : Knob) :
    getSm (configure N fs blksz nch b s) k = smoothConfigure N fs s.par.windowS (getSm s k) := by
  cases k <;> rfl

/-- `CFG` prepares the circuits below `nch` and destroys the others (spec/44_block.md rule R106). -/
theorem getCircuit_configure (N : Num Word) (fs blksz nch : Word) (b : CoefBank Word) (s : State) {c : Nat}
    (hc : c < s.par.nchMax) : getCircuit (configure N fs blksz nch b s) c =
      if c < nch.toNat then preparedCircuit N fs b else circuitAtReset := by
  simp [getCircuit, configure, configuredCircuits, hc]

/-! ### What each command does -/

/-- Settles O18: the command shows `cur` in `RES[0]`. -/
theorem smcurResult : Obligations.SmcurResult := fun _ _ => ⟨rfl, fun hf => execSmcur_eq hf⟩

/-- Settles O19, by the count: landed, at the last sample, or before it. -/
theorem smnxtResult : Obligations.SmnxtResult := by
  intro k s hf
  refine ⟨_, smnxtIn_eq hf, by cases k <;> rfl, by simp, fun k' hk => by simp [hk], ?_⟩
  have hpass : ∀ q : Smoother Word, passesTarget (num32 s.par) q (fadd32 q.cur q.step) = true ↔
      (flt32 0#32 q.step = true ∧ flt32 q.tgt (fadd32 q.cur q.step) = true) ∨
        (flt32 q.step 0#32 = true ∧ flt32 (fadd32 q.cur q.step) q.tgt = true) := by
    simp [passesTarget]
  dsimp only
  rw [getSm_setRes0, getSm_setSm_same]
  generalize getSm s k = q
  obtain h0 | h1 | hlt : q.cnt.toNat = 0 ∨ q.cnt.toNat = 1 ∨ 1 < q.cnt.toNat := by omega
  · rw [if_pos h0, smoothNext_of_cnt_zero h0]
  · rw [if_neg (by omega), if_pos h1, smoothNext_of_cnt_one h1]
    rfl
  · have hcnt : q.cnt - 1#32 = BitVec.ofNat 32 (q.cnt.toNat - 1) := by bv_omega
    rw [if_neg (by omega), if_neg (by omega), smoothNext_of_one_lt_cnt hlt]
    simp only [num32_fadd, num32_zero, hpass, hcnt]

/-- Settles O20: an equal target is a no-op, any other is recorded and starts a ramp. -/
theorem smtgtResult : Obligations.SmtgtResult := by
  intro k v s hf hv
  refine ⟨_, smtgtIn_eq hf hv, setSm_eq .., fun k' hk => getSm_setSm_other s _ hk, ?_⟩
  rw [getSm_setSm_same, smoothSetTarget, smoothRamp_eq]
  rfl

/-- Settles O21: `smooth_configure`, written back. -/
theorem smcfgResult : Obligations.SmcfgResult := by
  intro k fs win s hf hfs hpos hwin hneg hp hn
  refine ⟨_, smcfgIn_eq hf ?_ ?_ ?_, setSm_eq .., fun k' hk => getSm_setSm_other s _ hk, ?_⟩
  · simp [rateOk, hfs, hpos]
  · simp [windowOk, hwin, hneg]
  · exact stepsOk_num32 hp hn
  · rw [getSm_setSm_same, smoothConfigure_eq _ _ _ _ hn]

/-- Settles O28: the writes of `configure`, its checks passed. -/
theorem cfgResult : Obligations.CfgResult := by
  intro fs blksz nch s hf hfs hpos hb1 hb hn1 hn hk hp hsteps
  have hb0 : blksz ≠ 0#32 := by bv_omega
  have hn0 : nch ≠ 0#32 := by bv_omega
  have hrate : rateOk (num32 s.par) fs = true := by simp [rateOk, hfs, hpos]
  refine ⟨_, cfgIn_eq hf hrate hb0 hb hn0 hn ((coefsExist_iff ..).1 hk) (stepsOk_num32 hp hsteps), rfl, ?_, ?_, ?_, ?_⟩
  · simp [configure, configuredCircuits]
  · intro c hc
    rw [getCircuit_configure _ _ _ _ _ _ (by omega), if_pos hc]
    rfl
  · intro c hge hc
    rw [getCircuit_configure _ _ _ _ _ _ hc, if_neg (by omega)]
    exact ⟨rfl, rfl, ⟨rfl, rfl, rfl, rfl, rfl, rfl⟩, fun f => by cases f <;> rfl⟩
  · intro k
    rw [getSm_configure, smoothConfigure_eq _ _ _ _ hsteps]

/-! ### What does not move a smoother -/

/-- Settles O56: `cur` equals the target, so both ramp operations find nothing to do, and the length is that of the
present rate and window. -/
theorem smootherFixedPoint : Obligations.SmootherFixedPoint := by
  intro p q h hcnt hcur
  have hself : (num32 p).feq q.tgt q.tgt = true := by simp [feq32, isNaN32_of_finite h.tgt_finite]
  refine ⟨?_, ?_, ?_⟩
  · calc smoothNext (num32 p) q = { q with cur := q.tgt } := smoothNext_of_cnt_zero (by rw [hcnt]; rfl)
      _ = q := congrArg (fun v => { q with cur := v }) hcur.symm
  · rw [smoothSetTarget, if_pos hself]
  · calc smoothConfigure (num32 p) q.fs q.win q = smoothRamp (num32 p) q := by
          rw [smoothConfigure, num32_floorN, num32_fmul, ← h.length_eq]
      _ = { q with cnt := 0#32, step := 0#32 } := by
          rw [smoothRamp_eq, if_pos (.inr (by rw [hcur, hself])), num32_zero]
      _ = q := (congrArg₂ (fun n v => { q with cnt := n, step := v }) hcnt (h.landed hcnt)).symm

/-- Settles O57: `smooth_configure` keeps `cur` and `tgt`, and what faults writes no smoother. -/
theorem noJumpAcrossReconfiguration : Obligations.NoJumpAcrossReconfiguration := by
  intro i s t hi h k
  cases hf : isFaulted s with
  | true =>
    cases (exec_of_faulted i hf).symm.trans h
    exact ⟨rfl, rfl⟩
  | false =>
    cases i with
    | smcfg k' fs win =>
      obtain ⟨e, rfl⟩ | ⟨-, -, -, rfl⟩ := smcfgIn_cases hf h
      · simp
      · by_cases hk : k = k'
        · subst hk
          simp
        · simp [hk]
    | cfg fs blksz nch =>
      obtain ⟨e, rfl⟩ | ⟨-, -, -, -, -, -, b, -, rfl⟩ := cfgIn_cases hf h <;> simp
    | _ => simp [Instr.op] at hi

/-! ### Selectors -/

/-- The writes a command with selector `k` can make (rules R72 to R75). -/
inductive SmootherWrite (k : Knob) : (State → State) → Prop where
  | nothing : SmootherWrite k id
  | raised (e : Cause) (o : Op) : SmootherWrite k (raise e o.code 0#8 0#32)
  | result (v : Word) : SmootherWrite k fun s => setRes0 s v
  | smoother (q : Smoother Word) : SmootherWrite k fun s => setSm s k q
  | smootherResult (q : Smoother Word) (v : Word) : SmootherWrite k fun s => setRes0 (setSm s k q) v

section Write

variable {F : State → State}

/-- Such a write leaves the other smoothers alone. -/
theorem SmootherWrite.other (hF : SmootherWrite k F) (s : State) {k' : Knob} (hk : k' ≠ k) :
    getSm (F s) k' = getSm s k' := by
  cases hF <;> simp [hk]

/-- The same write on both sides leaves the same smoother `k`. -/
theorem SmootherWrite.same (hF : SmootherWrite k F) (h : getSm s' k = getSm s k) : getSm (F s') k = getSm (F s) k := by
  cases hF <;> simp [h]

/-- The same write on both sides leaves the same of everything but the smoothers. -/
theorem SmootherWrite.rest (hF : SmootherWrite k F) (h : s' = { s with sm := s'.sm }) :
    F s' = { F s with sm := (F s').sm } := by
  generalize s'.sm = m at h
  subst h
  cases hF with
  | smoother q => cases k <;> rfl
  | smootherResult q v => cases k <;> rfl
  | _ => rfl

end Write

/-- Two states that share `SM[k]` and all but the smoothers: a command with selector `k` makes one and the same write to
both, in the machine over any `NUM`. -/
theorem execIn_sameSmootherWrite {i : Instr}
    (hi : (∃ fs win, i = .smcfg k fs win) ∨ (∃ v, i = .smtgt k v) ∨ i = .smcur k ∨ i = .smnxt k)
    (hk : getSm s' k = getSm s k) (hrest : s' = { s with sm := s'.sm }) :
    ∃ F, SmootherWrite k F ∧ execIn N i s = .next (F s) ∧ execIn N i s' = .next (F s') := by
  have hfault : isFaulted s' = isFaulted s := by
    rw [hrest]
    rfl
  cases hf : isFaulted s with
  | true => exact ⟨id, .nothing, execIn_of_faulted i hf, execIn_of_faulted i (hfault.trans hf)⟩
  | false =>
    have hf' := hfault.trans hf
    obtain ⟨fs, win, rfl⟩ | ⟨v, rfl⟩ | rfl | rfl := hi
    · simp only [execIn, smcfgIn, unlessFaulted_of_running hf, unlessFaulted_of_running hf', hk]
      split
      · exact ⟨_, .raised _ _, rfl, rfl⟩
      · exact ⟨_, .smoother _, rfl, rfl⟩
    · simp only [execIn, smtgtIn, unlessFaulted_of_running hf, unlessFaulted_of_running hf', hk]
      split
      · exact ⟨_, .raised _ _, rfl, rfl⟩
      · exact ⟨_, .smoother _, rfl, rfl⟩
    · exact ⟨_, .result _, execSmcur_eq hf, hk ▸ execSmcur_eq hf'⟩
    · exact ⟨_, .smootherResult _ _, smnxtIn_eq hf, hk ▸ smnxtIn_eq hf'⟩

/-! ### The advances of a frame -/

/-- Smoothers that are the same one by one are the same. -/
theorem sm_ext (h : ∀ k, getSm t k = getSm s k) : t.sm = s.sm := by
  calc t.sm = ⟨getSm t .drive, getSm t .tone, getSm t .level⟩ := rfl
    _ = ⟨getSm s .drive, getSm s .tone, getSm s .level⟩ := by rw [h, h, h]
    _ = s.sm := rfl

/-- Advancing the smoothers of a list, none twice, advances those of the list and no other. -/
theorem getSm_foldl_setSm (f : Smoother Word → Smoother Word) (k : Knob) {l : List Knob} (hl : l.Nodup) (s : State) :
    getSm (l.foldl (fun u k => setSm u k (f (getSm u k))) s) k = if k ∈ l then f (getSm s k) else getSm s k := by
  induction l generalizing s with
  | nil => simp
  | cons j l ih =>
    obtain ⟨hj, hl⟩ := List.nodup_cons.1 hl
    rw [List.foldl_cons, ih hl]
    by_cases hk : k = j
    · subst hk
      simp [hj]
    · simp [hk]

/-- Each smoother at the start of a frame (spec/44_block.md rule R107 step 4). -/
theorem getSm_blkFrameStart (N : Num Word) (n : Nat) (s : State) (k : Knob) :
    getSm (blkFrameStart N n s) k = smoothNext N (getSm s k) := by
  cases k <;> rfl

/-- Settles O44: the two runs make the same write, which names `SM[k]` only; and in every order of the three advances
each smoother advances once. -/
theorem selectorsAreIndependent : Obligations.SelectorsAreIndependent := by
  refine ⟨fun i k s s' t t' hi hk hrest h h' => ?_, fun N n s a b c hperm => ?_⟩
  · have hpar : s'.par = s.par := by rw [hrest]
    rw [exec_eq_execIn] at h h'
    rw [hpar] at h'
    obtain ⟨F, hF, hr, hr'⟩ := execIn_sameSmootherWrite (N := num32 s.par) hi hk hrest
    cases hr.symm.trans h
    cases hr'.symm.trans h'
    exact ⟨fun k' hk' => hF.other s hk', hF.same hk, hF.rest hrest⟩
  · have hmem : ∀ k, k ∈ [a, b, c] := fun k => hperm.mem_iff.2 (by cases k <;> decide)
    refine sm_ext fun k => ?_
    rw [getSm_foldl_setSm _ k (hperm.nodup_iff.2 (by decide)), if_pos (hmem k), getSm_blkFrameStart]

end Sys2Proof.Machine
end

section
/-! PROOFS. The shape of a ramp in `NUM32` (spec/40_smoother.md rule R76 (b), (d)): `OnCourse` is what holds of a
smoother from the start of a ramp on, and each sample moves such a smoother toward its target, never past it. -/

namespace Sys2Proof.Machine

/-! ### One sample -/

section Sample

variable {F : Type} {N : Num F} {q : Smoother F}

/-- A sample lands, or it is an increment before the last one that does not pass the target (rule R75). -/
theorem smoothNext_cases (N : Num F) (q : Smoother F) :
    ((smoothNext N q).cur = q.tgt ∧ (smoothNext N q).cnt = 0#32 ∧
        ((smoothNext N q).step = q.step ∨ (smoothNext N q).step = N.zero)) ∨
      (1 < q.cnt.toNat ∧ passesTarget N q (N.fadd q.cur q.step) = false ∧
        smoothNext N q = { q with cur := N.fadd q.cur q.step, cnt := q.cnt - 1#32 }) := by
  obtain h0 | h1 | hlt : q.cnt.toNat = 0 ∨ q.cnt.toNat = 1 ∨ 1 < q.cnt.toNat := by omega
  · rw [smoothNext_of_cnt_zero h0]
    exact .inl ⟨rfl, BitVec.eq_of_toNat_eq h0, .inl rfl⟩
  · rw [smoothNext_of_cnt_one h1]
    exact .inl ⟨rfl, rfl, .inr rfl⟩
  · rw [smoothNext_of_one_lt_cnt hlt]
    split
    · exact .inl ⟨rfl, rfl, .inr rfl⟩
    · rename_i hp
      exact .inr ⟨hlt, by simpa using hp, rfl⟩

@[simp] theorem smoothNext_tgt (N : Num F) (q : Smoother F) : (smoothNext N q).tgt = q.tgt := by
  simp only [smoothNext]
  split_ifs <;> rfl

/-- The count goes down with each sample. -/
theorem smoothNext_cnt_le (N : Num F) (q : Smoother F) : (smoothNext N q).cnt.toNat ≤ q.cnt.toNat - 1 := by
  obtain ⟨-, hcnt, -⟩ | ⟨hlt, -, heq⟩ := smoothNext_cases N q
  · simp [hcnt]
  · rw [heq]
    bv_omega

theorem smoothNext_cur_of_cnt_le_one (h : q.cnt.toNat ≤ 1) : (smoothNext N q).cur = q.tgt := by
  obtain ⟨hcur, -, -⟩ | ⟨hlt, -, -⟩ := smoothNext_cases N q
  · exact hcur
  · omega

@[simp] theorem iterate_smoothNext_tgt (N : Num F) (q : Smoother F) (j : Nat) : ((smoothNext N)^[j] q).tgt = q.tgt := by
  induction j with
  | zero => rfl
  | succ j ih => rw [Function.iterate_succ_apply', smoothNext_tgt, ih]

theorem iterate_smoothNext_cnt_le (N : Num F) (q : Smoother F) (j : Nat) :
    ((smoothNext N)^[j] q).cnt.toNat ≤ q.cnt.toNat - j := by
  induction j with
  | zero => exact Nat.le_refl _
  | succ j ih =>
    have hle := smoothNext_cnt_le N ((smoothNext N)^[j] q)
    rw [Function.iterate_succ_apply']
    omega

end Sample

/-! ### Adding to a finite value -/

theorem natAbs_orderKey (a : Word) : (orderKey a).natAbs = magBits a := by
  rw [orderKey]
  split <;> simp

/-- Away from the zeros the place tells the sign. -/
theorem signBit_of_orderKey_ne_zero {a : Word} (h : orderKey a ≠ 0) : signBit a = decide (orderKey a < 0) := by
  rw [orderKey] at h ⊢
  split
  · rename_i hs
    rw [if_pos hs] at h
    rw [hs, decide_eq_true (by omega)]
  · rename_i hs
    rw [Bool.not_eq_true] at hs
    rw [hs, decide_eq_false (by omega)]

/-- Values other than the zeros are at different places. -/
theorem eq_of_orderKey_eq {a b : Word} (h : orderKey a = orderKey b) (h0 : orderKey a ≠ 0) : a = b := by
  refine packSign_inj ?_ ?_
  · rw [signBit_of_orderKey_ne_zero h0, signBit_of_orderKey_ne_zero (h ▸ h0), h]
  · rw [← natAbs_orderKey, ← natAbs_orderKey, h]

/-- A finite value plus an infinity is that infinity. -/
theorem fadd32_inf {a b : Word} (ha : isFinite32 a = true) (hb : isInf32 b = true) : fadd32 a b = b :=
  addCore_inf_right _ _ _ ha hb

/-- A sum at the place of its first operand, the second not a zero, is the first operand bit for bit: of the zeros,
where two patterns share a place, it is not. -/
theorem fadd32_eq_left {a b : Word} (ha : isFinite32 a = true) (hb : isNaN32 b = false) (h0 : orderKey b ≠ 0)
    (h : orderKey (fadd32 a b) = orderKey a) : fadd32 a b = a := by
  refine eq_of_orderKey_eq h fun hz => h0 ?_
  rw [h] at hz
  rw [← h.trans hz]
  rcases finite_or_inf hb with hf | hi
  · have ha0 : signedUnits a = 0 := by
      have hle := (signedUnits_nonneg_iff (a := a)).2 (by omega)
      have hge := (signedUnits_nonpos_iff (a := a)).2 (by omega)
      omega
    rw [orderKey_fadd32 ha hf, ha0, Int.zero_add, roundKey_signedUnits hb]
  · rw [fadd32_inf ha hi]

/-! ### A ramp on its course -/

/-- What holds of a smoother from the start of a ramp on: an increment of 0 never brings `cur` to the place of the
target, so that there, with samples to come, the increment is not 0. -/
structure OnCourse (q : Smoother Word) : Prop where
  cur_finite : isFinite32 q.cur = true
  tgt_finite : isFinite32 q.tgt = true
  toward : rampTowardTarget q
  moving : q.cnt = 0#32 ∨ orderKey q.step ≠ 0 ∨ orderKey q.cur ≠ orderKey q.tgt

variable {p : Params} {q : Smoother Word}

theorem OnCourse.step_notNaN (h : OnCourse q) : isNaN32 q.step = false := h.toward.1

theorem OnCourse.moving_of_one_lt_cnt (h : OnCourse q) (hcnt : 1 < q.cnt.toNat) :
    orderKey q.step ≠ 0 ∨ orderKey q.cur ≠ orderKey q.tgt :=
  h.moving.resolve_left fun h0 => by simp [h0] at hcnt

/-- A landed smoother is on its course. -/
theorem OnCourse.of_landed (hcur : q.cur = q.tgt) (ht : isFinite32 q.tgt = true) (hcnt : q.cnt = 0#32)
    (hs : isNaN32 q.step = false) : OnCourse q where
  cur_finite := hcur ▸ ht
  tgt_finite := ht
  toward := (rampTowardTarget_iff (hcur ▸ ht) ht).2 ⟨hs, fun _ => by rw [hcur], fun _ => by rw [hcur]⟩
  moving := .inl hcnt

/-- An increment that does not pass the target leads to a place between `cur` and the target. -/
theorem OnCourse.increment_mem (h : OnCourse q) (hp : passesTarget (num32 p) q (fadd32 q.cur q.step) = false) :
    orderKey (fadd32 q.cur q.step) ∈ Set.uIcc (orderKey q.cur) (orderKey q.tgt) := by
  obtain ⟨hnan, hup, hdown⟩ := (rampTowardTarget_iff h.cur_finite h.tgt_finite).1 h.toward
  have hge := orderKey_le_fadd32 h.cur_finite hnan
  have hle := fadd32_le_orderKey h.cur_finite hnan
  rw [← Bool.not_eq_true, passesTarget_iff hnan (isNaN32_of_finite h.tgt_finite)
    (isNaN32_fadd32 h.cur_finite hnan)] at hp
  rw [Set.mem_uIcc]
  omega

/-- Such an increment, with samples to come, keeps the smoother on its course. -/
theorem OnCourse.increment (h : OnCourse q) (hcnt : 1 < q.cnt.toNat)
    (hp : passesTarget (num32 p) q (fadd32 q.cur q.step) = false) :
    OnCourse { q with cur := fadd32 q.cur q.step, cnt := q.cnt - 1#32 } := by
  obtain ⟨hnan, hup, hdown⟩ := (rampTowardTarget_iff h.cur_finite h.tgt_finite).1 h.toward
  have hmem := Set.mem_uIcc.1 (h.increment_mem hp)
  have hfin : isFinite32 (fadd32 q.cur q.step) = true := by
    have hcf := (isFinite32_iff_orderKey q.cur).1 h.cur_finite
    have htf := (isFinite32_iff_orderKey q.tgt).1 h.tgt_finite
    rw [isFinite32_iff_orderKey]
    omega
  have htoward : rampTowardTarget { q with cur := fadd32 q.cur q.step, cnt := q.cnt - 1#32 } := by
    refine (rampTowardTarget_iff ?_ ?_).2 ⟨hnan, ?_, ?_⟩ <;> dsimp only
    · exact hfin
    · exact h.tgt_finite
    · omega
    · omega
  have hmoving : orderKey q.step ≠ 0 ∨ orderKey (fadd32 q.cur q.step) ≠ orderKey q.tgt := by
    have hge := orderKey_le_fadd32 h.cur_finite hnan
    have hle := fadd32_le_orderKey h.cur_finite hnan
    have hwas := h.moving_of_one_lt_cnt hcnt
    omega
  exact ⟨hfin, h.tgt_finite, htoward, .inr hmoving⟩

/-- At the target such an increment stays there, bit for bit. -/
theorem OnCourse.increment_of_arrived (h : OnCourse q) (hcnt : 1 < q.cnt.toNat)
    (hp : passesTarget (num32 p) q (fadd32 q.cur q.step) = false) (hcur : q.cur = q.tgt) :
    fadd32 q.cur q.step = q.cur := by
  have hmem := h.increment_mem hp
  rw [← hcur, Set.uIcc_self, Set.mem_singleton_iff] at hmem
  have hstep : orderKey q.step ≠ 0 := (h.moving_of_one_lt_cnt hcnt).resolve_right (by simp [hcur])
  exact fadd32_eq_left h.cur_finite h.step_notNaN hstep hmem

/-- One sample of a ramp on its course: it stays on it, goes to a place between `cur` and the target, and does not leave
the target. -/
theorem OnCourse.next (h : OnCourse q) : OnCourse (smoothNext (num32 p) q) ∧
    orderKey (smoothNext (num32 p) q).cur ∈ Set.uIcc (orderKey q.cur) (orderKey q.tgt) ∧
    (q.cur = q.tgt → (smoothNext (num32 p) q).cur = q.tgt) := by
  obtain ⟨hcur, hcnt, hstep⟩ | ⟨hlt, hp, heq⟩ := smoothNext_cases (num32 p) q
  · have hnan : isNaN32 (smoothNext (num32 p) q).step = false := by
      rcases hstep with hs | hs <;> rw [hs]
      · exact h.step_notNaN
      · rfl
    refine ⟨.of_landed (by rw [hcur, smoothNext_tgt]) ((smoothNext_tgt ..).symm ▸ h.tgt_finite) hcnt hnan, ?_,
      fun _ => hcur⟩
    rw [hcur]
    exact Set.right_mem_uIcc
  · rw [heq]
    exact ⟨h.increment hlt hp, h.increment_mem hp, fun hc => (h.increment_of_arrived hlt hp hc).trans hc⟩

theorem OnCourse.iterate (h : OnCourse q) (j : Nat) : OnCourse ((smoothNext (num32 p))^[j] q) := by
  induction j with
  | zero => exact h
  | succ j ih =>
    rw [Function.iterate_succ_apply']
    exact ih.next.1

/-- Sample `j + 1` of a ramp lies between sample `j` and the target. -/
theorem OnCourse.iterate_mem (h : OnCourse q) (j : Nat) : orderKey ((smoothNext (num32 p))^[j + 1] q).cur ∈
    Set.uIcc (orderKey ((smoothNext (num32 p))^[j] q).cur) (orderKey q.tgt) := by
  have hmem := (h.iterate (p := p) j).next (p := p) |>.2.1
  rwa [iterate_smoothNext_tgt, ← Function.iterate_succ_apply' (smoothNext (num32 p))] at hmem

/-- Every sample of a ramp lies between its start and its target. -/
theorem OnCourse.iterate_mem_start (h : OnCourse q) (j : Nat) :
    orderKey ((smoothNext (num32 p))^[j] q).cur ∈ Set.uIcc (orderKey q.cur) (orderKey q.tgt) := by
  induction j with
  | zero => exact Set.left_mem_uIcc
  | succ j ih => exact Set.uIcc_subset_uIcc_right ih (h.iterate_mem j)

theorem OnCourse.iterate_notNaN (h : OnCourse q) (j : Nat) : isNaN32 ((smoothNext (num32 p))^[j] q).cur = false :=
  isNaN32_of_finite (h.iterate j).cur_finite

/-- A ramp that starts below its target rises, and stays at or below it. -/
theorem OnCourse.rises (h : OnCourse q) (hup : flt32 q.cur q.tgt = true) (j : Nat) :
    fle32 ((smoothNext (num32 p))^[j] q).cur ((smoothNext (num32 p))^[j + 1] q).cur = true ∧
      fle32 ((smoothNext (num32 p))^[j] q).cur q.tgt = true := by
  have htnan := isNaN32_of_finite h.tgt_finite
  have hstart := Set.mem_uIcc.1 (h.iterate_mem_start (p := p) j)
  have hnext := Set.mem_uIcc.1 (h.iterate_mem (p := p) j)
  rw [flt32_iff (isNaN32_of_finite h.cur_finite) htnan] at hup
  rw [fle32_iff (h.iterate_notNaN j) (h.iterate_notNaN (j + 1)), fle32_iff (h.iterate_notNaN j) htnan]
  omega

/-- A ramp that starts above its target falls, and stays at or above it. -/
theorem OnCourse.falls (h : OnCourse q) (hdown : flt32 q.tgt q.cur = true) (j : Nat) :
    fle32 ((smoothNext (num32 p))^[j + 1] q).cur ((smoothNext (num32 p))^[j] q).cur = true ∧
      fle32 q.tgt ((smoothNext (num32 p))^[j] q).cur = true := by
  have htnan := isNaN32_of_finite h.tgt_finite
  have hstart := Set.mem_uIcc.1 (h.iterate_mem_start (p := p) j)
  have hnext := Set.mem_uIcc.1 (h.iterate_mem (p := p) j)
  rw [flt32_iff htnan (isNaN32_of_finite h.cur_finite)] at hdown
  rw [fle32_iff (h.iterate_notNaN (j + 1)) (h.iterate_notNaN j), fle32_iff htnan (h.iterate_notNaN j)]
  omega

/-- Once at the target, a ramp stays there. -/
theorem OnCourse.iterate_stays (h : OnCourse q) {i j : Nat} (hij : j ≤ i)
    (hj : ((smoothNext (num32 p))^[j] q).cur = q.tgt) : ((smoothNext (num32 p))^[i] q).cur = q.tgt := by
  induction i, hij using Nat.le_induction with
  | base => exact hj
  | succ i _ ih =>
    have hstay := (h.iterate (p := p) i).next (p := p) |>.2.2
    rw [iterate_smoothNext_tgt] at hstay
    rw [Function.iterate_succ_apply', hstay ih]

/-- A ramp lands when its count has run out. -/
theorem OnCourse.iterate_lands (h : OnCourse q) {j : Nat} (hpos : 1 ≤ q.cnt.toNat) (hj : q.cnt.toNat ≤ j) :
    ((smoothNext (num32 p))^[j] q).cur = q.tgt := by
  obtain ⟨m, hm⟩ := Nat.exists_eq_add_of_le' hpos
  have hlast : ((smoothNext (num32 p))^[m + 1] q).cur = q.tgt := by
    have hcnt := iterate_smoothNext_cnt_le (num32 p) q m
    rw [Function.iterate_succ_apply', smoothNext_cur_of_cnt_le_one (by omega), iterate_smoothNext_tgt]
  exact h.iterate_stays (by omega) hlast

/-! ### A fresh ramp -/

/-- A ramp to another value, of one sample or more (rule R71). -/
theorem smoothRamp_of_ne (hne : feq32 q.cur q.tgt = false) (hn : 1 ≤ q.nsteps.toNat) : smoothRamp (num32 p) q =
    { q with cnt := q.nsteps, step := fdiv32 (fsub32 q.tgt q.cur) (u2f32 q.nsteps.toNat) } := by
  rw [smoothRamp_eq, if_neg (by simp [hne]; omega)]
  rfl

theorem onCourse_ramp (hc : isFinite32 q.cur = true) (ht : isFinite32 q.tgt = true) (hne : feq32 q.cur q.tgt = false)
    (hn : 1 ≤ q.nsteps.toNat) : OnCourse (smoothRamp (num32 p) q) := by
  rw [smoothRamp_of_ne hne hn]
  have hkey : orderKey q.cur ≠ orderKey q.tgt := by
    simpa [feq32, isNaN32_of_finite hc, isNaN32_of_finite ht] using hne
  exact ⟨hc, ht, rampTowardTarget_increment hn q.nsteps.isLt hc ht rfl, .inr (.inr hkey)⟩

/-- With an infinite increment the next sample lands (rule R76 (d)). -/
theorem smoothNext_cur_of_step_inf (hc : isFinite32 q.cur = true) (ht : isFinite32 q.tgt = true)
    (hs : isInf32 q.step = true) : (smoothNext (num32 p) q).cur = q.tgt := by
  obtain ⟨hcur, -, -⟩ | ⟨-, hp, -⟩ := smoothNext_cases (num32 p) q
  · exact hcur
  · have hnan := isNaN32_of_inf hs
    have htf := (isFinite32_iff_orderKey q.tgt).1 ht
    have hkey : orderKey q.step = infMag ∨ orderKey q.step = -(infMag : Int) := by
      rw [isInf32, decide_eq_true_eq] at hs
      rw [orderKey, hs]
      split <;> simp
    have hinf : (0 : Int) < infMag := by decide
    rw [num32_fadd, fadd32_inf hc hs, ← Bool.not_eq_true, passesTarget_iff hnan (isNaN32_of_finite ht) hnan] at hp
    omega

/-- A difference that overflows gives an infinite increment. -/
theorem isInf32_smoothRamp_step (hc : isFinite32 q.cur = true) (ht : isFinite32 q.tgt = true)
    (hne : feq32 q.cur q.tgt = false) (hn : 1 ≤ q.nsteps.toNat) (ho : isFinite32 (fsub32 q.tgt q.cur) = false) :
    isInf32 (smoothRamp (num32 p) q).step = true := by
  have hinf : isInf32 (fsub32 q.tgt q.cur) = true :=
    (finite_or_inf (isNaN32_fsub32 ht hc)).resolve_left (by simp [ho])
  rw [smoothRamp_of_ne hne hn]
  exact fdiv32_inf_left hinf (u2f32_of_lt hn q.nsteps.isLt).1

/-- Settles O55: a fresh ramp is on its course; the clauses are what each sample of such a ramp does. -/
theorem smootherMonotone : Obligations.SmootherMonotone := by
  intro p q hc ht hne hn
  have hcourse := onCourse_ramp (p := p) hc ht hne hn
  have hcnt : (smoothRamp (num32 p) q).cnt = q.nsteps := by rw [smoothRamp_of_ne hne hn]
  have hcur := smoothRamp_cur (num32 p) q
  have htgt := smoothRamp_tgt (num32 p) q
  refine ⟨hcur, fun hup => htgt ▸ hcourse.rises (by rwa [hcur, htgt]),
    fun hdown => htgt ▸ hcourse.falls (by rwa [hcur, htgt]),
    fun j hj => htgt ▸ hcourse.iterate_lands (hcnt ▸ hn) (hcnt ▸ hj),
    fun i j hij hj => htgt ▸ hcourse.iterate_stays hij (hj.trans htgt.symm), fun ho => htgt ▸ ?_⟩
  exact smoothNext_cur_of_step_inf hcourse.cur_finite hcourse.tgt_finite (isInf32_smoothRamp_step hc ht hne hn ho)

end Sys2Proof.Machine
end

section
/-! PROOFS. The filter stage (spec/41_filter.md): its two commands with their checks passed (rules R83, R84), the shape of
every coefficient set (rule R85), and what a filter does to zeros (rule R86). Positive finite values, `PosFinite`, are
those that the checks of rule R81 let pass; on them the operations of `NUM32` are rounded operations on magnitudes. -/

namespace Sys2Proof.Machine

/-! ### The commands, their checks passed -/

section Commands

variable {s : State}

theorem execCoef_eq {kind : FilterKind} {fs fc : Word} (hf : isFaulted s = false)
    (h : firstFailure (coefChecks s.par fs fc) = none) :
    execCoef kind fs fc s = .next (setRes s (coefValue s.par kind fs fc)) := by
  simp only [execCoef, coefIn, unlessFaulted_of_running hf, asF, coef_eq_checks, h]

theorem fappIn_eq {N : Num Word} {c : Byte} {f : FilterIx} {x : Word} (hf : isFaulted s = false)
    (hc : c.toNat < s.par.nchMax) (hr : (getCircuit s c.toNat).rdy = true) (hx : N.isfinite x = true) :
    fappIn N c f x s = .next
      (setRes0 (setCircuit s c.toNat (setFilter (getCircuit s c.toNat) f (filtStep N (getFilter (getCircuit s c.toNat) f) x)))
        (filtOut N (getFilter (getCircuit s c.toNat) f) x)) := by
  simp only [fappIn, unlessFaulted_of_running hf, asF, bitsF, firstFailure, hc, hr, hx, decide_true, if_true, filtStep_y1]

/-- A number with no circuit reads as an Unprepared one, so a Ready circuit exists. -/
theorem lt_length_of_rdy {c : Nat} (h : (getCircuit s c).rdy = true) : c < s.cir.length := by
  by_contra hc
  rw [getCircuit, List.getD_eq_default _ _ (by omega)] at h
  exact absurd h (by decide)

end Commands

/-- Settles O22: the checks pass, and what is left is the write of the three results. -/
theorem coefResult : Obligations.CoefResult := fun _ _ _ _ hf h => execCoef_eq hf h

/-- Settles O23: the command is one write of one circuit, in which one filter is written, and one of `RES[0]`. -/
theorem fappResult : Obligations.FappResult := by
  intro c f x s hf hc hr hx q y
  have hsame := getCircuit_setCircuit_same (setFilter (getCircuit s c.toNat) f (filtStep (num32 s.par) q x))
    (lt_length_of_rdy hr)
  refine ⟨_, fappIn_eq (N := num32 s.par) hf hc hr hx, rfl, rfl, ?_, fun f' hf' => ?_, ?_, ?_, fun c' hc' => ?_⟩
  · rw [getCircuit_setRes0, hsame, getFilter_setFilter_same]
    rfl
  · rw [getCircuit_setRes0, hsame, getFilter_setFilter_other _ _ hf']
  · rw [getCircuit_setRes0, hsame, setFilter_rdy, hr]
  · rw [getCircuit_setRes0, hsame, setFilter_fs]
  · rw [getCircuit_setRes0, getCircuit_setCircuit_other _ _ hc']

/-! ### Positive finite values -/

/-- Finite and above 0: what checks (1), (2), (4) of rule R81 ask. -/
structure PosFinite (a : Word) : Prop where
  sign : signBit a = false
  pos : 0 < magBits a
  lt : magBits a < infMag

section Positive

variable {a b : Word}

theorem PosFinite.finite (h : PosFinite a) : isFinite32 a = true := (isFinite32_iff a).2 h.lt

theorem PosFinite.orderKey_eq (h : PosFinite a) : orderKey a = magBits a := by simp [orderKey, h.sign]

theorem PosFinite.signedUnits_eq (h : PosFinite a) : signedUnits a = units a := by simp [signedUnits, h.sign]

theorem PosFinite.units_pos (h : PosFinite a) : 0 < units a :=
  Nat.pos_of_ne_zero fun h0 => h.pos.ne' ((units_eq_zero_iff a).1 h0)

theorem PosFinite.units_lt (h : PosFinite a) : units a < 2 ^ 24 * 2 ^ 253 := by
  have hlt := magUnits_strictMono h.lt
  rwa [show magUnits infMag = 2 ^ 24 * 2 ^ 253 by decide] at hlt

theorem posFinite_iff : PosFinite a ↔ isFinite32 a = true ∧ flt32 0#32 a = true := by
  constructor
  · intro h
    refine ⟨h.finite, (flt32_iff (by decide) (isNaN32_of_finite h.finite)).2 ?_⟩
    rw [h.orderKey_eq]
    exact Int.ofNat_lt.2 h.pos
  · rintro ⟨hf, hpos⟩
    rw [flt32_iff (by decide) (isNaN32_of_finite hf), show orderKey 0#32 = 0 by decide] at hpos
    have hs : signBit a = false := by rw [signBit_of_orderKey_ne_zero hpos.ne', decide_eq_false hpos.not_gt]
    refine ⟨hs, ?_, (isFinite32_iff a).1 hf⟩
    simpa [orderKey, hs] using hpos

theorem posFinite_one : PosFinite 0x3F800000#32 := ⟨by decide, by decide, by decide⟩

theorem units_one : units 0x3F800000#32 = 2 ^ 149 := by decide

/-- A whole number of units below the overflow threshold rounds to a finite magnitude. -/
theorem roundMag_lt_infMag {num : Nat} (h : num < overflowUnits) : roundMag num 1 < infMag := by
  rw [roundMag_eq_min, min_lt_iff]
  exact .inl ((roundPattern_lt_infMag_iff num Nat.one_pos).2 (by rwa [Nat.mul_one]))

/-- The sum of positive values, as a magnitude. -/
theorem fadd32_of_posFinite (ha : PosFinite a) (hb : PosFinite b) :
    fadd32 a b = packSign false (roundMag (units a + units b) 1) := by
  have hpos := ha.units_pos
  have hsum : signedUnits a + signedUnits b = ((units a + units b : Nat) : Int) := by
    rw [ha.signedUnits_eq, hb.signedUnits_eq, Nat.cast_add]
  rw [fadd32, addCore_of_finite _ _ _ ha.finite hb.finite, hsum, Int.natAbs_natCast, if_neg (by omega),
    decide_eq_false (by omega)]

/-- The product of positive values, as a magnitude. -/
theorem fmul32_of_posFinite (ha : PosFinite a) (hb : PosFinite b) :
    fmul32 a b = packSign false (roundMag (units a * units b) (2 ^ 149)) := by
  rw [fmul32_of_finite ha.finite hb.finite, ha.sign, hb.sign, bne_self_eq_false]

/-- The quotient of positive values, as a magnitude. -/
theorem fdiv32_of_posFinite (ha : PosFinite a) (hb : PosFinite b) :
    fdiv32 a b = packSign false (roundMag (units a * 2 ^ 149) (units b)) := by
  rw [fdiv32_of_finite ha.finite hb.finite hb.pos.ne', ha.sign, hb.sign, bne_self_eq_false]

theorem posFinite_packSign {m : Nat} (hpos : 0 < m) (hlt : m < infMag) : PosFinite (packSign false m) := by
  have h31 : m < 2 ^ 31 := hlt.trans (by decide)
  exact ⟨signBit_packSign h31, by rwa [magBits_packSign h31], by rwa [magBits_packSign h31]⟩

/-- A quotient that is at most 1 and at least the least positive value is positive and finite. -/
theorem posFinite_fdiv32 (ha : PosFinite a) (hb : PosFinite b) (hle : units a ≤ units b)
    (hge : units b ≤ units a * 2 ^ 149) : PosFinite (fdiv32 a b) := by
  rw [fdiv32_of_posFinite ha hb]
  have hlo : 1 ≤ roundMag (units a * 2 ^ 149) (units b) :=
    le_roundMag_of_le (by decide) hb.units_pos (by rwa [show magUnits 1 = 1 by decide, Nat.one_mul])
  have hhi : roundMag (units a * 2 ^ 149) (units b) ≤ oneMag := by
    refine roundMag_le_of_le (by decide) hb.units_pos ?_
    rw [show magUnits oneMag = 2 ^ 149 by decide, Nat.mul_comm (2 ^ 149)]
    exact Nat.mul_le_mul_right _ hle
  exact posFinite_packSign hlo (lt_of_le_of_lt hhi (by decide))

end Positive

/-! ### The coefficient set -/

section Coefs

variable {p : Params} {kind : FilterKind} {fs fc n : Word} {k : Coefs Word}

theorem units_fadd32_one (hn : PosFinite n) :
    units (fadd32 n 0x3F800000#32) = magUnits (roundMag (units n + 2 ^ 149) 1) := by
  rw [fadd32_of_posFinite hn posFinite_one, units_one, units, magBits_packSign (roundMag_lt ..)]

/-- The denominator `n + 1` of rule R81 is finite, not below `n` and not below 1. -/
theorem denominator_bounds (hn : PosFinite n) :
    PosFinite (fadd32 n 0x3F800000#32) ∧ units n ≤ units (fadd32 n 0x3F800000#32) ∧
      2 ^ 149 ≤ units (fadd32 n 0x3F800000#32) := by
  have hlt : roundMag (units n + 2 ^ 149) 1 < infMag := by
    have hmax : units n ≤ magUnits (infMag - 1) := magUnits_strictMono.monotone (Nat.le_sub_one_of_lt hn.lt)
    rw [show magUnits (infMag - 1) = (2 ^ 24 - 1) * 2 ^ 253 by decide] at hmax
    exact roundMag_lt_infMag (by rw [overflowUnits]; omega)
  have hle : ∀ m, m ≤ infMag → magUnits m ≤ units n + 2 ^ 149 → m ≤ roundMag (units n + 2 ^ 149) 1 :=
    fun m hm h => le_roundMag_of_le hm Nat.one_pos (by omega)
  have hn' := hle (magBits n) hn.lt.le (Nat.le_add_right _ _)
  have hone := hle oneMag (by decide) (by rw [show magUnits oneMag = 2 ^ 149 by decide]; omega)
  rw [units_fadd32_one hn, fadd32_of_posFinite hn posFinite_one, units_one]
  refine ⟨posFinite_packSign (lt_of_lt_of_le (by decide) hone) hlt, magUnits_strictMono.monotone hn', ?_⟩
  exact (show magUnits oneMag = 2 ^ 149 by decide) ▸ magUnits_strictMono.monotone hone

/-- `n / (n + 1)` does not round to 0, not even for the least positive `n`: there `n + 1` rounds to 1. -/
theorem denominator_le (hn : PosFinite n) : units (fadd32 n 0x3F800000#32) ≤ units n * 2 ^ 149 := by
  have hd := (denominator_bounds hn).1.units_lt
  have hpos := hn.units_pos
  rcases Nat.lt_or_ge (2 ^ 149) (units n) with hbig | hsmall
  · omega
  rw [units_fadd32_one hn]
  rcases Nat.lt_or_ge 1 (units n) with htwo | hone
  · have hle : roundMag (units n + 2 ^ 149) 1 ≤ 0x40000000 :=
      roundMag_le_of_le (by decide) Nat.one_pos (by rw [show magUnits 0x40000000 = 2 ^ 150 by decide]; omega)
    have hunits := magUnits_strictMono.monotone hle
    rw [show magUnits 0x40000000 = 2 ^ 150 by decide] at hunits
    omega
  · rw [show units n = 1 by omega]
    decide

/-- The leading coefficient of rule R81 is positive and finite, of a low-pass as of a high-pass. -/
theorem posFinite_coefSet_b0 (p : Params) (kind : FilterKind) (hn : PosFinite n) :
    PosFinite (coefSet (num32 p) kind n).b0 := by
  obtain ⟨hd, hnd, honed⟩ := denominator_bounds hn
  cases kind with
  | highPass =>
    refine posFinite_fdiv32 posFinite_one hd (units_one ▸ honed) ?_
    have := hd.units_lt
    rw [num32_c1, units_one, num32_fadd]
    omega
  | lowPass => exact posFinite_fdiv32 hn hd hnd (denominator_le hn)

/-- The tangent behind a coefficient set passed checks (4) and (5). -/
theorem coef_num32_eq_ok (h : coef (num32 p) kind fs fc = .ok k) :
    ∃ n, PosFinite n ∧ k = coefSet (num32 p) kind n ∧
      flt32 0xBF800000#32 k.a1 = true ∧ flt32 k.a1 0x3F800000#32 = true := by
  obtain ⟨-, -, -, htan, hinside, rfl⟩ := (coef_eq_ok_iff ..).1 h
  have ha1 : ∀ n, (coefSet (num32 p) kind n).a1 = coefFeedback (num32 p) n := fun n => by cases kind <;> rfl
  rw [Bool.and_eq_true] at htan
  rw [insideUnit, Bool.and_eq_true, num32_c1, num32_fneg, show fneg32 0x3F800000#32 = 0xBF800000#32 by decide] at hinside
  exact ⟨_, posFinite_iff.2 htan, rfl, ha1 _ ▸ hinside.1, ha1 _ ▸ hinside.2⟩

theorem coef_posFinite_b0 (h : coef (num32 p) kind fs fc = .ok k) : PosFinite k.b0 := by
  obtain ⟨n, hn, rfl, -⟩ := coef_num32_eq_ok h
  exact posFinite_coefSet_b0 p kind hn

/-- The second coefficient is the first, its sign inverted in a high-pass. -/
theorem coefSet_b1 (p : Params) (kind : FilterKind) (n : Word) :
    (coefSet (num32 p) kind n).b1 =
      (match kind with | .highPass => fneg32 (coefSet (num32 p) kind n).b0 | .lowPass => (coefSet (num32 p) kind n).b0) := by
  cases kind <;> rfl

/-- All three coefficients of a set are finite. -/
theorem coef_finite (h : coef (num32 p) kind fs fc = .ok k) :
    isFinite32 k.b0 = true ∧ isFinite32 k.b1 = true ∧ isFinite32 k.a1 = true := by
  have hb0 := (coef_posFinite_b0 h).finite
  obtain ⟨n, -, rfl, hlo, hhi⟩ := coef_num32_eq_ok h
  refine ⟨hb0, ?_, ?_⟩
  · rw [coefSet_b1]
    cases kind with
    | highPass => exact (isFinite32_fneg32 _).trans hb0
    | lowPass => exact hb0
  · rw [flt32_iff (notNaN_of_flt32 hlo).1 (notNaN_of_flt32 hlo).2, show orderKey 0xBF800000#32 = -0x3F800000 by decide] at hlo
    rw [flt32_iff (notNaN_of_flt32 hhi).1 (notNaN_of_flt32 hhi).2, show orderKey 0x3F800000#32 = 0x3F800000 by decide] at hhi
    rw [isFinite32_iff_orderKey, infMag]
    omega

/-- Settles O51: check (5) is the first two clauses, the others are the shape of `coefSet` at a positive tangent. -/
theorem coefShape : Obligations.CoefShape := by
  intro p kind fs fc k h
  obtain ⟨hfin, hpos⟩ := posFinite_iff.1 (coef_posFinite_b0 h)
  obtain ⟨n, -, rfl, hlo, hhi⟩ := coef_num32_eq_ok h
  exact ⟨hlo, hhi, hfin, hpos, (coefSet_b1 p kind n).trans (by cases kind <;> rfl)⟩

end Coefs

/-! ### Zeros -/

section Zeros

variable {a b : Word}

theorem isFinite32_of_zero (h : magBits a = 0) : isFinite32 a = true := by
  rw [isFinite32_iff, h]
  decide

theorem signedUnits_of_zero (h : magBits a = 0) : signedUnits a = 0 := by
  rw [signedUnits, (units_eq_zero_iff a).2 h]
  simp

/-- A finite value times a zero is a zero, its sign the exclusive-or of the signs. -/
theorem fmul32_zero (ha : isFinite32 a = true) (hb : magBits b = 0) :
    fmul32 a b = packSign (signBit a != signBit b) 0 := by
  rw [fmul32_of_finite ha (isFinite32_of_zero hb), (units_eq_zero_iff b).2 hb, Nat.mul_zero, roundMag_zero]

theorem magBits_fmul32_zero (ha : isFinite32 a = true) (hb : magBits b = 0) : magBits (fmul32 a b) = 0 := by
  rw [fmul32_zero ha hb, magBits_packSign (by decide)]

/-- The sum of two zeros: `-0` only when both are. -/
theorem addCore_zero_zero (op : ArithOp) (x y : Word) (ha : magBits a = 0) (hb : magBits b = 0) :
    addCore op x y a b = if signBit a && signBit b then 0x80000000#32 else 0#32 :=
  addCore_of_sum_zero op x y (isFinite32_of_zero ha) (isFinite32_of_zero hb)
    (by rw [signedUnits_of_zero ha, signedUnits_of_zero hb, Int.add_zero])

theorem magBits_addCore_zero_zero (op : ArithOp) (x y : Word) (ha : magBits a = 0) (hb : magBits b = 0) :
    magBits (addCore op x y a b) = 0 := by
  rw [addCore_zero_zero op x y ha hb]
  split <;> decide

/-- A zero added to `+0` or taken from it leaves `+0`. -/
theorem fadd32_zero_left (hb : magBits b = 0) : fadd32 0#32 b = 0#32 :=
  (addCore_zero_zero .add _ _ (by decide) hb).trans (by simp [show signBit 0#32 = false by decide])

theorem fsub32_zero_left (hb : magBits b = 0) : fsub32 0#32 b = 0#32 :=
  (addCore_zero_zero .sub _ _ (by decide) ((magBits_fneg32 b).trans hb)).trans
    (by simp [show signBit 0#32 = false by decide])

/-- A filter with finite coefficients answers zeros with a zero. -/
theorem magBits_filtOut_zero {p : Params} {q : FilterRegs Word} {x : Word} (hb0 : isFinite32 q.coefs.b0 = true)
    (hb1 : isFinite32 q.coefs.b1 = true) (ha1 : isFinite32 q.coefs.a1 = true) (hx1 : magBits q.x1 = 0)
    (hy1 : magBits q.y1 = 0) (hx : magBits x = 0) : magBits (filtOut (num32 p) q x) = 0 := by
  have hsum : magBits (fadd32 (fmul32 q.coefs.b0 x) (fmul32 q.coefs.b1 q.x1)) = 0 :=
    magBits_addCore_zero_zero _ _ _ (magBits_fmul32_zero hb0 hx) (magBits_fmul32_zero hb1 hx1)
  exact magBits_addCore_zero_zero _ _ _ hsum ((magBits_fneg32 _).trans (magBits_fmul32_zero ha1 hy1))

/-- Silence is the fixed point of a filter that `coef` designed: the first product is `+0`, so the signs of the other two
do not matter. -/
theorem filtStep_silent {p : Params} {q : FilterRegs Word} {kind : FilterKind} {fs fc : Word}
    (h : coef (num32 p) kind fs fc = .ok q.coefs) (hx1 : q.x1 = 0#32) (hy1 : q.y1 = 0#32) :
    filtStep (num32 p) q 0#32 = q := by
  obtain ⟨hb0, hb1, ha1⟩ := coef_finite h
  have hz : magBits 0#32 = 0 := by decide
  have hfirst : fmul32 q.coefs.b0 0#32 = 0#32 := by
    rw [fmul32_zero hb0 hz, (coef_posFinite_b0 h).sign]
    decide
  have hout : filtOut (num32 p) q 0#32 = 0#32 := by
    rw [filtOut, hx1, hy1]
    simp only [num32_fmul, num32_fadd, num32_fsub]
    rw [hfirst, fadd32_zero_left (magBits_fmul32_zero hb1 hz), fsub32_zero_left (magBits_fmul32_zero ha1 hz)]
  rw [filtStep, hout]
  nth_rw 1 [← hx1]
  rw [← hy1]

end Zeros

/-- Settles O52: zeros pass through the three products and two sums; the set of `coef` makes the first product `+0`. -/
theorem filterZeroPreservation : Obligations.FilterZeroPreservation :=
  ⟨fun _ _ _ hb0 hb1 ha1 hx1 hy1 hx =>
    have hout := magBits_filtOut_zero hb0 hb1 ha1 hx1 hy1 hx
    ⟨hout, hx, hout⟩, fun _ _ _ _ _ h hx1 hy1 => filtStep_silent h hx1 hy1⟩

end Sys2Proof.Machine
end

section
/-! PROOFS. Where the coefficient design does not degenerate (spec/41_filter.md rule R81, last sentence; log 7): over the
rates from 10001 Hz to 1e6 Hz and a circuit's cutoffs the operations of rule R81 are monotone, so the checks and the angle
need evaluating at the ends only. `TAN_CR` gives tangents from 2^-22 to 2^22 there, and these pass checks (4) and (5). A block
at such rates completes (spec/44_block.md rule R107). -/

namespace Sys2Proof.Machine

/-! ### Operations that keep the order -/

section Monotone

variable {a a' b b' lo hi : Word}

/-- Between positive finite values lie positive finite values, in the order of their magnitudes. -/
theorem posFinite_of_between (hlo : PosFinite lo) (hhi : PosFinite hi) (h1 : fle32 lo a = true) (h2 : fle32 a hi = true) :
    PosFinite a ∧ magBits lo ≤ magBits a ∧ magBits a ≤ magBits hi := by
  obtain ⟨hn1, hn⟩ := notNaN_of_fle32 h1
  rw [fle32_iff hn1 hn, hlo.orderKey_eq] at h1
  rw [fle32_iff hn (notNaN_of_fle32 h2).2, hhi.orderKey_eq] at h2
  have hpos := hlo.pos
  have hs : signBit a = false := by rw [signBit_of_orderKey_ne_zero (by omega), decide_eq_false (by omega)]
  have hkey : orderKey a = magBits a := by simp [orderKey, hs]
  have hlt := hhi.lt
  exact ⟨⟨hs, by omega, by omega⟩, by omega, by omega⟩

theorem units_le_of_magBits_le (h : magBits a ≤ magBits b) : units a ≤ units b := magUnits_strictMono.monotone h

/-- A product of positive values does not go down with either factor. -/
theorem magBits_fmul32_mono (ha : PosFinite a) (hb : PosFinite b) (ha' : PosFinite a') (hb' : PosFinite b')
    (h : magBits a ≤ magBits a') (h' : magBits b ≤ magBits b') : magBits (fmul32 a b) ≤ magBits (fmul32 a' b') := by
  rw [fmul32_of_posFinite ha hb, fmul32_of_posFinite ha' hb', magBits_packSign (roundMag_lt ..),
    magBits_packSign (roundMag_lt ..)]
  exact roundMag_mono (by positivity) (by positivity)
    (Nat.mul_le_mul_right _ (Nat.mul_le_mul (units_le_of_magBits_le h) (units_le_of_magBits_le h')))

/-- A quotient of positive values does not go down with the dividend, nor up with the divisor. -/
theorem magBits_fdiv32_mono (ha : PosFinite a) (hb : PosFinite b) (ha' : PosFinite a') (hb' : PosFinite b')
    (h : magBits a ≤ magBits a') (h' : magBits b' ≤ magBits b) : magBits (fdiv32 a b) ≤ magBits (fdiv32 a' b') := by
  rw [fdiv32_of_posFinite ha hb, fdiv32_of_posFinite ha' hb', magBits_packSign (roundMag_lt ..),
    magBits_packSign (roundMag_lt ..)]
  exact roundMag_mono hb.units_pos hb'.units_pos
    (Nat.mul_le_mul (Nat.mul_le_mul_right _ (units_le_of_magBits_le h)) (units_le_of_magBits_le h'))

theorem signBit_fmul32_of_posFinite (ha : PosFinite a) (hb : PosFinite b) : signBit (fmul32 a b) = false := by
  rw [fmul32_of_posFinite ha hb, signBit_packSign (roundMag_lt ..)]

theorem signBit_fdiv32_of_posFinite (ha : PosFinite a) (hb : PosFinite b) : signBit (fdiv32 a b) = false := by
  rw [fdiv32_of_posFinite ha hb, signBit_packSign (roundMag_lt ..)]

/-- A product of finite values is the exact product rounded, a zero of either sign included. -/
theorem orderKey_fmul32 (ha : isFinite32 a = true) (hb : isFinite32 b = true) :
    orderKey (fmul32 a b) = roundKey (signedUnits a * signedUnits b) (2 ^ 149) := by
  obtain ⟨hpos, hneg⟩ := signBit_bne_of_mul (a := a) (b := b) ⟨_, rfl⟩ ⟨_, rfl⟩
  rw [fmul32_of_finite ha hb, ← natAbs_signedUnits a, ← natAbs_signedUnits b, ← Int.natAbs_mul]
  exact orderKey_packSign_roundMag _ hpos hneg

theorem orderKey_fmul32_mono (ha : isFinite32 a = true) (ha' : isFinite32 a' = true) (hb : PosFinite b)
    (h : orderKey a ≤ orderKey a') : orderKey (fmul32 a b) ≤ orderKey (fmul32 a' b) := by
  rw [orderKey_fmul32 ha hb.finite, orderKey_fmul32 ha' hb.finite, hb.signedUnits_eq]
  exact roundKey_mono (by positivity) (mul_le_mul_of_nonneg_right ((signedUnits_le_iff a a').2 h) (Int.natCast_nonneg _))

theorem orderKey_fadd32_mono (ha : isFinite32 a = true) (hb : isFinite32 b = true) (hb' : isFinite32 b' = true)
    (h : orderKey b ≤ orderKey b') : orderKey (fadd32 a b) ≤ orderKey (fadd32 a b') := by
  rw [orderKey_fadd32 ha hb, orderKey_fadd32 ha hb']
  exact roundKey_mono Nat.one_pos (Int.add_le_add_left ((signedUnits_le_iff b b').2 h) _)

end Monotone

/-! ### Cutoffs and rates of a circuit -/

section Rates

variable {p : Params} {fs fc tone : Word}

theorem inUnit_iff {v : Word} : inUnit v = true ↔ isFinite32 v = true ∧ 0 ≤ orderKey v ∧ orderKey v ≤ oneMag := by
  have hone : orderKey 0x3F800000#32 = oneMag := by decide
  rw [inUnit, Bool.and_eq_true]
  constructor
  · rintro ⟨h0, h1⟩
    obtain ⟨hz, hn⟩ := notNaN_of_fle32 h0
    rw [fle32_iff hz hn, show orderKey 0#32 = 0 by decide] at h0
    rw [fle32_iff hn (by decide), hone] at h1
    refine ⟨(isFinite32_iff_orderKey v).2 ?_, h0, h1⟩
    rw [infMag]
    rw [oneMag] at h1
    omega
  · rintro ⟨hf, h0, h1⟩
    rw [fle32_iff (by decide) (isNaN32_of_finite hf), fle32_iff (isNaN32_of_finite hf) (by decide), hone]
    exact ⟨h0, h1⟩

/-- The cutoff `500 + tone * 4500` of a tone in [0, 1] is one from 500 Hz to 5000 Hz, rounding included. -/
theorem toneHz_mem (h : inUnit tone = true) :
    fle32 (toneHz 0#32) (toneHz tone) = true ∧ fle32 (toneHz tone) (toneHz 0x3F800000#32) = true := by
  obtain ⟨hf, h0, h1⟩ := inUnit_iff.1 h
  have hc : PosFinite 0x458CA000#32 := ⟨by decide, by decide, by decide⟩
  have hmul0 := orderKey_fmul32_mono (a := 0#32) (by decide) hf hc h0
  have hmul1 := orderKey_fmul32_mono (a' := 0x3F800000#32) hf (by decide) hc h1
  have hmf : isFinite32 (fmul32 tone 0x458CA000#32) = true := by
    rw [isFinite32_iff_orderKey]
    exact ⟨lt_of_lt_of_le (by decide) hmul0, lt_of_le_of_lt hmul1 (by decide)⟩
  have hnan : isNaN32 (toneHz tone) = false := isNaN32_fadd32 (by decide) (isNaN32_of_finite hmf)
  rw [fle32_iff (by decide) hnan, fle32_iff hnan (by decide)]
  exact ⟨orderKey_fadd32_mono (by decide) (by decide) hmf hmul0, orderKey_fadd32_mono (by decide) hmf (by decide) hmul1⟩

/-- At rates from 10001 Hz to 1e6 Hz a cutoff from 20 Hz to 5000 Hz is below half the rate, and its angle is one of
`TanSteady`. -/
theorem angleOk_of_between (h1 : fle32 0x461C4400#32 fs = true) (h2 : fle32 fs 0x49742400#32 = true)
    (h3 : fle32 0x41A00000#32 fc = true) (h4 : fle32 fc 0x459C4000#32 = true) : angleOk fs fc = true := by
  have hrLo : PosFinite 0x461C4400#32 := ⟨by decide, by decide, by decide⟩
  have hrHi : PosFinite 0x49742400#32 := ⟨by decide, by decide, by decide⟩
  have hcLo : PosFinite 0x41A00000#32 := ⟨by decide, by decide, by decide⟩
  have hcHi : PosFinite 0x459C4000#32 := ⟨by decide, by decide, by decide⟩
  have hpi : PosFinite 0x40490FDB#32 := ⟨by decide, by decide, by decide⟩
  have hhalf : PosFinite 0x3F000000#32 := ⟨by decide, by decide, by decide⟩
  have hpLo : PosFinite (fmul32 0x40490FDB#32 0x41A00000#32) := ⟨by decide, by decide, by decide⟩
  have hpHi : PosFinite (fmul32 0x40490FDB#32 0x459C4000#32) := ⟨by decide, by decide, by decide⟩
  obtain ⟨hfs, hfs1, hfs2⟩ := posFinite_of_between hrLo hrHi h1 h2
  obtain ⟨hfc, hfc1, hfc2⟩ := posFinite_of_between hcLo hcHi h3 h4
  have hm1 := magBits_fmul32_mono hpi hcLo hpi hfc le_rfl hfc1
  have hm2 := magBits_fmul32_mono hpi hfc hpi hcHi le_rfl hfc2
  have hm : PosFinite (fmul32 0x40490FDB#32 fc) :=
    ⟨signBit_fmul32_of_posFinite hpi hfc, lt_of_lt_of_le hpLo.pos hm1, lt_of_le_of_lt hm2 hpHi.lt⟩
  have hw1 : circuitAngleLo ≤ magBits (fdiv32 (fmul32 0x40490FDB#32 fc) fs) :=
    le_trans (by decide) (magBits_fdiv32_mono hpLo hrHi hm hfs hm1 hfs2)
  have hw2 : magBits (fdiv32 (fmul32 0x40490FDB#32 fc) fs) ≤ circuitAngleHi :=
    le_trans (magBits_fdiv32_mono hm hfs hpHi hrLo hm2 hfs1) (by decide)
  have hny : flt32 fc (fmul32 fs 0x3F000000#32) = true := by
    have hlo := magBits_fmul32_mono hrLo hhalf hfs hhalf hfs1 le_rfl
    have hhi := magBits_fmul32_mono hfs hhalf hrHi hhalf hfs2 le_rfl
    have hmul : PosFinite (fmul32 fs 0x3F000000#32) :=
      ⟨signBit_fmul32_of_posFinite hfs hhalf, lt_of_lt_of_le (by decide) hlo, lt_of_le_of_lt hhi (by decide)⟩
    rw [flt32_iff (isNaN32_of_finite hfc.finite) (isNaN32_of_finite hmul.finite), hfc.orderKey_eq, hmul.orderKey_eq,
      Int.ofNat_lt]
    exact lt_of_le_of_lt hfc2 (lt_of_lt_of_le (by decide) hlo)
  obtain ⟨hfsf, hfsp⟩ := posFinite_iff.1 hfs
  obtain ⟨hfcf, hfcp⟩ := posFinite_iff.1 hfc
  simp [angleOk, hfsf, hfsp, hfcf, hfcp, hny, signBit_fdiv32_of_posFinite hm hfs, hw1, hw2]

theorem fle32_trans {a b c : Word} (h : fle32 a b = true) (h' : fle32 b c = true) : fle32 a c = true := by
  obtain ⟨ha, hb⟩ := notNaN_of_fle32 h
  obtain ⟨-, hc⟩ := notNaN_of_fle32 h'
  rw [fle32_iff ha hb] at h
  rw [fle32_iff hb hc] at h'
  exact (fle32_iff ha hc).2 (h.trans h')

/-- The three coefficient sets of a circuit exist at audio rates (rule R81, last sentence). -/
theorem coefsExist_of_audioRate (ht : TanSteady (ftan32 p)) (h1 : fle32 0x461C4400#32 fs = true)
    (h2 : fle32 fs 0x49742400#32 = true) (htone : inUnit tone = true) : CoefsExist p fs tone := by
  obtain ⟨hlo, hhi⟩ := toneHz_mem htone
  exact coefsExist_of_angleOk ht (angleOk_of_between h1 h2 (by decide) (by decide))
    (angleOk_of_between h1 h2 (fle32_trans (by decide) hlo) (fle32_trans hhi (by decide)))
    (angleOk_of_between h1 h2 (by decide) (by decide))

end Rates

/-! ### Tangents that pass checks (4) and (5) -/

section Tangents

variable {n : Word}

/-- Rounding a whole number of units that does not overflow is off by at most a part in 2^24. -/
theorem magUnits_roundMag_within {num : Nat} (h : num < overflowUnits) :
    2 ^ 24 * magUnits (roundMag num 1) ≤ (2 ^ 24 + 1) * num ∧ (2 ^ 24 - 1) * num ≤ 2 ^ 24 * magUnits (roundMag num 1) := by
  have hfin := (roundPattern_lt_infMag_iff num Nat.one_pos).2 (by rwa [Nat.mul_one])
  rw [roundMag_eq_min, Nat.min_eq_left hfin.le, magUnits_roundPattern]
  have hlow := (lastPlace_bounds num 1).2
  have hwithin := roundHalfEven_within num (den := 1 * 2 ^ lastPlace num 1) (by positivity)
  rw [Nat.div_one] at hlow
  rw [Nat.one_mul] at hwithin ⊢
  rcases Nat.eq_zero_or_pos (lastPlace num 1) with he | he
  · rw [he, pow_zero, Nat.mul_one] at hwithin ⊢
    omega
  · have hplace := hlow he.ne'
    rw [Nat.pow_add, Nat.mul_comm] at hplace
    omega

/-- A difference of finite values, as a magnitude. -/
theorem magBits_fsub32 {a b : Word} (ha : isFinite32 a = true) (hb : isFinite32 b = true) :
    magBits (fsub32 a b) = roundMag (signedUnits a - signedUnits b).natAbs 1 := by
  rw [fsub32, addCore_of_finite _ _ _ ha (by rwa [isFinite32_fneg32]), magBits_packSign (roundMag_lt ..),
    signedUnits_fneg32, Int.sub_eq_add_neg]

/-- A quotient of at most `1 - 2^-24`, the greatest F value below 1, stays strictly inside (-1, 1). -/
theorem fdiv32_insideUnit {a b : Word} (ha : isFinite32 a = true) (hb : PosFinite b)
    (h : 2 ^ 24 * units a ≤ (2 ^ 24 - 1) * units b) :
    flt32 0xBF800000#32 (fdiv32 a b) = true ∧ flt32 (fdiv32 a b) 0x3F800000#32 = true := by
  have hquot := fdiv32_of_finite ha hb.finite hb.pos.ne'
  have hmag : magBits (fdiv32 a b) ≤ 0x3F7FFFFF := by
    rw [hquot, magBits_packSign (roundMag_lt ..)]
    refine roundMag_le_of_le (by decide) hb.units_pos ?_
    rw [show magUnits 0x3F7FFFFF = (2 ^ 24 - 1) * 2 ^ 125 by decide]
    omega
  have hnan : isNaN32 (fdiv32 a b) = false := by rw [hquot]; exact isNaN32_packSign (roundMag_le ..)
  rw [flt32_iff (by decide) hnan, flt32_iff hnan (by decide), show orderKey 0xBF800000#32 = -0x3F800000 by decide,
    show orderKey 0x3F800000#32 = 0x3F800000 by decide]
  have hkey := natAbs_orderKey (fdiv32 a b)
  omega

/-- A tangent from 2^-22 to 2^22 passes checks (4) and (5): numerator and denominator, each rounded, still differ by more
than the quotient's last place. -/
theorem tanAccepted_of_units (hn : PosFinite n) (hlo : 2 ^ 127 ≤ units n) (hhi : units n ≤ 2 ^ 171) :
    tanAccepted n = true := by
  obtain ⟨hfin, hpos⟩ := posFinite_iff.1 hn
  have hdiff : signedUnits n - signedUnits 0x3F800000#32 = (units n : Int) - (2 ^ 149 : Nat) := by
    rw [hn.signedUnits_eq, posFinite_one.signedUnits_eq, units_one]
  have hmag := magBits_fsub32 hfin posFinite_one.finite
  rw [hdiff] at hmag
  have hsmall : ((units n : Int) - (2 ^ 149 : Nat)).natAbs < overflowUnits := by
    rw [overflowUnits]
    omega
  have hnum := (magUnits_roundMag_within hsmall).1
  have hden := (magUnits_roundMag_within (num := units n + 2 ^ 149) (by rw [overflowUnits]; omega)).2
  rw [← hmag, ← units] at hnum
  rw [← units_fadd32_one hn] at hden
  have hinside := fdiv32_insideUnit (a := fsub32 n 0x3F800000#32) (b := fadd32 n 0x3F800000#32)
    ((isFinite32_iff _).2 (hmag ▸ roundMag_lt_infMag hsmall)) (denominator_bounds hn).1 (by omega)
  simp [tanAccepted, hfin, hpos, hinside]

theorem realOf_two_pow_22 : realOf 0x4A800000#32 = 2 ^ 22 := by
  rw [realOf, show signedUnits 0x4A800000#32 = 2 ^ 171 by decide]
  norm_num

/-- Of a nearest value and any other: what lies on the far side of the other does not pass it. -/
theorem le_of_nearest {t x y : ℝ} (h : |x - t| ≤ |y - t|) : (y ≤ t → y ≤ x) ∧ (t ≤ y → x ≤ y) := by
  constructor
  · intro hy
    by_contra hx
    rw [abs_of_nonpos (by linarith), abs_of_nonpos (by linarith)] at h
    linarith
  · intro hy
    by_contra hx
    rw [abs_of_nonneg (by linarith), abs_of_nonneg (by linarith)] at h
    linarith

/-- The tangent of an angle that stays 2^-22 below a quarter turn is at most 2^22. -/
theorem tan_le_of_gap {x : ℝ} (h0 : 0 < x) (hgap : 1 / 2 ^ 22 ≤ Real.pi / 2 - x) : Real.tan x ≤ 2 ^ 22 := by
  have hpos : 0 < Real.pi / 2 - x := lt_of_lt_of_le (by positivity) hgap
  have hcot : Real.pi / 2 - x < (Real.tan x)⁻¹ := Real.tan_pi_div_two_sub x ▸ Real.lt_tan hpos (by linarith)
  exact le_of_one_div_le_one_div (by positivity) (hgap.trans (one_div (Real.tan x) ▸ hcot.le))

/-- The greatest angle of `TanSteady` is 1.57e-4 below a quarter turn. -/
theorem gap_of_circuitAngle {a : Word} (hs : signBit a = false) (h : magBits a ≤ circuitAngleHi) :
    1 / 2 ^ 22 ≤ Real.pi / 2 - realOf a := by
  have hle : magUnits (magBits a) ≤ magUnits circuitAngleHi := magUnits_strictMono.monotone h
  rw [show magUnits circuitAngleHi = 13175478 * 2 ^ 126 by decide] at hle
  have hreal : (units a : ℝ) ≤ (13175478 * 2 ^ 126 : Nat) := Nat.cast_le.2 hle
  have hpi := Real.pi_gt_d6
  have hval : realOf a ≤ 13175478 / 2 ^ 23 := by
    rw [realOf_eq_units hs, div_le_iff₀ (by positivity)]
    push_cast at hreal
    linarith
  linarith

/-- The correctly rounded tangent of a circuit's angle is from 2^-22 to 2^22: the angle itself lies below its tangent and
2^22 above it, and both are F values. -/
theorem TanCr.tanSteady {T : Word → Word} (hT : TanCr T) : TanSteady T := by
  intro a hs hlo hhi
  have hfin : isFinite32 a = true := (isFinite32_iff a).2 (lt_of_le_of_lt hhi (by decide))
  have hpos : 0 < realOf a := realOf_pos_iff.2 ⟨hs, (lt_of_lt_of_le (by decide) hlo).ne'⟩
  have hpi : realOf a < Real.pi / 2 := (realOf_lt_half_pi_iff hs).2 (hhi.trans (by decide))
  obtain ⟨hTfin, hnear⟩ := hT a hfin hpos hpi
  have hge : realOf a ≤ realOf (T a) := (le_of_nearest (hnear a hfin)).1 (Real.le_tan hpos.le hpi)
  have hle : realOf (T a) ≤ realOf 0x4A800000#32 := by
    refine (le_of_nearest (hnear 0x4A800000#32 (by decide))).2 ?_
    rw [realOf_two_pow_22]
    exact tan_le_of_gap hpos (gap_of_circuitAngle hs hhi)
  obtain ⟨hTs, hT0⟩ := realOf_pos_iff.1 (lt_of_lt_of_le hpos hge)
  have hunits : magUnits circuitAngleLo ≤ units a := magUnits_strictMono.monotone hlo
  rw [realOf_eq_units hs, realOf_eq_units hTs, div_le_div_iff_of_pos_right (by positivity), Nat.cast_le] at hge
  rw [realOf_eq_units hTs, realOf_eq_units (by decide), div_le_div_iff_of_pos_right (by positivity), Nat.cast_le] at hle
  refine tanAccepted_of_units ⟨hTs, Nat.pos_of_ne_zero hT0, (isFinite32_iff _).1 hTfin⟩ ?_ ?_
  · exact le_trans (by decide) (hunits.trans hge)
  · exact hle.trans (by decide)

end Tangents

/-- Settles O54: the design's checks at the ends of the rates and cutoffs, and the bounds on a correctly rounded tangent. -/
theorem circuitRatesNeverDegenerate : Obligations.CircuitRatesNeverDegenerate :=
  ⟨fun _ _ _ ht h1 h2 htone => coefsExist_of_audioRate ht h1 h2 htone, fun _ hT => hT.tanSteady⟩

/-! ### A block at audio rates -/

section Block

variable {s t : State} {len drive tone level : Word}

theorem machineState_eq_configured_iff :
    machineState s = .configured ↔ isFaulted s = false ∧ s.pstCfg = true := by
  rw [machineState]
  cases isFaulted s <;> cases s.pstCfg <;> simp

/-- On a state that meets the invariant a block within the block size names circuits and cells that exist (rule R40). -/
theorem Inv.blockInBounds (h : Inv s) (hlen : len.toNat ≤ s.blksz.toNat) : Machine.blockInBounds len s = true := by
  have hn := h.nch_le
  have hc := h.circuits
  have hb := hlen.trans h.blksz_le
  simp [Machine.blockInBounds, hn, hc, hb]

theorem Inv.blockAccepted (h : Inv s) (hm : machineState s = .configured) (hlen : len.toNat ≤ s.blksz.toNat)
    (hd : inUnit drive = true) (ht : inUnit tone = true) (hl : inUnit level = true) :
    BlockAccepted s len drive tone level where
  running := (machineState_eq_configured_iff.1 hm).1
  configured := (machineState_eq_configured_iff.1 hm).2
  length := hlen
  finite := ⟨(inUnit_iff.1 hd).1, (inUnit_iff.1 ht).1, (inUnit_iff.1 hl).1⟩
  range := ⟨hd, ht, hl⟩
  bounds := h.blockInBounds hlen

end Block

/-- Settles O38: the block is accepted, every circuit refreshes at its rate, and every sample is finite. -/
theorem audioRateBlocksComplete : Obligations.AudioRateBlocksComplete := by
  intro len drive tone level s hsteady hinv hm hrates htone hlen hd ht hl hfin
  have hacc := hinv.blockAccepted hm hlen hd ht hl
  have href : RefreshSucceeds s s.nch.toNat := fun c hc =>
    coefsExist_of_audioRate hsteady (hrates c hc).1 (hrates c hc).2 htone
  obtain ⟨t, hexec, hend, hfields, -⟩ := blockIsPerChannelRuns len drive tone level s hacc href hfin
  refine ⟨t, hexec, machineState_eq_configured_iff.2 ⟨hend, ?_⟩⟩
  rw [hfields]
  exact hacc.configured

end Sys2Proof.Machine
end

section
/-! PROOFS. The clipping stage (spec/42_clip.md): its command with the check passed (rule R91), and the range and the order
of `clip` in `NUM32` (rule R92 (a) to (c)). A product by a positive finite constant keeps the order, overflow and
infinities included; so both branches of rule R90 are chains of functions that keep the order, and at the seam they lie on
their own sides of the zeros. -/

namespace Sys2Proof.Machine

/-! ### The command, its check passed -/

theorem clipIn_eq {N : Num Word} {x : Word} {s : State} (hf : isFaulted s = false) (hx : N.isfinite x = true) :
    clipIn N x s = .next (setRes0 s (clip N x)) := by
  simp only [clipIn, unlessFaulted_of_running hf, asF, bitsF, firstFailure, hx, if_true]

/-- Settles O24: the one check passes, and what is left is the write of `RES[0]`; the value is rule R90's two branches. -/
theorem clipResult : Obligations.ClipResult := fun _ s hf hx => clipIn_eq (N := num32 s.par) hf hx

/-! ### Products by a positive finite factor -/

section Products

variable {a a' b : Word}

/-- An infinity times a positive finite value is that infinity. -/
theorem fmul32_of_inf (ha : isInf32 a = true) (hb : PosFinite b) : fmul32 a b = a := by
  have hmag : magBits a = infMag := by simpa [isInf32] using ha
  have hprod : fmul32 a b = packSign (signBit a) infMag := by
    simp [fmul32, isNaN32_of_inf ha, isNaN32_of_finite hb.finite, ha, hb.pos.ne', hb.sign]
  rw [hprod, ← hmag, packSign_eta]

theorem isNaN32_fmul32_of_posFinite (ha : isNaN32 a = false) (hb : PosFinite b) : isNaN32 (fmul32 a b) = false := by
  rcases finite_or_inf ha with hf | hi
  · rw [fmul32_of_finite hf hb.finite]
    exact isNaN32_packSign (roundMag_le ..)
  · rwa [fmul32_of_inf hi hb]

/-- The factors of a product commute where it is not a NaN (which NaN it is, is free). -/
theorem fmul32_comm_of_posFinite (ha : isNaN32 a = false) (hb : PosFinite b) : fmul32 b a = fmul32 a b := by
  rcases finite_or_inf ha with hf | hi
  · rw [fmul32_of_finite hf hb.finite, fmul32_of_finite hb.finite hf, Nat.mul_comm, bne_comm]
  · simp [fmul32, ha, isNaN32_of_finite hb.finite, isInf32_of_finite hb.finite, hi, hb.pos.ne', hb.sign]

/-- A product by a positive finite constant keeps the order. -/
theorem fle32_fmul32_right (hb : PosFinite b) (h : fle32 a a' = true) : fle32 (fmul32 a b) (fmul32 a' b) = true := by
  obtain ⟨ha, ha'⟩ := notNaN_of_fle32 h
  have hn := isNaN32_fmul32_of_posFinite ha hb
  have hn' := isNaN32_fmul32_of_posFinite ha' hb
  have hkey := (fle32_iff ha ha').1 h
  rw [fle32_iff hn hn']
  have hmag : magBits (fmul32 a b) ≤ infMag := (isNaN32_eq_false_iff _).1 hn
  have hmag' : magBits (fmul32 a' b) ≤ infMag := (isNaN32_eq_false_iff _).1 hn'
  rw [← natAbs_orderKey] at hmag hmag'
  rcases finite_or_inf ha with hf | hi <;> rcases finite_or_inf ha' with hf' | hi'
  · exact orderKey_fmul32_mono hf hf' hb hkey
  · have hinf' : magBits a' = infMag := by simpa [isInf32] using hi'
    have hfin := (isFinite32_iff_orderKey a).1 hf
    rw [← natAbs_orderKey] at hinf'
    rw [fmul32_of_inf hi' hb]
    omega
  · have hinf : magBits a = infMag := by simpa [isInf32] using hi
    have hfin' := (isFinite32_iff_orderKey a').1 hf'
    rw [← natAbs_orderKey] at hinf
    rw [fmul32_of_inf hi hb]
    omega
  · rwa [fmul32_of_inf hi hb, fmul32_of_inf hi' hb]

theorem fle32_fmul32_left (hb : PosFinite b) (h : fle32 a a' = true) : fle32 (fmul32 b a) (fmul32 b a') = true := by
  obtain ⟨ha, ha'⟩ := notNaN_of_fle32 h
  rw [fmul32_comm_of_posFinite ha hb, fmul32_comm_of_posFinite ha' hb]
  exact fle32_fmul32_right hb h

end Products

/-! ### The two branches of `clip` -/

/-- The branch of rule R90 below the zeros, with `T` in the place of `ftanh`. -/
def clipBelow (T : Word → Word) (x : Word) : Word := fmul32 (T (fmul32 0x3F4CCCCD#32 x)) 0x3F99999A#32

/-- `clip` in `NUM32` with `T` in the place of `ftanh` (`clip_num32_with`): of the parameters it uses nothing else. -/
def clipOf (T : Word → Word) (x : Word) : Word := if fle32 0#32 x then T x else clipBelow T x

theorem clip_num32_with (p : Params) (T : Word → Word) (x : Word) :
    clip { num32 p with ftanh := T } x = clipOf T x := if_congr Iff.rfl rfl rfl

theorem clip_num32 (p : Params) (x : Word) : clip (num32 p) x = clipOf (ftanh32 p) x :=
  clip_num32_with p (ftanh32 p) x

section Branches

variable {T : Word → Word} {x y : Word}

theorem clipOf_of_fle32 (h : fle32 0#32 x = true) : clipOf T x = T x := if_pos h

theorem clipOf_of_not_fle32 (h : ¬ fle32 0#32 x = true) : clipOf T x = clipBelow T x := if_neg h

/-- The zeros are at one place, so what is not from `+0` up is at most `-0`. -/
theorem fle32_negZero_of_not (hn : isNaN32 x = false) (h : ¬ fle32 0#32 x = true) : fle32 x 0x80000000#32 = true := by
  rw [fle32_iff (by decide) hn, show orderKey 0#32 = 0 by decide] at h
  rw [fle32_iff hn (by decide), show orderKey 0x80000000#32 = 0 by decide]
  omega

theorem not_fle32_of_flt32 (h : flt32 x 0#32 = true) : ¬ fle32 0#32 x = true := by
  obtain ⟨hx, h0⟩ := notNaN_of_flt32 h
  rw [flt32_iff hx h0] at h
  rw [fle32_iff h0 hx]
  omega

theorem posFinite_c0_8 : PosFinite 0x3F4CCCCD#32 := ⟨by decide, by decide, by decide⟩

theorem posFinite_c1_2 : PosFinite 0x3F99999A#32 := ⟨by decide, by decide, by decide⟩

theorem TanhOrder.clipBelow_mono (hT : TanhOrder T) (h : fle32 x y = true) :
    fle32 (clipBelow T x) (clipBelow T y) = true :=
  fle32_fmul32_right posFinite_c1_2 (hT.mono _ _ (fle32_fmul32_left posFinite_c0_8 h))

theorem TanhOrder.clipBelow_negZero (hT : TanhOrder T) : clipBelow T 0x80000000#32 = 0x80000000#32 := by
  have hprod : fmul32 0x3F4CCCCD#32 0x80000000#32 = 0x80000000#32 := by decide
  rw [clipBelow, hprod, hT.zero.2]
  decide

/-- From `+0` up `clip` is from `+0` up. -/
theorem TanhOrder.clipOf_nonneg (hT : TanhOrder T) (h : fle32 0#32 x = true) : fle32 0#32 (clipOf T x) = true := by
  have hmono := hT.mono _ _ h
  rw [hT.zero.1] at hmono
  rwa [clipOf_of_fle32 h]

/-- Below the zeros `clip` is at most `-0`. -/
theorem TanhOrder.clipOf_nonpos (hT : TanhOrder T) (hn : isNaN32 x = false) (h : ¬ fle32 0#32 x = true) :
    fle32 (clipOf T x) 0x80000000#32 = true := by
  have hmono := hT.clipBelow_mono (fle32_negZero_of_not hn h)
  rw [hT.clipBelow_negZero] at hmono
  rwa [clipOf_of_not_fle32 h]

/-- Rule R92 (c): two operands of one branch compare by that branch, at the seam the zeros stand between. -/
theorem TanhOrder.clipOf_mono (hT : TanhOrder T) (h : fle32 x y = true) : fle32 (clipOf T x) (clipOf T y) = true := by
  obtain ⟨hx, hy⟩ := notNaN_of_fle32 h
  by_cases hx0 : fle32 0#32 x = true
  · rw [clipOf_of_fle32 hx0, clipOf_of_fle32 (fle32_trans hx0 h)]
    exact hT.mono x y h
  · by_cases hy0 : fle32 0#32 y = true
    · have hzeros : fle32 0x80000000#32 0#32 = true := by decide
      exact fle32_trans (hT.clipOf_nonpos hx hx0) (fle32_trans hzeros (hT.clipOf_nonneg hy0))
    · rw [clipOf_of_not_fle32 hx0, clipOf_of_not_fle32 hy0]
      exact hT.clipBelow_mono h

/-- Rule R92 (a): from `+0` up the bounds are those of `ftanh`; below, `-C1_2` is `-1` times `C1_2`, and the zeros are below
`C1`. -/
theorem TanhLaws.clipOf_bounds (hT : TanhLaws T) (hn : isNaN32 x = false) :
    fle32 0xBF99999A#32 (clipOf T x) = true ∧ fle32 (clipOf T x) 0x3F800000#32 = true := by
  by_cases h : fle32 0#32 x = true
  · obtain ⟨hlo, hhi⟩ := hT.bound x hn
    rw [clipOf_of_fle32 h]
    exact ⟨fle32_trans (by decide) hlo, hhi⟩
  · refine ⟨?_, fle32_trans (hT.clipOf_nonpos hn h) (by decide)⟩
    obtain ⟨hprod, -⟩ := notNaN_of_fle32 (fle32_fmul32_left posFinite_c0_8 (fle32_negZero_of_not hn h))
    have hlo := fle32_fmul32_right posFinite_c1_2 (hT.bound _ hprod).1
    have hend : fmul32 0xBF800000#32 0x3F99999A#32 = 0xBF99999A#32 := by decide
    rw [hend] at hlo
    rwa [clipOf_of_not_fle32 h]

/-- Rule R92 (b): both zeros go the branch of `ftanh`, which keeps them. -/
theorem TanhOrder.clipOf_zeros (hT : TanhOrder T) :
    clipOf T 0x00000000#32 = 0x00000000#32 ∧ clipOf T 0x80000000#32 = 0x80000000#32 := by
  rw [clipOf_of_fle32 (by decide), clipOf_of_fle32 (by decide)]
  exact hT.zero

end Branches

/-- Whatever the parameters are, their `ftanh` has the named properties. -/
theorem tanhLaws_ftanh32 (p : Params) : TanhLaws (ftanh32 p) := tanhLaws_tanhOf _

/-- Settles O50: the machine's own `clip` is `clipOf` of its own `ftanh`, which has the named properties. -/
theorem clipBoundAndOrder : Obligations.ClipBoundAndOrder := by
  simp only [Obligations.ClipBoundAndOrder, clip_num32_with, clip_num32]
  refine ⟨fun p x hn => ?_, fun p => (tanhLaws_ftanh32 p).clipOf_zeros,
    fun p _ _ h => (tanhLaws_ftanh32 p).clipOf_mono h, fun _ _ hT _ _ h => hT.clipOf_mono h⟩
  have hT := tanhLaws_ftanh32 p
  obtain ⟨hlo, hhi⟩ := hT.clipOf_bounds hn
  have hzeros : fle32 0x80000000#32 0#32 = true := by decide
  exact ⟨hlo, hhi, fun h => hT.clipOf_nonneg h, fun h => fle32_trans (hT.clipOf_nonpos hn (not_fle32_of_flt32 h)) hzeros⟩

end Sys2Proof.Machine
end

section
/-! PROOFS. The per-channel circuit (spec/43_circuit.md): its three commands with their checks passed (rules R98, R100, R102),
the operands they do not use (rule R104), and what a circuit does to silence (rule R103 (a)), for one sample and for a whole
block (spec/44_block.md rule R112). -/

namespace Sys2Proof.Machine

/-! ### The commands, their checks passed -/

section Commands

variable {N : Num Word} {s : State} {c : Byte}

theorem cprepIn_eq {fs blksz : Word} {k : CoefBank Word} (hf : isFaulted s = false) (hc : c.toNat < s.nch.toNat)
    (hr : rateOk N fs = true) (hb : blksz ≠ 0#32) (hk : circuitCoefs N fs s.par.pdefTone = .ok k) :
    cprepIn N c fs blksz s = .next (setCircuit s c.toNat (preparedCircuit N fs k)) := by
  have hq := (circuitPrepare_eq_ok_iff N s.par.pdefTone fs blksz _).2 ⟨hr, hb, k, hk, rfl⟩
  simp only [cprepIn, unlessFaulted_of_running hf, asF, firstFailure, hc, decide_true, if_true, hq]

theorem psmpIn_eq {x drive tone level : Word} (hf : isFaulted s = false) (hc : c.toNat < s.par.nchMax)
    (hr : (getCircuit s c.toNat).rdy = true) (hx : N.isfinite x = true) (hd : N.isfinite drive = true)
    (ht : N.isfinite tone = true) (hl : N.isfinite level = true) :
    psmpIn N c x drive tone level s = .next
      (setRes0 (setCircuit s c.toNat (circuitProcess N (getCircuit s c.toNat) x drive tone level).1)
        (circuitProcess N (getCircuit s c.toNat) x drive tone level).2) := by
  simp only [psmpIn, unlessFaulted_of_running hf, asF, bitsF, firstFailure, hc, hr, hx, hd, ht, hl, decide_true, if_true]

/-- A Ready circuit, its `rdy` written out. -/
theorem eq_ready_of_rdy {q : Circuit Word} (h : q.rdy = true) : q = { q with rdy := true } := by rw [← h]

/-- Of the drive, `UPDF` uses only whether it is finite. -/
theorem updfIn_congr_drive {drive drive' tone : Word} (h : N.isfinite drive = N.isfinite drive') :
    updfIn N c drive tone s = updfIn N c drive' tone s := by
  simp only [updfIn, circuitUpdate, asF, h]

/-- Of the tone, `PSMP` uses only whether it is finite. -/
theorem psmpIn_congr_tone {x drive tone tone' level : Word} (h : N.isfinite tone = N.isfinite tone') :
    psmpIn N c x drive tone level s = psmpIn N c x drive tone' level s := by
  simp only [psmpIn, circuitProcess, asF, h]

end Commands

/-- Settles O25: the checks pass, and what is left is the write of one circuit. -/
theorem cprepResult : Obligations.CprepResult := by
  intro c fs blksz s hf hc hfin hpos hb hk
  have hrate : rateOk (num32 s.par) fs = true := Bool.and_eq_true_iff.2 ⟨hfin, hpos⟩
  exact cprepIn_eq hf hc hrate hb ((coefsExist_iff ..).1 hk)

/-- Settles O26: the checks pass, and what is left is the write of one circuit, which stays Ready. -/
theorem updfResult : Obligations.UpdfResult := by
  intro c drive tone s hf hc hr hd ht hk q
  have hexec := updfIn_eq (N := num32 s.par) hf hc hr hd ht ((coefsExist_iff ..).1 hk)
  rw [eq_ready_of_rdy ((withCoefs_rdy ..).trans hr)] at hexec
  exact hexec

/-- Rule R82's expression in the operations of `NUM32`. -/
theorem filtOut_num32 (p : Params) (q : FilterRegs Word) (x : Word) : filtOut (num32 p) q x =
    fsub32 (fadd32 (fmul32 q.coefs.b0 x) (fmul32 q.coefs.b1 q.x1)) (fmul32 q.coefs.a1 q.y1) := by
  simp only [filtOut, num32_fsub, num32_fadd, num32_fmul]

/-- The signal after gain and clip (rule R101 steps 3 and 4) in the operations of `NUM32`. -/
theorem clippedSignal_num32 (p : Params) (s1 drive : Word) : clippedSignal (num32 p) s1 drive =
    clipOf (ftanh32 p) (fmul32 (fmul32 s1 0x40400000#32) (fadd32 0x3F800000#32 (fmul32 drive 0x42480000#32))) :=
  clip_num32 p _

/-- Settles O27: the checks pass, and what is left is the write of one circuit, which stays Ready, and of `RES[0]`. -/
theorem psmpResult : Obligations.PsmpResult := by
  intro c x drive tone level s hf hc hr hx hd ht hl
  have hexec := psmpIn_eq (N := num32 s.par) hf hc hr hx hd ht hl
  rw [eq_ready_of_rdy ((circuitProcess_rdy ..).trans hr)] at hexec
  simp only [circuitProcess, filtStep, filtOut_num32, clippedSignal_num32] at hexec
  exact hexec

/-- Settles O45: two finite operands pass the same check, and no more is asked of them. -/
theorem unusedOperands : Obligations.UnusedOperands :=
  ⟨fun _ _ _ _ s h h' => updfIn_congr_drive (N := num32 s.par) (h.trans h'.symm),
    fun _ _ _ _ _ _ s h h' => psmpIn_congr_tone (N := num32 s.par) (h.trans h'.symm)⟩

/-! ### Silence through one circuit -/

section Silence

variable {p : Params} {q : Circuit Word} {drive level : Word}

/-- `+0` times a finite value is a zero with the sign of that value. -/
theorem fmul32_zero_left {b : Word} (hb : isFinite32 b = true) :
    fmul32 0#32 b = if signBit b then 0x80000000#32 else 0#32 := by
  rw [fmul32_of_finite (by decide) hb, show units 0#32 = 0 by decide, Nat.zero_mul, roundMag_zero]
  cases signBit b <;> decide

/-- A drive gain that is not negative keeps `+0` on its way to the tone low-pass. -/
theorem clippedSignal_zero (hfin : isFinite32 (driveGain (num32 p) drive) = true)
    (hsign : signBit (driveGain (num32 p) drive) = false) : clippedSignal (num32 p) 0#32 drive = 0#32 := by
  have hthree : fmul32 0#32 0x40400000#32 = 0#32 := by decide
  rw [clippedSignal, num32_fmul, num32_fmul, num32_c3, hthree, fmul32_zero_left hfin, hsign, clip_num32]
  exact (tanhLaws_ftanh32 p).clipOf_zeros.1

/-- Rule R103 (a): silence is the fixed point of each of the three filters, and `+0` passes between them. -/
theorem circuitProcess_silent {fs tone t : Word} (hk : circuitCoefs (num32 p) fs tone = .ok (coefsOf q))
    (hq : silentHistory q) (hfin : isFinite32 (driveGain (num32 p) drive) = true)
    (hsign : signBit (driveGain (num32 p) drive) = false) (hl : isFinite32 level = true) :
    circuitProcess (num32 p) q 0#32 drive t level = (q, if signBit level then 0x80000000#32 else 0#32) := by
  obtain ⟨hihp, htlp, hohp⟩ := (circuitCoefs_eq_ok_iff ..).1 hk
  obtain ⟨hix, hiy, htx, hty, hox, hoy⟩ := hq
  simp only [circuitProcess, filtStep_silent hihp hix hiy, hiy, clippedSignal_zero hfin hsign,
    filtStep_silent htlp htx hty, hty, filtStep_silent hohp hox hoy, hoy, num32_fmul, fmul32_zero_left hl]

/-- The drive gain of a drive in [0, 1] is from 1 to 51, rounding included. -/
theorem driveGain_of_inUnit (h : inUnit drive = true) :
    isFinite32 (driveGain (num32 p) drive) = true ∧ signBit (driveGain (num32 p) drive) = false := by
  obtain ⟨hf, h0, h1⟩ := inUnit_iff.1 h
  have hc : PosFinite 0x42480000#32 := ⟨by decide, by decide, by decide⟩
  have hmul0 := orderKey_fmul32_mono (a := 0#32) (by decide) hf hc h0
  have hmul1 := orderKey_fmul32_mono (a' := 0x3F800000#32) hf (by decide) hc h1
  have hmf : isFinite32 (fmul32 drive 0x42480000#32) = true := by
    rw [isFinite32_iff_orderKey]
    exact ⟨lt_of_lt_of_le (by decide) hmul0, lt_of_le_of_lt hmul1 (by decide)⟩
  have hlo := orderKey_fadd32_mono (a := 0x3F800000#32) (by decide) (by decide) hmf hmul0
  have hhi := orderKey_fadd32_mono (a := 0x3F800000#32) (by decide) hmf (by decide) hmul1
  have hpos : 0 < orderKey (driveGain (num32 p) drive) := lt_of_lt_of_le (by decide) hlo
  refine ⟨(isFinite32_iff_orderKey _).2 ⟨lt_trans (by decide) hpos, lt_of_le_of_lt hhi (by decide)⟩, ?_⟩
  rw [signBit_of_orderKey_ne_zero hpos.ne', decide_eq_false hpos.not_gt]

end Silence

/-- Settles O53: a drive in [0, 1] has a positive gain, so the circuit's filters see `+0` only. -/
theorem circuitZeroPreservation : Obligations.CircuitZeroPreservation := by
  intro p q drive tone level hprep hq hd _ hl
  obtain ⟨-, tone', hk⟩ := hprep
  obtain ⟨hfin, hsign⟩ := driveGain_of_inUnit (p := p) hd
  exact circuitProcess_silent hk hq hfin hsign (inUnit_iff.1 hl).1

/-! ### Silence through a block -/

/-- What one channel's run takes in for one sample: the word `+0`, at a drive gain and a level that are finite and have no
sign (rule R112). -/
def SilentInput (p : Params) (i : (Word × Word × Word) × Word) : Prop :=
  i.2 = 0#32 ∧ isFinite32 (driveGain (num32 p) i.1.1) = true ∧ signBit (driveGain (num32 p) i.1.1) = false ∧
    isFinite32 i.1.2.2 = true ∧ signBit i.1.2.2 = false

/-- A silent circuit keeps its state over any number of such inputs, and answers each with `+0`. -/
theorem channelRun_silent {p : Params} {q : Circuit Word} {fs tone : Word}
    (hk : circuitCoefs (num32 p) fs tone = .ok (coefsOf q)) (hq : silentHistory q) {xs : List ((Word × Word × Word) × Word)}
    (h : ∀ i ∈ xs, SilentInput p i) :
    channelRun (num32 p) q xs = (q, List.replicate xs.length 0#32) := by
  induction xs with
  | nil => rfl
  | cons i rest ih =>
    obtain ⟨⟨drive, t, level⟩, x⟩ := i
    obtain ⟨⟨rfl, hfin, hsign, hl, hls⟩, hrest⟩ := List.forall_mem_cons.1 h
    have hstep := circuitProcess_silent (t := t) hk hq hfin hsign hl
    simp only [hls, Bool.false_eq_true, if_false] at hstep
    simp only [channelRun, hstep, ih hrest, List.length_cons, List.replicate_succ]

/-- Settles O33: the block is one run of each channel, all of whose inputs are silent, from its refreshed circuit. -/
theorem silentBlockStaysSilent : Obligations.SilentBlockStaysSilent := by
  intro len drive tone level s hacc hq hcells hknobs href
  have hsamples : SamplesFinite s len := fun c n hc hn => by rw [hcells c n hc hn]; decide
  obtain ⟨t, hexec, hend, -, -, -, -, hchannels, -⟩ := blockIsPerChannelRuns len drive tone level s hacc href hsamples
  have hrun : ∀ c, c < s.nch.toNat →
      channelRun (num32 s.par) (refreshed s c) (frameInputs s drive tone level c len.toNat) =
        (refreshed s c, List.replicate len.toNat 0#32) := by
    intro c hc
    have hinputs : ∀ i ∈ frameInputs s drive tone level c len.toNat, SilentInput s.par i := by
      intro i hi
      obtain ⟨n, hn, rfl⟩ := List.mem_map.1 hi
      have hlt := List.mem_range.1 hn
      obtain ⟨⟨hfin, hsign⟩, hl, hls⟩ := hknobs n hlt
      exact ⟨hcells c n hc hlt, hfin, hsign, hl, hls⟩
    have hsilent := channelRun_silent (q := refreshed s c) ((coefsExist_iff ..).1 (href c hc)) (hq c hc) hinputs
    rwa [frameInputs_length] at hsilent
  refine ⟨t, hexec, hend, fun c hc => ?_, fun c n hc hn => ?_⟩
  · rw [(hchannels c hc).1, hrun c hc]
    exact hq c hc
  · have hcell := (hchannels c hc).2 n hn
    rw [hrun c hc, List.getElem?_replicate_of_lt hn] at hcell
    exact (Option.some.inj hcell).symm

end Sys2Proof.Machine
end

section
/-! PROOFS. Where a block ends (spec/44_block.md rules R107, R110, R111, spec/60_exceptions.md rule R126): the exact states
its two faults leave, that a block with a normal end met neither, and which coefficients it leaves whatever becomes of it. -/

namespace Sys2Proof.Machine

section BlockEnds

variable {s t : State} {len drive tone level : Word}

/-! ### The two faults -/

/-- An accepted block with a circuit whose coefficients do not exist answers the raise of step 3 at the first of them. -/
theorem exec_blk_refreshFault {c0 : Nat} {e : Cause} (hacc : BlockAccepted s len drive tone level)
    (hc0 : c0 < s.nch.toNat) (href : RefreshSucceeds s c0)
    (hbad : firstFailure (circuitChecks s.par (getCircuit s c0).fs s.sm.tone.cur) = some e) :
    ∃ u, exec (.blk len drive tone level) s = .next (raise e Op.blk.code (BitVec.ofNat 8 c0) 0#32 u) ∧
      u = { blkLatch (blkTargets (num32 s.par) drive tone level s) with cir := u.cir, seq := u.seq } ∧
      ∀ c, getCircuit u c = if c < c0 then refreshed s c else getCircuit s c := by
  obtain ⟨u, hrun, hrest⟩ := runBlock_refreshFault (d := drive) (t := tone) (l := level) len hacc.circuits hc0 href hbad
  exact ⟨u, by rw [exec, execBlk_of_accepted hacc, hrun], hrest⟩

/-- An accepted block whose circuits all refresh answers the raise of step 4 at its first cell that is not finite. -/
theorem exec_blk_sampleFault {c0 n0 : Nat} (hacc : BlockAccepted s len drive tone level)
    (href : RefreshSucceeds s s.nch.toNat) (hc0 : c0 < s.nch.toNat) (hn0 : n0 < len.toNat)
    (hbad : isFinite32 (cell s c0 n0) = false)
    (hbefore : ∀ c n, c < s.nch.toNat → n < n0 ∨ (n = n0 ∧ c < c0) → isFinite32 (cell s c n) = true) :
    ∃ u, exec (.blk len drive tone level) s =
        .next (raise .pvNonfinite Op.blk.code (BitVec.ofNat 8 c0) (BitVec.ofNat 32 n0) u) ∧
      Progress s drive tone level (n0 + 1) (doneAt n0 c0) u ∧ Latched s drive tone level n0 u := by
  obtain ⟨u, hrun, hrest⟩ := runBlock_sampleFault (d := drive) (t := tone) (l := level) len hacc.circuits href hc0 hn0
    hbad hbefore
  exact ⟨u, by rw [exec, execBlk_of_accepted hacc, hrun], hrest⟩

/-! ### Normal ends -/

/-- An accepted block that ends normally met neither fault: every circuit refreshed and every cell it read is finite. -/
theorem exec_blk_endsNormally (hacc : BlockAccepted s len drive tone level)
    (h : exec (.blk len drive tone level) s = .next t) (hend : endsNormally t) :
    RefreshSucceeds s s.nch.toNat ∧ SamplesFinite s len := by
  have hnotRaised : ∀ e ch idx u, exec (.blk len drive tone level) s ≠ .next (raise e Op.blk.code ch idx u) := by
    intro e ch idx u hraise
    cases h.symm.trans hraise
    exact absurd (isFaulted_raise ..) (Bool.eq_false_iff.1 hend)
  have href : RefreshSucceeds s s.nch.toNat := by
    by_contra hno
    obtain ⟨c0, e, hc0, hbefore, hbad⟩ := exists_first_failing_circuit hno
    obtain ⟨u, hu, -⟩ := exec_blk_refreshFault hacc hc0 hbefore hbad
    exact hnotRaised _ _ _ u hu
  refine ⟨href, ?_⟩
  by_contra hno
  obtain ⟨c0, n0, hc0, hn0, hbad, hbefore⟩ := exists_first_nonfinite_cell hno
  obtain ⟨u, hu, -⟩ := exec_blk_sampleFault hacc href hc0 hn0 hbad hbefore
  exact hnotRaised _ _ _ u hu

theorem refreshed_congr {c c' : Nat} (h : getCircuit s c = getCircuit s c') : refreshed s c = refreshed s c' := by
  rw [refreshed, refreshed, h]

/-- The smoothed triples of a block are common to its channels (rule R110), so equal cells make equal inputs. -/
theorem frameInputs_congr {c c' m : Nat} (h : ∀ n, n < m → cell s c n = cell s c' n) :
    frameInputs s drive tone level c m = frameInputs s drive tone level c' m :=
  List.map_congr_left fun n hn => by rw [h n (List.mem_range.1 hn)]

/-! ### Coefficients -/

/-- No sample writes a coefficient (rule R111). -/
theorem coefsOf_channelRun (N : Num Word) (q : Circuit Word) (xs : List ((Word × Word × Word) × Word)) :
    coefsOf (channelRun N q xs).1 = coefsOf q := by
  induction xs generalizing q with
  | nil => rfl
  | cons i rest ih => exact ih _

theorem Progress.coefs {adv : Nat} {done : Nat → Nat} {u : State} (h : Progress s drive tone level adv done u) (c : Nat) :
    coefsOf (getCircuit u c) = coefsOf (if c < s.nch.toNat then refreshed s c else getCircuit s c) := by
  split
  · rename_i hc
    rw [h.circuit c hc, coefsOf_channelRun]
  · rename_i hc
    rw [(h.outside c (Nat.le_of_not_lt hc)).1]

/-- How many circuits step 3 of a block that starts in `s` refreshes: all of the collection, or those before the first
whose coefficients do not exist (rules R107, R126). No operand of the block has a part in it. -/
def RefreshReaches (s : State) (m : Nat) : Prop :=
  RefreshSucceeds s m ∧ m ≤ s.nch.toNat ∧ (m < s.nch.toNat → ¬CoefsExist s.par (getCircuit s m).fs s.sm.tone.cur)

theorem RefreshReaches.unique {m m' : Nat} (h : RefreshReaches s m) (h' : RefreshReaches s m') : m = m' := by
  obtain ⟨hm, hle, hstop⟩ := h
  obtain ⟨hm', hle', hstop'⟩ := h'
  rcases Nat.lt_trichotomy m m' with hlt | heq | hgt
  · exact absurd (hm' m hlt) (hstop (by omega))
  · exact heq
  · exact absurd (hm m' hgt) (hstop' (by omega))

/-- However an accepted block ends, its coefficients are those of the circuits step 3 has refreshed, at the smoothed tone
before the block, and else the old ones. -/
theorem exec_blk_coefs (hacc : BlockAccepted s len drive tone level)
    (h : exec (.blk len drive tone level) s = .next t) :
    ∃ m, RefreshReaches s m ∧ ∀ c, coefsOf (getCircuit t c) = coefsOf (if c < m then refreshed s c else getCircuit s c) := by
  by_cases href : RefreshSucceeds s s.nch.toNat
  · refine ⟨_, ⟨href, Nat.le_refl _, fun hlt => absurd hlt (Nat.lt_irrefl _)⟩, ?_⟩
    by_cases hfin : SamplesFinite s len
    · obtain ⟨u, hu, -, hp, -⟩ := exec_blk_completes hacc href hfin
      cases h.symm.trans hu
      exact hp.coefs
    · obtain ⟨c0, n0, hc0, hn0, hbad, hbefore⟩ := exists_first_nonfinite_cell hfin
      obtain ⟨u, hu, hp, -⟩ := exec_blk_sampleFault hacc href hc0 hn0 hbad hbefore
      cases h.symm.trans hu
      exact hp.coefs
  · obtain ⟨c0, e, hc0, hbefore, hbad⟩ := exists_first_failing_circuit href
    obtain ⟨u, hu, -, hcir⟩ := exec_blk_refreshFault hacc hc0 hbefore hbad
    cases h.symm.trans hu
    exact ⟨c0, ⟨hbefore, hc0.le, fun _ => by simp [CoefsExist, hbad]⟩, fun c => congrArg coefsOf (hcir c)⟩

end BlockEnds

/-! ### What a block's end says -/

/-- Settles O36: the raise of step 3, over the targets and latches of steps 1 and 2. -/
theorem blockStepThreeFault : Obligations.BlockStepThreeFault := by
  intro len drive tone level s c0 e hacc hc0 href hbad N
  obtain ⟨u, hexec, hu, hcir⟩ := exec_blk_refreshFault hacc hc0 href hbad
  rw [blkLatch_blkTargets] at hu
  refine ⟨_, hexec, ?_, fun c hc => (hcir c).trans (if_pos hc), fun c hc => (hcir c).trans (if_neg (by omega))⟩
  rw [raise, hu]
  rfl

/-- Settles O35: the raise of step 4, over the block's `Progress` when channel `c0` of frame `n0` is next. -/
theorem blockStepFourFault : Obligations.BlockStepFourFault := by
  intro len drive tone level s c0 n0 hacc href hc0 hn0 hbad hbefore N
  obtain ⟨u, hexec, hp, hfd, hft, hfl⟩ := exec_blk_sampleFault hacc href hc0 hn0 hbad hbefore
  refine ⟨_, hexec, ?_, fun c hc => ⟨hp.circuit c hc, hp.output c hc, hp.ahead c hc⟩, fun c hc => (hp.outside c hc).1,
    fun c i hc => (hp.outside c hc).2 i⟩
  rw [raise, hp.fields, hfd, hft, hfl]
  rfl

/-- Settles O32: a block with a normal end gives each channel its own run, and the two runs are of equal circuits on equal
inputs. -/
theorem twoEqualChannelsStayEqual : Obligations.TwoEqualChannelsStayEqual := by
  intro len drive tone level s t c c' hacc hc hc' hcir hcells h hend
  obtain ⟨href, hfin⟩ := exec_blk_endsNormally hacc h hend
  obtain ⟨u, hu, -, hp, -⟩ := exec_blk_completes hacc href hfin
  cases h.symm.trans hu
  have hrun : channelRun (num32 s.par) (refreshed s c) (frameInputs s drive tone level c len.toNat) =
      channelRun (num32 s.par) (refreshed s c') (frameInputs s drive tone level c' len.toNat) := by
    rw [refreshed_congr hcir, frameInputs_congr hcells]
  refine ⟨(hp.circuit c hc).trans (hrun ▸ (hp.circuit c' hc').symm), fun n hn => Option.some.inj ?_⟩
  exact (hp.output c hc n hn).symm.trans (hrun ▸ hp.output c' hc' n hn)

/-- Settles O37: how far step 3 comes and the coefficients it writes depend on the state before the block only. -/
theorem toneActsOneBlockLate : Obligations.ToneActsOneBlockLate := by
  intro len drive drive' tone tone' level level' s t t' hacc hacc' h h' c
  obtain ⟨m, hm, hcoefs⟩ := exec_blk_coefs hacc h
  obtain ⟨m', hm', hcoefs'⟩ := exec_blk_coefs hacc' h'
  rw [hcoefs c, hcoefs' c, hm.unique hm']

end Sys2Proof.Machine
end

section
/-! PROOFS. Checks, faults and the faulted state (spec/60_exceptions.md): every command is its list of checks, then its own
effect (rules R123, R126), so the first check that fails is the whole of what it does; and a core that faulted discards
words until `RESET` (rules R125, R129). -/

namespace Sys2Proof.Machine

variable {s t : State}

/-! ### Checks in order -/

theorem afterChecks_of_some {l : List (Bool × Cause)} {e : Cause} (h : firstFailure l = some e) (o : Op) (ch : Byte)
    (s : State) (body : Result) : afterChecks l o ch s body = fail e o ch s := by
  rw [afterChecks, h]

theorem afterChecks_of_none {l : List (Bool × Cause)} (h : firstFailure l = none) (o : Op) (ch : Byte) (s : State)
    (body : Result) : afterChecks l o ch s body = body := by
  rw [afterChecks, h]

/-- A list of checks may be judged in two parts, the second as the body of the first. -/
theorem afterChecks_append (a b : List (Bool × Cause)) (o : Op) (ch : Byte) (s : State) (body : Result) :
    afterChecks (a ++ b) o ch s body = afterChecks a o ch s (afterChecks b o ch s body) := by
  rw [afterChecks, afterChecks, firstFailure_append]
  cases firstFailure a <;> rfl

/-- The model asks whether a count is 0, the rules whether it is at least 1. -/
theorem bne_zero_eq_one_le (w : Word) : (w != 0#32) = decide (1 ≤ w.toNat) := by
  rw [Bool.eq_iff_iff, bne_iff_ne, decide_eq_true_eq]
  bv_omega

theorem bne_zero_and_le_eq (w : Word) (m : Nat) :
    (w != 0#32 && decide (w.toNat ≤ m)) = decide (1 ≤ w.toNat ∧ w.toNat ≤ m) := by
  rw [bne_zero_eq_one_le, Bool.decide_and]

/-- The checks of `circuit_prepare` in its order: rate, block size, coefficients (rule R97). -/
def prepareChecks (p : Params) (fs blksz pdefTone : Word) : List (Bool × Cause) :=
  [(isFinite32 fs && flt32 0#32 fs, .icFs), (decide (1 ≤ blksz.toNat), .icBlocksize)] ++ circuitChecks p fs pdefTone

/-- `circuit_prepare` is its checks, then the prepared circuit. -/
theorem circuitPrepare_eq_checks (p : Params) (pdefTone fs blksz : Word) :
    circuitPrepare (num32 p) pdefTone fs blksz = match firstFailure (prepareChecks p fs blksz pdefTone) with
      | some e => .error e
      | none => .ok (preparedCircuit (num32 p) fs (bankOf p fs pdefTone)) := by
  rw [prepareChecks, firstFailure_append, circuitPrepare, circuitCoefs_eq_checks, bne_zero_eq_one_le, rateOk,
    num32_isfinite, num32_flt, num32_zero]
  cases firstFailure [(isFinite32 fs && flt32 0#32 fs, Cause.icFs), (decide (1 ≤ blksz.toNat), .icBlocksize)] with
  | some e => rfl
  | none => cases firstFailure (circuitChecks p fs pdefTone) <;> rfl

/-! ### Every command is its checks, then its effect -/

/-- What a command answers once its checks have passed. -/
def effectOf (i : Instr) (s : State) : Result :=
  let N := num32 s.par
  match i with
  | .cfg fs blksz nch => .next (configure N fs blksz nch (bankOf s.par fs s.par.pdefTone) s)
  | .blk len drive tone level =>
    if blockInBounds len s then
      match runBlock N len drive tone level s with
      | .error t => .next t
      | .ok t => .next t
    else .fault .noSuchCell
  | .wrs c idx v => .next { s with buf := memWrite s.buf c.toNat idx.toNat v }
  | .rds c idx => .next (setRes0 s (cell s c.toNat idx.toNat))
  | .smcfg k fs win => .next (setSm s k (smoothConfigure N fs win (getSm s k)))
  | .smtgt k v => .next (setSm s k (smoothSetTarget N v (getSm s k)))
  | .smcur k => .next (setRes0 s (getSm s k).cur)
  | .smnxt k => .next (setRes0 (setSm s k (smoothNext N (getSm s k))) (smoothNext N (getSm s k)).cur)
  | .coef kind fs fc => .next (setRes s (coefValue s.par kind fs fc))
  | .fapp c f x =>
    let q := getCircuit s c.toNat
    let p := filtStep N (getFilter q f) x
    .next (setRes0 (setCircuit s c.toNat (setFilter q f p)) p.y1)
  | .clip x => .next (setRes0 s (clip N x))
  | .cprep c fs _ => .next (setCircuit s c.toNat (preparedCircuit N fs (bankOf s.par fs s.par.pdefTone)))
  | .updf c _ tone =>
    let q := getCircuit s c.toNat
    .next (setCircuit s c.toNat (withCoefs q (bankOf s.par q.fs tone)))
  | .psmp c x drive tone level =>
    let r := circuitProcess N (getCircuit s c.toNat) x drive tone level
    .next (setRes0 (setCircuit s c.toNat r.1) r.2)

/-- Command `i` in `s` is the checks that its rule lists, then its effect (rule R123). -/
def ChecksThenEffect (i : Instr) (s : State) : Prop :=
  exec i s = unlessFaulted s (afterChecks (checksOf i s) i.op i.head.ch s (effectOf i s))

/-- `COEF` calls `coef` (rule R83). -/
theorem ChecksThenEffect.coef (kind : FilterKind) (fs fc : Word) : ChecksThenEffect (.coef kind fs fc) s := by
  rw [ChecksThenEffect, exec, execCoef, coefIn, asF, asF, coef_eq_checks, checksOf, afterChecks]
  cases firstFailure (coefChecks s.par fs fc) <;> rfl

/-- `CFG` judges its operands, then the coefficients, then the step count (rule R106). -/
theorem ChecksThenEffect.cfg (fs blksz nch : Word) : ChecksThenEffect (.cfg fs blksz nch) s := by
  rw [ChecksThenEffect, checksOf, afterChecks_append, afterChecks_append, ← bne_zero_and_le_eq, ← bne_zero_and_le_eq]
  refine congrArg (fun r => unlessFaulted s (afterChecks _ .cfg 0#8 s r)) ?_
  rw [asF, circuitCoefs_eq_checks, afterChecks]
  cases firstFailure (circuitChecks s.par fs s.par.pdefTone) <;> rfl

theorem checksOf_cprep (c : Byte) (fs blksz : Word) (s : State) : checksOf (.cprep c fs blksz) s =
    [(decide (c.toNat < s.nch.toNat), .pvChannel)] ++ prepareChecks s.par fs blksz s.par.pdefTone := by
  simp only [checksOf, prepareChecks, List.cons_append, List.nil_append]

/-- `CPREP` judges its channel, then calls `circuit_prepare` (rule R98). -/
theorem ChecksThenEffect.cprep (c : Byte) (fs blksz : Word) : ChecksThenEffect (.cprep c fs blksz) s := by
  rw [ChecksThenEffect, checksOf_cprep, afterChecks_append]
  refine congrArg (fun r => unlessFaulted s (afterChecks _ .cprep c s r)) ?_
  rw [asF, circuitPrepare_eq_checks, afterChecks]
  cases firstFailure (prepareChecks s.par fs blksz s.par.pdefTone) <;> rfl

/-- `UPDF` judges its operands, then calls `circuit_update` (rule R100). -/
theorem ChecksThenEffect.updf (c : Byte) (drive tone : Word) : ChecksThenEffect (.updf c drive tone) s := by
  rw [ChecksThenEffect, checksOf, afterChecks_append]
  refine congrArg (fun r => unlessFaulted s (afterChecks _ .updf c s r)) ?_
  rw [asF, asF, circuitUpdate_eq_checks, afterChecks]
  cases firstFailure (circuitChecks s.par (getCircuit s c.toNat).fs tone) <;> rfl

/-- Ten commands are written as one list of checks before an effect; the four that call the coefficient design find the rest
of their checks there. -/
theorem checksThenEffect (i : Instr) (s : State) : ChecksThenEffect i s := by
  cases i with
  | cfg fs blksz nch => exact .cfg fs blksz nch
  | blk => rfl
  | wrs => rfl
  | rds => rfl
  | smcfg => rfl
  | smtgt => rfl
  | smcur => rfl
  | smnxt => rfl
  | coef kind fs fc => exact .coef kind fs fc
  | fapp => rfl
  | clip => rfl
  | cprep c fs blksz => exact .cprep c fs blksz
  | updf c drive tone => exact .updf c drive tone
  | psmp => rfl

theorem exec_of_check_failed {i : Instr} {e : Cause} (hf : isFaulted s = false)
    (h : firstFailure (checksOf i s) = some e) : exec i s = fail e i.op i.head.ch s := by
  rw [checksThenEffect i s, unlessFaulted_of_running hf, afterChecks_of_some h]

theorem exec_of_checks_passed {i : Instr} (hf : isFaulted s = false) (h : firstFailure (checksOf i s) = none) :
    exec i s = effectOf i s := by
  rw [checksThenEffect i s, unlessFaulted_of_running hf, afterChecks_of_none h]

/-- The effect of a command other than `BLK` is a next state, and it writes neither `FSR` nor the port's and the
sequencer's registers. -/
theorem effectOf_completes {i : Instr} (hi : i.op ≠ .blk) (s : State) :
    ∃ t, effectOf i s = .next t ∧ t.fsr = s.fsr ∧ t.cmdq = s.cmdq ∧ t.seq = s.seq := by
  cases i with
  | blk => exact absurd rfl hi
  | smcfg => exact ⟨_, rfl, setSm_fsr .., setSm_cmdq .., setSm_seq ..⟩
  | smtgt => exact ⟨_, rfl, setSm_fsr .., setSm_cmdq .., setSm_seq ..⟩
  | smnxt => exact ⟨_, rfl, setSm_fsr .., setSm_cmdq .., setSm_seq ..⟩
  | _ => exact ⟨_, rfl, rfl, rfl, rfl⟩

theorem endsNormally_of_fsr_eq (h : t.fsr = s.fsr) (hf : isFaulted s = false) : endsNormally t := by
  rw [endsNormally, isFaulted, h]
  exact hf

/-- Settles O13: `raise` is that update, and the codes are those of rule R121. -/
theorem raiseRecords : Obligations.RaiseRecords := ⟨fun _ _ _ _ _ => rfl, by decide⟩

/-- Settles O14: a command is its checks first, and a check that fails leaves only the raise. -/
theorem firstFailingCheckReported : Obligations.FirstFailingCheckReported := fun _ _ _ hf h =>
  exec_of_check_failed hf h

/-- Settles O15: the checks passed, what is left is the effect. -/
theorem passedChecksComplete : Obligations.PassedChecksComplete := by
  intro i s hf hi h
  obtain ⟨t, ht, hfsr, hcmdq, hseq⟩ := effectOf_completes hi s
  exact ⟨t, (exec_of_checks_passed hf h).trans ht, endsNormally_of_fsr_eq hfsr hf, hfsr, hcmdq, hseq⟩

/-! ### The faulted state -/

/-- A faulted core discards a word, whatever is waiting in `CMDQ` (rule R125). -/
theorem acceptWord_of_faulted (run : Instr → State → Result) (w : Word) (hf : isFaulted s = true) :
    acceptWord run w s = .next s :=
  if_pos hf

/-- Settles O8: the port discards the word, and no command runs. -/
theorem faultedCoreDiscards : Obligations.FaultedCoreDiscards := by
  refine ⟨fun s w rest hp hf hport => ?_, fun s i hf => exec_of_faulted i hf⟩
  rw [step_of_word hp hport]
  exact acceptWord_of_faulted exec w (s := { s with port := rest }) hf

/-- Settles O17: of what a step can do, idling and an accepted word leave a faulted core faulted. -/
theorem faultedLeftOnlyByReset : Obligations.FaultedLeftOnlyByReset := by
  intro s t hf h ht
  obtain ⟨-, ⟨-, rfl⟩ | ⟨e, rest, hport, ⟨w, -, hw⟩ | ⟨rfl, -⟩ | ⟨w, u, rfl, -, -⟩⟩⟩ := step_cases h
  · cases hf.symm.trans ht
  · cases (acceptWord_of_faulted exec w (s := { s with port := rest }) hf).symm.trans hw
    cases hf.symm.trans ht
  · exact ⟨rest, .inl hport⟩
  · exact ⟨rest, .inr ⟨w, hport⟩⟩

end Sys2Proof.Machine
end

section
/-! PROOFS. `RESET` between commands (spec/70_reset_and_hazards.md rules R140, R141): the step is `applyReset`, the power-up
state under the same parameters and the same `BUF`. -/

namespace Sys2Proof.Machine

theorem step_of_reset {s : State} {rest : List HostEvent} (hp : paramsOk s.par = true)
    (hport : s.port = .reset :: rest) : step s = .next (applyReset { s with port := rest }) := by
  rw [step, if_pos hp, portStep, hport]
  simp only [hostStep]

/-- `RESET` leaves the registers of rule R34, faulted core or not. -/
theorem resetRegisters_applyReset (s : State) : ResetRegisters s.par (applyReset s) :=
  resetRegisters_powerUp s.par s.buf s.port s.draws

/-- Settles O11: the step is `applyReset`, which differs from the power-up state in no register. -/
theorem resetSetsEveryRegister : Obligations.ResetSetsEveryRegister := by
  refine ⟨fun s rest hp hport => ?_, fun p => resetRegisters_powerUp p [] [] 0⟩
  exact ⟨_, step_of_reset hp hport, resetRegisters_applyReset { s with port := rest }, applyReset_buf _, applyReset_par _⟩

end Sys2Proof.Machine
end
